-- ==== Sys2Proof/Word.lean ====
section
/-! DEFINITION. The words of the machine: 32-bit registers and addresses, bytes, register numbers, and
the named constants of `spec/00_scope.md` R5. -/

namespace Sys2Proof

/-- A 32-bit register, address or datum (`spec/00_scope.md` R3 XLEN, R5). -/
abbrev Word := BitVec 32

/-- The 8-bit unit of memory (`spec/20_memory.md` R60). -/
abbrev Byte := BitVec 8

/-- The number of a general register, 0 to 31, as a 5-bit field holds it (`spec/30_encoding.md` R93). -/
abbrev RegNum := BitVec 5

/-- The place of one bit in a 32-bit register (`spec/00_scope.md` R4). -/
abbrev BitPos := BitVec 5

/-- INT_MAX of `spec/00_scope.md` R5. -/
def intMax : Word := 0x7FFFFFFF#32

/-- INT_MIN of `spec/00_scope.md` R5. -/
def intMin : Word := 0x80000000#32

/-- The number of addresses, 2^32 (`spec/20_memory.md` R60). -/
def addressSpace : Nat := 4294967296

end Sys2Proof
end

