-- ==== Sys2Proof/Config.lean ====
section
/-! DEFINITION. The implementation parameters of `spec/00_scope.md` R3 as plain data (`Params`; a field
of State, so that a statement about every state holds for every value of them, log 1), and the free
values: constants without a body, of which nothing can be proved (logs 6, 7, 12, 16, 17, 19). -/

namespace Sys2Proof

/-- The four length classes of `spec/30_encoding.md` R90. -/
inductive LenClass where
  | bt | bn | bg | bw
  deriving DecidableEq, Repr, Inhabited

/-- LEN_BT, LEN_BN, LEN_BG, LEN_BW in bytes (R3, R90). -/
def LenClass.bytes : LenClass → Nat
  | .bt => 2
  | .bn => 3
  | .bg => 4
  | .bw => 6

/-- HAS_CY of R3: the carry flag is implemented (`spec/10_state.md` R29). -/
def Config.hasCy : Bool := true

/-- DATA_ENDIAN (`spec/20_memory.md` R61). -/
inductive Endian where
  | big | little
  deriving DecidableEq, Repr

/-- MISALIGNED_POLICY (`spec/20_memory.md` R64). -/
inductive MisalignedPolicy where
  | refuse | split | fault
  deriving DecidableEq, Repr

/-- BNO_CLEARS_OV (`spec/92_eei_decisions.md` D17). -/
inductive BnoClearsOv where
  | onlySEq3 | never | alwaysWhenTaken
  deriving DecidableEq, Repr

/-- What EPCR receives (`spec/60_exceptions.md` R456): the raising instruction's own address, or the
next one's. -/
inductive EpcrRule where
  | self | next
  deriving DecidableEq, Repr

/-- The EPCR rule of the platform's alignment exception, which the spec leaves to the platform
(`spec/60_exceptions.md` R455): one of the two rules of R456, or a function only the platform knows
(`Config.epcrOnAlign`). That it takes the arguments of R456's rules, the address and the length of the raising
instruction, is the model's choice (log 12). -/
inductive AlignEpcr where
  | rule (e : EpcrRule)
  | platform
  deriving DecidableEq, Repr

/-- SR_ON_ENTRY (`spec/60_exceptions.md` R457): the spec's default, or a function only the platform
knows (`Config.srOnEntry`). -/
inductive SrOnEntry where
  | clearEnables | platform
  deriving DecidableEq, Repr

/-- FP (`spec/47_float.md` R421): the spec's default instance, or functions only the platform knows
(`Config.fadd` and its siblings). -/
inductive FpInstance where
  | ieee | platform
  deriving DecidableEq, Repr

/-- SR_BIT: the positions of the named fields of SR (`spec/10_state.md` R26). -/
structure SrBits where
  f   : BitPos
  cy  : BitPos
  ov  : BitPos
  iee : BitPos
  tee : BitPos
  deriving DecidableEq, Repr

/-- UR_BIT: the positions of the named fields of UR (`spec/10_state.md` R33). -/
structure UrBits where
  macovh : BitPos
  macovl : BitPos
  maccy  : BitPos
  fov    : BitPos
  fun_   : BitPos
  fsn    : BitPos
  fqn    : BitPos
  fix    : BitPos
  fiv    : BitPos
  fdz    : BitPos
  deriving DecidableEq, Repr

/-- SPR_ADDR: the numbers of the six named special-purpose registers (`spec/10_state.md` R40); `none`
where the platform leaves one unmapped (`spec/92_eei_decisions.md` D35). -/
structure SprAddr where
  sr    : Option Word
  esr   : Option Word
  epcr  : Option Word
  machi : Option Word
  maclo : Option Word
  ur    : Option Word
  deriving DecidableEq, Repr

/-- LEN_OF: the length class of the nine mnemonics whose form line is lost (`spec/30_encoding.md` R122). -/
structure LenOf where
  jalr  : LenClass
  mac   : LenClass
  macs  : LenClass
  sys   : LenClass
  subs  : LenClass
  sfges : LenClass
  sfgeu : LenClass
  sfles : LenClass
  sfleu : LenClass
  deriving DecidableEq, Repr

/-- A range of addresses, of MEMMAP (`spec/20_memory.md` R72) or of the platform's read-only memory
(`spec/60_exceptions.md` R455): `size` bytes from `base`. -/
structure AddrRange where
  base : Nat
  size : Nat
  deriving DecidableEq, Repr

/-- The implementation parameters of `spec/00_scope.md` R3. No step changes them. -/
structure Params where
  srBit       : SrBits
  urBit       : UrBits
  sprAddr     : SprAddr
  vecSyscall  : Word
  vecTrap     : Word
  epcrOnSys   : EpcrRule
  epcrOnTrap  : EpcrRule
  srOnEntry   : SrOnEntry
  endian      : Endian
  misaligned  : MisalignedPolicy
  /-- The vector of the platform's alignment exception, used under the policy `fault` only
  (`spec/60_exceptions.md` R455). -/
  vecAlign    : Word
  /-- The EPCR rule of the platform's alignment exception (`spec/60_exceptions.md` R455). -/
  epcrOnAlign : AlignEpcr
  bnoClearsOv : BnoClearsOv
  lenOf       : LenOf
  memmap      : List AddrRange
  /-- The read-only memory of the platform: where MEMMAP has it too, it is read and fetched, and a write to it is
  refused (`spec/60_exceptions.md` R455). DESIGN CHOICE (log 33): the spec does not say how such memory is
  described, and the default map has none. -/
  readOnly    : List AddrRange
  fp          : FpInstance
  deriving DecidableEq, Repr

/-- The gate of an interrupt class: the enable bit of SR that admits it (`spec/60_exceptions.md` R460). -/
inductive Gate where
  | iee | tee
  deriving DecidableEq, Repr

/-- One interrupt class of IRQ (`spec/60_exceptions.md` R460): its enable bit, its handler address, and
whether the platform is requesting it at the present boundary. -/
structure IrqClass where
  gate    : Gate
  vec     : Word
  pending : Bool
  deriving DecidableEq, Repr

/-- Flags6 of `spec/47_float.md` R421, in the order of R422. -/
structure FpFlags where
  ov : Bool
  un : Bool
  sn : Bool
  qn : Bool
  ix : Bool
  iv : Bool
  deriving DecidableEq, Repr, Inhabited

/-- `any32()` of `spec/00_scope.md` R7: the free word of draw `n` (log 7). -/
opaque Config.freeWord : Nat → Word

/-- `any1()` of `spec/00_scope.md` R7: the free bit of draw `n` (log 7). -/
opaque Config.freeBit : Nat → Bool

/-- The byte an address holds before anything has written it (`spec/10_state.md` R44; log 6). -/
opaque Config.unwrittenByte : Nat → Byte

/-- The platform's SR_ON_ENTRY, of which the spec fixes nothing (`spec/60_exceptions.md` R457; log 16). -/
opaque Config.srOnEntry : Word → Word

/-- The platform's EPCR rule for its alignment exception, a function of the address and the length of the raising
instruction, of which the spec fixes nothing (`spec/60_exceptions.md` R455; log 12). -/
opaque Config.epcrOnAlign : Word → Nat → Word

/-- Whether the platform requests interrupt class `i` at the boundary of draw `n`
(`spec/60_exceptions.md` R460, R461; log 19). -/
opaque Config.irqPending : Nat → Nat → Bool

/-- Which of the pending and enabled classes is taken at the boundary of draw `n`; a number past the
last of them means that none is (`spec/60_exceptions.md` R460, R462; log 19). -/
opaque Config.irqTake : Nat → Nat

/-- The platform's `FP.fadd` (`spec/47_float.md` R421; log 17). -/
opaque Config.fadd : Word → Word → Word × FpFlags

/-- The platform's `FP.fsub` (`spec/47_float.md` R421; log 17). -/
opaque Config.fsub : Word → Word → Word × FpFlags

/-- The platform's `FP.fmul` (`spec/47_float.md` R421; log 17). -/
opaque Config.fmul : Word → Word → Word × FpFlags

/-- The platform's `FP.fdiv`: result, flags, divide by zero (`spec/47_float.md` R421; log 17). -/
opaque Config.fdiv : Word → Word → Word × FpFlags × Bool

/-- The platform's `FP.ftoi` (`spec/47_float.md` R421; log 17). -/
opaque Config.ftoi : Word → Word × FpFlags

/-- The platform's `FP.itof` (`spec/47_float.md` R421; log 17). -/
opaque Config.itof : Word → Word × FpFlags

/-- The platform's `FP.feq` (`spec/47_float.md` R421; log 17). -/
opaque Config.feq : Word → Word → Bool

/-- The platform's `FP.flt` (`spec/47_float.md` R421; log 17). -/
opaque Config.flt : Word → Word → Bool

/-- The platform's `FP.fle` (`spec/47_float.md` R421; log 17). -/
opaque Config.fle : Word → Word → Bool

end Sys2Proof
end

