-- ==== Sys2Proof/Syntax.lean ====
section
/-! DEFINITION. The instruction forms of the BA2 set: one constructor per row of `spec/opcode_table.json`
(`spec/00_scope.md` R9, R11). Fields are named by the operand letters of R11; letters the manual gives
no width have the upper bound R11 derives (log 21). The thirteen aliases of `spec/30_encoding.md`
R126 to R131 that the table lists are constructors of their own (log 28). -/

namespace Sys2Proof

/-- The offset field of an alias whose target has a `bg.` and a `bw.` form (`spec/30_encoding.md` R129):
`U` of the first, `u` of the second. -/
inductive BranchOff where
  | bg (U : BitVec 12)
  | bw (u : BitVec 28)
  deriving DecidableEq, Repr

/-- An instruction form with its operands. -/
inductive Instr where
  /-- `bn.or rD,rA,rB` (R203) -/
  | bnOr (rD rA rB : RegNum)
  /-- `bn.xor rD,rA,rB` (R205) -/
  | bnXor (rD rA rB : RegNum)
  /-- `bn.nand rD,rA,rB` (R207) -/
  | bnNand (rD rA rB : RegNum)
  /-- `bn.sub rD,rA,rB` (R158) -/
  | bnSub (rD rA rB : RegNum)
  /-- `bn.sll rD,rA,rB` (R210) -/
  | bnSll (rD rA rB : RegNum)
  /-- `bn.srl rD,rA,rB` (R212) -/
  | bnSrl (rD rA rB : RegNum)
  /-- `bn.sra rD,rA,rB` (R214) -/
  | bnSra (rD rA rB : RegNum)
  /-- `bn.ror rD,rA,rB` (R216) -/
  | bnRor (rD rA rB : RegNum)
  /-- `bn.cmov rD,rA,rB` (R227) -/
  | bnCmov (rD rA rB : RegNum)
  /-- `bn.mul rD,rA,rB` (R161) -/
  | bnMul (rD rA rB : RegNum)
  /-- `bn.div rD,rA,rB` (R164) -/
  | bnDiv (rD rA rB : RegNum)
  /-- `bn.divu rD,rA,rB` (R166) -/
  | bnDivu (rD rA rB : RegNum)
  /-- `bn.addc rD,rA,rB` (R153) -/
  | bnAddc (rD rA rB : RegNum)
  /-- `bn.subb rD,rA,rB` (R159) -/
  | bnSubb (rD rA rB : RegNum)
  /-- `bn.flb rD,rA,rB` (R221) -/
  | bnFlb (rD rA rB : RegNum)
  /-- `bn.mulh rD,rA,rB` (R162) -/
  | bnMulh (rD rA rB : RegNum)
  /-- `bn.mod rD,rA,rB` (R168) -/
  | bnMod (rD rA rB : RegNum)
  /-- `bn.cmpxchg rD,rA,rB` (R377) -/
  | bnCmpxchg (rD rA rB : RegNum)
  /-- `fn.add.s rD,rA,rB` (R423) -/
  | fnAddS (rD rA rB : RegNum)
  /-- `fn.sub.s rD,rA,rB` (R424) -/
  | fnSubS (rD rA rB : RegNum)
  /-- `fn.mul.s rD,rA,rB` (R425) -/
  | fnMulS (rD rA rB : RegNum)
  /-- `fn.div.s rD,rA,rB` (R426) -/
  | fnDivS (rD rA rB : RegNum)
  /-- `bn.adds rD,rA,rB` (R157) -/
  | bnAdds (rD rA rB : RegNum)
  /-- `bn.slli rD,rA,H` (R211) -/
  | bnSlli (rD rA : RegNum) (H : BitVec 5)
  /-- `bn.srli rD,rA,H` (R213) -/
  | bnSrli (rD rA : RegNum) (H : BitVec 5)
  /-- `bn.srai rD,rA,H` (R215) -/
  | bnSrai (rD rA : RegNum) (H : BitVec 5)
  /-- `bn.rori rD,rA,H` (R217) -/
  | bnRori (rD rA : RegNum) (H : BitVec 5)
  /-- `bn.extbz rD,rA` (R224) -/
  | bnExtbz (rD rA : RegNum)
  /-- `bn.extbs rD,rA` (R223) -/
  | bnExtbs (rD rA : RegNum)
  /-- `bn.exthz rD,rA` (R226) -/
  | bnExthz (rD rA : RegNum)
  /-- `bn.exths rD,rA` (R225) -/
  | bnExths (rD rA : RegNum)
  /-- `bn.ff1 rD,rA` (R220) -/
  | bnFf1 (rD rA : RegNum)
  /-- `bn.clz rD,rA` (R219) -/
  | bnClz (rD rA : RegNum)
  /-- `bn.swab rD,rA` (R222) -/
  | bnSwab (rD rA : RegNum)
  /-- `fn.ftoi.s rD,rA` (R427) -/
  | fnFtoiS (rD rA : RegNum)
  /-- `fn.itof.s rD,rA` (R428) -/
  | fnItofS (rD rA : RegNum)
  /-- `bt.addi rD,G` (R156) -/
  | btAddi (rD : RegNum) (G : BitVec 4)
  /-- `bt.nop G` (R231) -/
  | btNop (G : BitVec 4)
  /-- `bt.trap G` (R401) -/
  | btTrap (G : BitVec 4)
  /-- `bt.mov rD,rA` (R228) -/
  | btMov (rD rA : RegNum)
  /-- `bt.rfe` (R402) -/
  | btRfe
  /-- `bt.ei` (R403) -/
  | btEi
  /-- `bt.di` (R404) -/
  | btDi
  /-- `bt.add rD,rA` (R152) -/
  | btAdd (rD rA : RegNum)
  /-- `bt.movi rD,G` (R230) -/
  | btMovi (rD : RegNum) (G : BitVec 4)
  /-- `bt.j T` (R331) -/
  | btJ (T : BitVec 10)
  /-- `bn.aadd rD,rA,rB` (R376) -/
  | bnAadd (rD rA rB : RegNum)
  /-- `bn.add rD,rA,rB` (R152) -/
  | bnAdd (rD rA rB : RegNum)
  /-- `bn.addi rD,rA,O` (R156) -/
  | bnAddi (rD rA : RegNum) (O : BitVec 8)
  /-- `bn.and rD,rA,rB` (R201) -/
  | bnAnd (rD rA rB : RegNum)
  /-- `bn.andi rD,rA,N` (R202) -/
  | bnAndi (rD rA : RegNum) (N : BitVec 8)
  /-- `bn.bc S` (R284) -/
  | bnBc (S : BitVec 12)
  /-- `bn.beqi rB,E,P` (R299) -/
  | bnBeqi (rB : RegNum) (E : BitVec 5) (P : BitVec 8)
  /-- `bn.bf S` (R282) -/
  | bnBf (S : BitVec 12)
  /-- `bn.bgesi rB,E,P` (R301) -/
  | bnBgesi (rB : RegNum) (E : BitVec 5) (P : BitVec 8)
  /-- `bn.bgtsi rB,E,P` (R302) -/
  | bnBgtsi (rB : RegNum) (E : BitVec 5) (P : BitVec 8)
  /-- `bn.bitrev rD,rA` (R218) -/
  | bnBitrev (rD rA : RegNum)
  /-- `bn.blesi rB,E,P` (R303) -/
  | bnBlesi (rB : RegNum) (E : BitVec 5) (P : BitVec 8)
  /-- `bn.bltsi rB,E,P` (R304) -/
  | bnBltsi (rB : RegNum) (E : BitVec 5) (P : BitVec 8)
  /-- `bn.bnc S` (R285) -/
  | bnBnc (S : BitVec 12)
  /-- `bn.bnei rB,E,P` (R300) -/
  | bnBnei (rB : RegNum) (E : BitVec 5) (P : BitVec 8)
  /-- `bn.bnf S` (R283) -/
  | bnBnf (S : BitVec 12)
  /-- `bn.bno S` (R287) -/
  | bnBno (S : BitVec 12)
  /-- `bn.bo S` (R286) -/
  | bnBo (S : BitVec 12)
  /-- `bn.entri F,N` (R339) -/
  | bnEntri (F : BitVec 18) (N : BitVec 8)
  /-- `bn.j Z` (R331) -/
  | bnJ (Z : BitVec 16)
  /-- `bn.jal s` (R333) -/
  | bnJal (sOff : BitVec 18)
  /-- `bn.jr rA` (R335) -/
  | bnJr (rA : RegNum)
  /-- `bn.lbz rD,N(rA)` (R361) -/
  | bnLbz (rD : RegNum) (N : BitVec 8) (rA : RegNum)
  /-- `bn.ld rD,J(rA)` (R365) -/
  | bnLd (rD : RegNum) (J : BitVec 5) (rA : RegNum)
  /-- `bn.lhz rD,M(rA)` (R362) -/
  | bnLhz (rD : RegNum) (M : BitVec 7) (rA : RegNum)
  /-- `bn.lws rD,K(rA)` (R364) -/
  | bnLws (rD : RegNum) (K : BitVec 6) (rA : RegNum)
  /-- `bn.lwz rD,K(rA)` (R363) -/
  | bnLwz (rD : RegNum) (K : BitVec 6) (rA : RegNum)
  /-- `bn.mlwz rD,K(rA),C` (R370) -/
  | bnMlwz (rD : RegNum) (K : BitVec 6) (rA : RegNum) (C : BitVec 2)
  /-- `bn.modu rD,rA,rB` (R169) -/
  | bnModu (rD rA rB : RegNum)
  /-- `bn.msw K(rA),rB,C` (R371) -/
  | bnMsw (K : BitVec 6) (rA rB : RegNum) (C : BitVec 2)
  /-- `bn.ori rD,rA,N` (R204) -/
  | bnOri (rD rA : RegNum) (N : BitVec 8)
  /-- `bn.reti F,N` (R340) -/
  | bnReti (F : BitVec 18) (N : BitVec 8)
  /-- `bn.return` (R336) -/
  | bnReturn
  /-- `bn.rtnei F,N` (R341) -/
  | bnRtnei (F : BitVec 18) (N : BitVec 8)
  /-- `bn.sb N(rA),rB` (R366) -/
  | bnSb (N : BitVec 8) (rA rB : RegNum)
  /-- `bn.sd J(rA),rB` (R369) -/
  | bnSd (J : BitVec 5) (rA rB : RegNum)
  /-- `bn.sfeq rA,rB` (R251) -/
  | bnSfeq (rA rB : RegNum)
  /-- `bn.sfeqi rA,O` (R252) -/
  | bnSfeqi (rA : RegNum) (O : BitVec 8)
  /-- `bn.sfgesi rA,O` (R256) -/
  | bnSfgesi (rA : RegNum) (O : BitVec 8)
  /-- `bn.sfgeui rA,O` (R258) -/
  | bnSfgeui (rA : RegNum) (O : BitVec 8)
  /-- `bn.sfgts rA,rB` (R259) -/
  | bnSfgts (rA rB : RegNum)
  /-- `bn.sfgtsi rA,O` (R260) -/
  | bnSfgtsi (rA : RegNum) (O : BitVec 8)
  /-- `bn.sfgtu rA,rB` (R261) -/
  | bnSfgtu (rA rB : RegNum)
  /-- `bn.sfgtui rA,O` (R262) -/
  | bnSfgtui (rA : RegNum) (O : BitVec 8)
  /-- `bn.sflesi rA,O` (R264) -/
  | bnSflesi (rA : RegNum) (O : BitVec 8)
  /-- `bn.sfleui rA,O` (R266) -/
  | bnSfleui (rA : RegNum) (O : BitVec 8)
  /-- `bn.sfltsi rA,O` (R268) -/
  | bnSfltsi (rA : RegNum) (O : BitVec 8)
  /-- `bn.sfltui rA,O` (R270) -/
  | bnSfltui (rA : RegNum) (O : BitVec 8)
  /-- `bn.sfne rA,rB` (R253) -/
  | bnSfne (rA rB : RegNum)
  /-- `bn.sfnei rA,O` (R254) -/
  | bnSfnei (rA : RegNum) (O : BitVec 8)
  /-- `bn.sh M(rA),rB` (R367) -/
  | bnSh (M : BitVec 7) (rA rB : RegNum)
  /-- `bn.sw K(rA),rB` (R368) -/
  | bnSw (K : BitVec 6) (rA rB : RegNum)
  /-- `bg.addi rD,rA,Y` (R156) -/
  | bgAddi (rD rA : RegNum) (Y : BitVec 16)
  /-- `bg.beq rA,rB,U` (R289) -/
  | bgBeq (rA rB : RegNum) (U : BitVec 12)
  /-- `bg.beqi rB,I,U` (R299) -/
  | bgBeqi (rB : RegNum) (I : BitVec 5) (U : BitVec 12)
  /-- `bg.bf t` (R282) -/
  | bgBf (t : BitVec 24)
  /-- `bg.bges rA,rB,U` (R291) -/
  | bgBges (rA rB : RegNum) (U : BitVec 12)
  /-- `bg.bgesi rB,I,U` (R301) -/
  | bgBgesi (rB : RegNum) (I : BitVec 5) (U : BitVec 12)
  /-- `bg.bgeu rA,rB,U` (R292) -/
  | bgBgeu (rA rB : RegNum) (U : BitVec 12)
  /-- `bg.bgeui rB,I,U` (R305) -/
  | bgBgeui (rB : RegNum) (I : BitVec 5) (U : BitVec 12)
  /-- `bg.bgts rA,rB,U` (R293) -/
  | bgBgts (rA rB : RegNum) (U : BitVec 12)
  /-- `bg.bgtsi rB,I,U` (R302) -/
  | bgBgtsi (rB : RegNum) (I : BitVec 5) (U : BitVec 12)
  /-- `bg.bgtu rA,rB,U` (R294) -/
  | bgBgtu (rA rB : RegNum) (U : BitVec 12)
  /-- `bg.bgtui rB,I,U` (R306) -/
  | bgBgtui (rB : RegNum) (I : BitVec 5) (U : BitVec 12)
  /-- `bg.blesi rB,I,U` (R303) -/
  | bgBlesi (rB : RegNum) (I : BitVec 5) (U : BitVec 12)
  /-- `bg.bleui rB,I,U` (R307) -/
  | bgBleui (rB : RegNum) (I : BitVec 5) (U : BitVec 12)
  /-- `bg.bltsi rB,I,U` (R304) -/
  | bgBltsi (rB : RegNum) (I : BitVec 5) (U : BitVec 12)
  /-- `bg.bltui rB,I,U` (R308) -/
  | bgBltui (rB : RegNum) (I : BitVec 5) (U : BitVec 12)
  /-- `bg.bne rA,rB,U` (R290) -/
  | bgBne (rA rB : RegNum) (U : BitVec 12)
  /-- `bg.bnei rB,I,U` (R300) -/
  | bgBnei (rB : RegNum) (I : BitVec 5) (U : BitVec 12)
  /-- `bg.bnf t` (R283) -/
  | bgBnf (t : BitVec 24)
  /-- `bg.j t` (R331) -/
  | bgJ (t : BitVec 24)
  /-- `bg.jal t` (R333) -/
  | bgJal (t : BitVec 24)
  /-- `bg.lbz rD,Y(rA)` (R361) -/
  | bgLbz (rD : RegNum) (Y : BitVec 16) (rA : RegNum)
  /-- `bg.ld rD,V(rA)` (R365) -/
  | bgLd (rD : RegNum) (V : BitVec 13) (rA : RegNum)
  /-- `bg.lhz rD,X(rA)` (R362) -/
  | bgLhz (rD : RegNum) (X : BitVec 15) (rA : RegNum)
  /-- `bg.lws rD,W(rA)` (R364) -/
  | bgLws (rD : RegNum) (W : BitVec 14) (rA : RegNum)
  /-- `bg.lwz rD,W(rA)` (R363) -/
  | bgLwz (rD : RegNum) (W : BitVec 14) (rA : RegNum)
  /-- `bg.sb Y(rA),rB` (R366) -/
  | bgSb (Y : BitVec 16) (rA rB : RegNum)
  /-- `bg.sd V(rA),rB` (R369) -/
  | bgSd (V : BitVec 13) (rA rB : RegNum)
  /-- `bg.sh X(rA),rB` (R367) -/
  | bgSh (X : BitVec 15) (rA rB : RegNum)
  /-- `bg.sw W(rA),rB` (R368) -/
  | bgSw (W : BitVec 14) (rA rB : RegNum)
  /-- `fg.beq.s rA,rB,U` (R430) -/
  | fgBeqS (rA rB : RegNum) (U : BitVec 12)
  /-- `fg.bge.s rA,rB,U` (R432) -/
  | fgBgeS (rA rB : RegNum) (U : BitVec 12)
  /-- `fg.bgt.s rA,rB,U` (R433) -/
  | fgBgtS (rA rB : RegNum) (U : BitVec 12)
  /-- `fg.bne.s rA,rB,U` (R431) -/
  | fgBneS (rA rB : RegNum) (U : BitVec 12)
  /-- `bw.addci rD,rA,p` (R154) -/
  | bwAddci (rD rA : RegNum) (p : BitVec 24)
  /-- `bw.addi rD,rA,g` (R156) -/
  | bwAddi (rD rA : RegNum) (g : BitVec 32)
  /-- `bw.andi rD,rA,h` (R202) -/
  | bwAndi (rD rA : RegNum) (h : BitVec 32)
  /-- `bw.beq rA,rB,u` (R289) -/
  | bwBeq (rA rB : RegNum) (u : BitVec 28)
  /-- `bw.beqi rB,I,u` (R299) -/
  | bwBeqi (rB : RegNum) (I : BitVec 5) (u : BitVec 28)
  /-- `bw.bf z` (R282) -/
  | bwBf (z : BitVec 32)
  /-- `bw.bges rA,rB,u` (R291) -/
  | bwBges (rA rB : RegNum) (u : BitVec 28)
  /-- `bw.bgesi rB,I,u` (R301) -/
  | bwBgesi (rB : RegNum) (I : BitVec 5) (u : BitVec 28)
  /-- `bw.bgeu rA,rB,u` (R292) -/
  | bwBgeu (rA rB : RegNum) (u : BitVec 28)
  /-- `bw.bgeui rB,I,u` (R305) -/
  | bwBgeui (rB : RegNum) (I : BitVec 5) (u : BitVec 28)
  /-- `bw.bgts rA,rB,u` (R293) -/
  | bwBgts (rA rB : RegNum) (u : BitVec 28)
  /-- `bw.bgtsi rB,I,u` (R302) -/
  | bwBgtsi (rB : RegNum) (I : BitVec 5) (u : BitVec 28)
  /-- `bw.bgtu rA,rB,u` (R294) -/
  | bwBgtu (rA rB : RegNum) (u : BitVec 28)
  /-- `bw.bgtui rB,I,u` (R306) -/
  | bwBgtui (rB : RegNum) (I : BitVec 5) (u : BitVec 28)
  /-- `bw.blesi rB,I,u` (R303) -/
  | bwBlesi (rB : RegNum) (I : BitVec 5) (u : BitVec 28)
  /-- `bw.bleui rB,I,u` (R307) -/
  | bwBleui (rB : RegNum) (I : BitVec 5) (u : BitVec 28)
  /-- `bw.bltsi rB,I,u` (R304) -/
  | bwBltsi (rB : RegNum) (I : BitVec 5) (u : BitVec 28)
  /-- `bw.bltui rB,I,u` (R308) -/
  | bwBltui (rB : RegNum) (I : BitVec 5) (u : BitVec 28)
  /-- `bw.bne rA,rB,u` (R290) -/
  | bwBne (rA rB : RegNum) (u : BitVec 28)
  /-- `bw.bnei rB,I,u` (R300) -/
  | bwBnei (rB : RegNum) (I : BitVec 5) (u : BitVec 28)
  /-- `bw.bnf z` (R283) -/
  | bwBnf (z : BitVec 32)
  /-- `bw.divi rD,rA,p` (R165) -/
  | bwDivi (rD rA : RegNum) (p : BitVec 24)
  /-- `bw.divui rD,rA,o` (R167) -/
  | bwDivui (rD rA : RegNum) (o : BitVec 32)
  /-- `bw.j z` (R331) -/
  | bwJ (z : BitVec 32)
  /-- `bw.ja g` (R332) -/
  | bwJa (g : BitVec 32)
  /-- `bw.jal z` (R333) -/
  | bwJal (z : BitVec 32)
  /-- `bw.jma rD,z` (R337) -/
  | bwJma (rD : RegNum) (z : BitVec 32)
  /-- `bw.jmal rD,z` (R338) -/
  | bwJmal (rD : RegNum) (z : BitVec 32)
  /-- `bw.lbz rD,h(rA)` (R361) -/
  | bwLbz (rD : RegNum) (h : BitVec 32) (rA : RegNum)
  /-- `bw.ld rD,v(rA)` (R365) -/
  | bwLd (rD : RegNum) (vOff : BitVec 29) (rA : RegNum)
  /-- `bw.lhz rD,i(rA)` (R362) -/
  | bwLhz (rD : RegNum) (iOff : BitVec 31) (rA : RegNum)
  /-- `bw.lma rD,z` (R372) -/
  | bwLma (rD : RegNum) (z : BitVec 32)
  /-- `bw.lws rD,w(rA)` (R364) -/
  | bwLws (rD : RegNum) (wOff : BitVec 30) (rA : RegNum)
  /-- `bw.lwz rD,w(rA)` (R363) -/
  | bwLwz (rD : RegNum) (wOff : BitVec 30) (rA : RegNum)
  /-- `bw.mfspr rD,rA,o` (R405) -/
  | bwMfspr (rD rA : RegNum) (o : BitVec 32)
  /-- `bw.mtspr rA,rB,o` (R406) -/
  | bwMtspr (rA rB : RegNum) (o : BitVec 32)
  /-- `bw.muli rD,rA,p` (R163) -/
  | bwMuli (rD rA : RegNum) (p : BitVec 24)
  /-- `bw.ori rD,rA,h` (R204) -/
  | bwOri (rD rA : RegNum) (h : BitVec 32)
  /-- `bw.sb h(rA),rB` (R366) -/
  | bwSb (h : BitVec 32) (rA rB : RegNum)
  /-- `bw.sd v(rA),rB` (R369) -/
  | bwSd (vOff : BitVec 29) (rA rB : RegNum)
  /-- `bw.sfeqi rA,g` (R252) -/
  | bwSfeqi (rA : RegNum) (g : BitVec 32)
  /-- `bw.sfgesi rA,g` (R256) -/
  | bwSfgesi (rA : RegNum) (g : BitVec 32)
  /-- `bw.sfgeui rA,g` (R258) -/
  | bwSfgeui (rA : RegNum) (g : BitVec 32)
  /-- `bw.sfgtsi rA,g` (R260) -/
  | bwSfgtsi (rA : RegNum) (g : BitVec 32)
  /-- `bw.sfgtui rA,g` (R262) -/
  | bwSfgtui (rA : RegNum) (g : BitVec 32)
  /-- `bw.sflesi rA,g` (R264) -/
  | bwSflesi (rA : RegNum) (g : BitVec 32)
  /-- `bw.sfleui rA,g` (R266) -/
  | bwSfleui (rA : RegNum) (g : BitVec 32)
  /-- `bw.sfltsi rA,g` (R268) -/
  | bwSfltsi (rA : RegNum) (g : BitVec 32)
  /-- `bw.sfltui rA,g` (R270) -/
  | bwSfltui (rA : RegNum) (g : BitVec 32)
  /-- `bw.sfnei rA,g` (R254) -/
  | bwSfnei (rA : RegNum) (g : BitVec 32)
  /-- `bw.sh i(rA),rB` (R367) -/
  | bwSh (iOff : BitVec 31) (rA rB : RegNum)
  /-- `bw.sma rB,z` (R373) -/
  | bwSma (rB : RegNum) (z : BitVec 32)
  /-- `bw.sw w(rA),rB` (R368) -/
  | bwSw (wOff : BitVec 30) (rA rB : RegNum)
  /-- `bw.xori rD,rA,p` (R206) -/
  | bwXori (rD rA : RegNum) (p : BitVec 24)
  /-- `fw.beq.s rA,rB,u` (R430) -/
  | fwBeqS (rA rB : RegNum) (u : BitVec 28)
  /-- `fw.bge.s rA,rB,u` (R432) -/
  | fwBgeS (rA rB : RegNum) (u : BitVec 28)
  /-- `fw.bgt.s rA,rB,u` (R433) -/
  | fwBgtS (rA rB : RegNum) (u : BitVec 28)
  /-- `fw.bne.s rA,rB,u` (R431) -/
  | fwBneS (rA rB : RegNum) (u : BitVec 28)
  /-- `b.jalr rA` (R334) -/
  | bJalr (rA : RegNum)
  /-- `b.mac rA,rB` (R170) -/
  | bMac (rA rB : RegNum)
  /-- `b.macs rA,rB` (R171) -/
  | bMacs (rA rB : RegNum)
  /-- `b.sys` (R400) -/
  | bSys (imm : Option Word)
  /-- `b.subs rD,rA,rB` (R160) -/
  | bSubs (rD rA rB : RegNum)
  /-- `b.sfges rA,rB` (R255) -/
  | bSfges (rA rB : RegNum)
  /-- `b.sfgeu rA,rB` (R257) -/
  | bSfgeu (rA rB : RegNum)
  /-- `b.sfles rA,rB` (R263) -/
  | bSfles (rA rB : RegNum)
  /-- `b.sfleu rA,rB` (R265) -/
  | bSfleu (rA rB : RegNum)
  /-- `b.addic rD,rA,I, written for bw.addci rD,rA,p` (R155) -/
  | bAddic (rD rA : RegNum) (p : BitVec 24)
  /-- `b.not rD,rA, written for bn.nand rD,rA,rA` (R208) -/
  | bNot (rD rA : RegNum)
  /-- `b.movhi rA,I, written for bw.addi <dest>,r0,(I << 16)` (R229) -/
  | bMovhi (rA : RegNum) (I : BitVec 16)
  /-- `b.cov, written for bn.bno 3` (R288) -/
  | bCov
  /-- `b.bles rA,rB,I, written for bg.bges / bw.bges rB,rA,I` (R295) -/
  | bBles (rA rB : RegNum) (off : BranchOff)
  /-- `b.bleu rA,rB,I, written for bg.bgeu / bw.bgeu rB,rA,I` (R296) -/
  | bBleu (rA rB : RegNum) (off : BranchOff)
  /-- `b.blts rA,rB,I, written for bg.bgts / bw.bgts rB,rA,I` (R297) -/
  | bBlts (rA rB : RegNum) (off : BranchOff)
  /-- `b.bltu rA,rB,I, written for bg.bgtu / bw.bgtu rB,rA,I` (R298) -/
  | bBltu (rA rB : RegNum) (off : BranchOff)
  /-- `b.sflts rA,rB, written for bn.sfgts rB,rA` (R267) -/
  | bSflts (rA rB : RegNum)
  /-- `b.sfltu rA,rB, written for bn.sfgtu rB,rA` (R269) -/
  | bSfltu (rA rB : RegNum)
  /-- `f.abs.s rD,rA, written for bw.andi rD,rA,0x7FFFFFFF` (R429) -/
  | fAbsS (rD rA : RegNum)
  /-- `f.ble.s rA,rB,I, written for fg.bge.s / fw.bge.s rB,rA,I` (R434) -/
  | fBleS (rA rB : RegNum) (off : BranchOff)
  /-- `f.blt.s rA,rB,I, written for fg.bgt.s / fw.bgt.s rB,rA,I` (R435) -/
  | fBltS (rA rB : RegNum) (off : BranchOff)
  deriving DecidableEq, Repr

end Sys2Proof
end

