-- ==== Sys2Proof/Machine/State.lean ====
section
/-! DEFINITION. The state of the machine: everything `spec/10_state.md` R20 names, the parameters of
`spec/00_scope.md` R3, the platform's interrupt requests (`spec/60_exceptions.md` R460), and two
bookkeeping fields (`stored`, `draws`). `INVENTORY.md` lists each field with its rule and reset value. -/

namespace Sys2Proof.Machine

/-- Reasons for a fault. None: the spec's only exceptions are next states, and every other stop is a
refusal it names (`spec/93_implementation_defined.md`, end of section 2; `spec/92_eei_decisions.md`
section 8). -/
inductive Fault where
  deriving DecidableEq, Repr

/-- Reasons for a refusal: the named refusals of `spec/92_eei_decisions.md` section 8. All are safe: the
machine stops where the spec gives no behaviour. -/
inductive Refusal where
  /-- Raised by `exec` for an instruction without a meaning; safe. No arm of this model raises it. -/
  | notModelled (mnemonic : String)
  /-- Raised by the fetch: the bytes match no recovered pattern (D42), or the placed term is no form of
  the set; safe. -/
  | unknownEncoding
  /-- Raised by the fetch: `bt.mov r0,rA` with A of 3 to 31 (D50); safe. -/
  | reservedBtMov
  /-- Raised by the fetch: an instruction byte was written by a store of this run (D41); safe. -/
  | selfModifyingCode
  /-- Raised by data accesses under `MISALIGNED_POLICY` = refuse (D9); safe. -/
  | misaligned
  /-- Raised by the fetch and by data accesses outside MEMMAP (D59), and by writes to read-only memory
  (`spec/60_exceptions.md` R455; log 33); safe. -/
  | unmapped
  /-- Raised by `b.ld` and `b.sd`, which the spec describes for 64-bit implementations only (D21); safe. -/
  | not32bit
  /-- Raised by the register-list instructions when the list runs past r31 (D19); safe. -/
  | registerRange
  /-- Raised by `b.mlwz` when its base register is in the destination list (D20); safe. -/
  | baseInList
  /-- Raised by `b.jmal` with rD = r9 (D49); safe. -/
  | doubleWrite
  /-- Raised by `b.mfspr` and `b.mtspr` for a number outside the map (D37); safe. -/
  | unknownSpr
  /-- Raised by the carry-reading instructions in a configuration without SR.CY (D16); safe. -/
  | noCarry
  deriving DecidableEq, Repr

/-- Memory as the list of the bytes something has written (loader or store), addresses strictly rising
(`Memory.wf` in `Machine/Ops.lean`). An unlisted address has no value of its own: it reads as
`Config.unwrittenByte` (log 6). -/
abbrev Memory := List Host.Cell

/-- The state of the machine. -/
structure State where
  /-- x[1] to x[31]: x[i] at index i - 1. x[0] has no storage (`spec/10_state.md` R21). -/
  gpr      : Vector Word 31
  /-- The address of the instruction being executed (R25). -/
  pc       : Word
  /-- SR, all 32 bits (R26, R28). -/
  sr       : Word
  /-- The saved SR (R31). -/
  esr      : Word
  /-- The saved pc (R30). -/
  epcr     : Word
  /-- The high half of MAC (R32). -/
  machi    : Word
  /-- The low half of MAC (R32). -/
  maclo    : Word
  /-- UR, all 32 bits (R33). -/
  ur       : Word
  /-- Special-purpose registers the platform adds: number and value (R40). -/
  extraSpr : List (Word × Word)
  /-- The memory (`spec/20_memory.md` R60). -/
  mem      : Memory
  /-- The addresses a store of this run has written, strictly rising (`spec/20_memory.md` R76). -/
  stored   : List Nat
  /-- The assembly-level program: instruction forms by address (`spec/92_eei_decisions.md` D1). -/
  asm      : List (Nat × Instr)
  /-- The implementation parameters (`spec/00_scope.md` R3). -/
  params   : Params
  /-- The interrupt classes and what the platform requests at this boundary (`spec/60_exceptions.md` R460). -/
  irq      : List IrqClass
  /-- The index of the next free value; the model's own field (log 7). -/
  draws    : Nat
  deriving DecidableEq, Repr

/-- The parameter values after reset: the defaults of `spec/00_scope.md` R3 where it gives one, the picks
of `spec/95_test_vectors.md` 2.12 where it gives none (logs 1, 3, 4, 5, 12, 33). -/
def resetParams : Params where
  srBit := { f := 9, cy := 10, ov := 11, iee := 2, tee := 1 }
  urBit :=
    { macovh := 0, macovl := 1, maccy := 2, fov := 3, fun_ := 4, fsn := 5, fqn := 6, fix := 7, fiv := 8,
      fdz := 9 }
  sprAddr :=
    { sr := some 0x11, esr := some 0x40, epcr := some 0x20, machi := some 0x2802, maclo := some 0x2801,
      ur := some 0x2808 }
  vecSyscall := 0x300
  vecTrap := 0x200
  epcrOnSys := .next
  epcrOnTrap := .self
  srOnEntry := .clearEnables
  endian := .big
  misaligned := .refuse
  vecAlign := 0x600
  epcrOnAlign := .rule .self
  bnoClearsOv := .onlySEq3
  lenOf :=
    { jalr := .bn, mac := .bn, macs := .bn, sys := .bn, subs := .bn, sfges := .bn, sfgeu := .bn,
      sfles := .bn, sfleu := .bn }
  memmap := [{ base := 0, size := addressSpace }]
  readOnly := []
  fp := .ieee

/-- The machine right after reset (`spec/70_reset_and_hazards.md` R481): IEE = TEE = 0; every register the
spec gives no value holds zero (log 2); nothing loaded, nothing stored, no interrupt class. -/
def State.reset : State where
  gpr := Vector.replicate 31 0
  pc := 0
  sr := 0
  esr := 0
  epcr := 0
  machi := 0
  maclo := 0
  ur := 0
  extraSpr := []
  mem := []
  stored := []
  asm := []
  params := resetParams
  irq := []
  draws := 0

end Sys2Proof.Machine
end

