-- ==== Sys2Proof/Machine/Ops.lean ====
section
/-! DEFINITION. The named operations over registers and memory: the one place where a register, a byte,
a flag bit or a free value is read or written, and where an exception is taken and returned from. -/

namespace Sys2Proof.Machine

/-- What a step or a meaning answers. -/
abbrev Result := Host.Outcome State Fault Refusal

/-! ### Registers -/

/-- The read of x[r]: x[0] is 0 (`spec/10_state.md` R21). -/
def State.reg (s : State) (r : RegNum) : Word :=
  if r = 0 then 0 else s.gpr[r.toNat - 1]'(by have := r.isLt; omega)

/-- The write of x[r]: a write to x[0] is discarded (`spec/10_state.md` R21). -/
def State.setReg (s : State) (r : RegNum) (v : Word) : State :=
  if r = 0 then s else { s with gpr := s.gpr.set (r.toNat - 1) v (by have := r.isLt; omega) }

/-- The stack pointer r1 (`spec/10_state.md` R22). -/
def spReg : RegNum := 1

/-- The link register r9 (`spec/10_state.md` R23). -/
def linkReg : RegNum := 9

/-- `pc <- v`. -/
def State.setPc (s : State) (v : Word) : State := { s with pc := v }

/-- The write of all 32 bits of SR. -/
def State.setSr (s : State) (v : Word) : State := { s with sr := v }

/-- The write of all 32 bits of UR. -/
def State.setUr (s : State) (v : Word) : State := { s with ur := v }

/-- The write of ESR. -/
def State.setEsr (s : State) (v : Word) : State := { s with esr := v }

/-- The write of EPCR. -/
def State.setEpcr (s : State) (v : Word) : State := { s with epcr := v }

/-- The write of MACHI. -/
def State.setMachi (s : State) (v : Word) : State := { s with machi := v }

/-- The write of MACLO. -/
def State.setMaclo (s : State) (v : Word) : State := { s with maclo := v }

/-- The write of the platform's own special-purpose registers. -/
def State.setExtraSpr (s : State) (l : List (Word × Word)) : State := { s with extraSpr := l }

/-- `MAC <- v`: MACHI its high half, MACLO its low half (`spec/10_state.md` R32). -/
def State.setMac (s : State) (v : BitVec 64) : State :=
  (s.setMachi (v.extractLsb' 32 32)).setMaclo (v.extractLsb' 0 32)

/-- `MAC` = MACHI ++ MACLO (`spec/10_state.md` R32). -/
def State.mac (s : State) : BitVec 64 := s.machi ++ s.maclo

/-- The address after an instruction of class `c` at pc (`spec/00_scope.md` R7; modulo 2^32, D7). -/
def State.nextPc (s : State) (c : LenClass) : Word := s.pc + BitVec.ofNat 32 c.bytes

/-- `pc <- pc + len` for an instruction of class `c` (`spec/00_scope.md` R7). -/
def State.advance (s : State) (c : LenClass) : State := s.setPc (s.nextPc c)

/-! ### Bits of SR and UR -/

/-- `v[i]`. -/
def bitAt (v : Word) (i : BitPos) : Bool := v.getLsbD i.toNat

/-- `v` with bit `i` replaced by `b`, every other bit kept. -/
def withBit (v : Word) (i : BitPos) (b : Bool) : Word :=
  if b then v ||| BitVec.twoPow 32 i.toNat else v &&& ~~~ BitVec.twoPow 32 i.toNat

/-- SR.F (`spec/10_state.md` R26). -/
def State.flagF (s : State) : Bool := bitAt s.sr s.params.srBit.f

/-- SR.CY (`spec/10_state.md` R26). -/
def State.flagCy (s : State) : Bool := bitAt s.sr s.params.srBit.cy

/-- SR.OV (`spec/10_state.md` R26). -/
def State.flagOv (s : State) : Bool := bitAt s.sr s.params.srBit.ov

/-- SR.IEE (`spec/10_state.md` R26). -/
def State.flagIee (s : State) : Bool := bitAt s.sr s.params.srBit.iee

/-- SR.TEE (`spec/10_state.md` R26). -/
def State.flagTee (s : State) : Bool := bitAt s.sr s.params.srBit.tee

/-- `SR.F <- b`. -/
def State.setF (s : State) (b : Bool) : State := s.setSr (withBit s.sr s.params.srBit.f b)

/-- `SR.CY <- b`. -/
def State.setCy (s : State) (b : Bool) : State := s.setSr (withBit s.sr s.params.srBit.cy b)

/-- `SR.OV <- b`. -/
def State.setOv (s : State) (b : Bool) : State := s.setSr (withBit s.sr s.params.srBit.ov b)

/-- SR with both interrupt enables set to `b` (`spec/46_system.md` R403, R404). -/
def withEnables (p : Params) (v : Word) (b : Bool) : Word :=
  withBit (withBit v p.srBit.iee b) p.srBit.tee b

/-- `UR[i] <- b`. -/
def State.setUrBit (s : State) (i : BitPos) (b : Bool) : State := s.setUr (withBit s.ur i b)

/-! ### Free values -/

/-- One `any32()` (`spec/00_scope.md` R7). -/
def State.anyWord (s : State) : Word := Config.freeWord s.draws

/-- One `any1()` (`spec/00_scope.md` R7). -/
def State.anyBit (s : State) : Bool := Config.freeBit s.draws

/-- After a draw the next one is fresh (`spec/00_scope.md` R7). -/
def State.drawn (s : State) : State := { s with draws := s.draws + 1 }

/-! ### Memory -/

/-- The byte listed at `a`, if any. -/
def Memory.lookup : Memory → Nat → Option Byte
  | [], _ => none
  | (k, v) :: m, a => if k = a then some v else Memory.lookup m a

/-- Memory with `b` at `a`, in canonical form. -/
def Memory.insert : Memory → Nat → Byte → Memory
  | [], a, b => [(a, b)]
  | (k, v) :: m, a, b =>
    if a < k then (a, b) :: (k, v) :: m
    else if a = k then (a, b) :: m
    else (k, v) :: Memory.insert m a b

/-- What an unlisted address reads as (`spec/10_state.md` R44; log 6). -/
def Memory.unlisted (a : Nat) : Byte := Config.unwrittenByte a

/-- The byte at `a`. -/
def Memory.read (m : Memory) (a : Nat) : Byte := (m.lookup a).getD (Memory.unlisted a)

/-- Addresses strictly rising from `lo` and all in the address space. -/
def risingFrom (lo : Nat) : List Nat → Bool
  | [] => true
  | a :: l => decide (lo ≤ a) && decide (a < addressSpace) && risingFrom (a + 1) l

/-- The canonical form: addresses of the address space, strictly rising. An unlisted address reads as a
free value, so no listed byte is known to equal it and no entry is ever dropped (log 6). -/
def Memory.wf (m : Memory) : Bool := risingFrom 0 (m.map Prod.fst)

/-- A strictly rising list of addresses with `a` in it. -/
def insertAddr : List Nat → Nat → List Nat
  | [], a => [a]
  | k :: l, a => if a < k then a :: k :: l else if a = k then k :: l else k :: insertAddr l a

/-- The byte of the machine's memory at an address. -/
def State.readByte (s : State) (a : Word) : Byte := s.mem.read a.toNat

/-- A store of one byte: the byte and the mark of `spec/20_memory.md` R76. -/
def State.storeByte (s : State) (a : Word) (b : Byte) : State :=
  { s with mem := s.mem.insert a.toNat b, stored := insertAddr s.stored a.toNat }

/-- The address `k` bytes after `a`, modulo 2^32 (`spec/20_memory.md` R60). -/
def addrAt (a : Word) (k : Nat) : Word := a + BitVec.ofNat 32 k

/-- Whether an address lies in one of the ranges. -/
def inRanges (l : List AddrRange) (a : Word) : Bool :=
  l.any fun r => decide (r.base ≤ a.toNat) && decide (a.toNat < r.base + r.size)

/-- Whether an address is ordinary memory (`spec/20_memory.md` R72). -/
def mapped (p : Params) (a : Word) : Bool := inRanges p.memmap a

/-- Whether an address is read-only memory (`spec/60_exceptions.md` R455; log 33). -/
def isReadOnly (p : Params) (a : Word) : Bool := inRanges p.readOnly a

/-- What an access does with its bytes. -/
inductive AccessKind where
  | read | write
  deriving DecidableEq, Repr

/-- Whether a byte may be accessed: ordinary memory (`spec/20_memory.md` R72), and for a write no read-only
memory (`spec/60_exceptions.md` R455). -/
def permits (p : Params) (k : AccessKind) (a : Word) : Bool :=
  match k with
  | .read => mapped p a
  | .write => mapped p a && !isReadOnly p a

/-- Whether all `n` bytes from `a` may be accessed. -/
def permitsAll (p : Params) (k : AccessKind) (a : Word) (n : Nat) : Bool :=
  (List.range n).all fun j => permits p k (addrAt a j)

/-- Whether an address is a multiple of the access size (`spec/20_memory.md` R64). -/
def isAligned (a : Word) (n : Nat) : Bool := decide (a.toNat % n = 0)

/-- The value of bytes in ascending address order (`spec/20_memory.md` R62). -/
def assemble (e : Endian) (bytes : List Byte) : Word :=
  match e with
  | .big => bytes.foldl (fun acc b => (acc <<< 8) ||| b.setWidth 32) 0
  | .little => bytes.foldr (fun b acc => (acc <<< 8) ||| b.setWidth 32) 0

/-- The byte that a store of the `n` low bytes of `v` puts at offset `k` (`spec/20_memory.md` R63). -/
def byteOf (e : Endian) (n : Nat) (v : Word) (k : Nat) : Byte :=
  match e with
  | .big => v.extractLsb' (8 * (n - 1 - k)) 8
  | .little => v.extractLsb' (8 * k) 8

/-- The `n` bytes from `a`, ascending. -/
def State.bytesAt (s : State) (a : Word) (n : Nat) : List Byte :=
  (List.range n).map fun k => s.readByte (addrAt a k)

/-- The `n`-byte value at `a`, zero-extended: `MemRead` without its checks (`spec/20_memory.md` R62). -/
def State.readValue (s : State) (a : Word) (n : Nat) : Word := assemble s.params.endian (s.bytesAt a n)

/-- The store of bytes at ascending addresses. -/
def State.storeBytes : State → Word → List Byte → State
  | s, _, [] => s
  | s, a, b :: l => State.storeBytes (s.storeByte a b) (a + 1) l

/-- The store of the `n` low bytes of `v`: `MemWrite` without its checks (`spec/20_memory.md` R63). -/
def State.writeValue (s : State) (a : Word) (n : Nat) (v : Word) : State :=
  s.storeBytes a ((List.range n).map fun k => byteOf s.params.endian n v k)

/-- What an access answers: a value, one of the spec's refusals, or the platform's alignment exception
(`spec/20_memory.md` R64, R72). -/
inductive Access (α : Type) where
  | ok (v : α)
  | refuse (r : Refusal)
  | alignmentException

/-- One access after another; the first that stops decides (`spec/20_memory.md` R68). -/
def Access.bind {α β : Type} (x : Access α) (f : α → Access β) : Access β :=
  match x with
  | .ok v => f v
  | .refuse r => .refuse r
  | .alignmentException => .alignmentException

/-- The checks of an access of `n` bytes at `a`: alignment first (`spec/20_memory.md` R62 to R64), then
the map (R72) and, for a write, that no byte is read-only (`spec/60_exceptions.md` R455; log 33). -/
def accessCheck (p : Params) (k : AccessKind) (a : Word) (n : Nat) : Access Unit :=
  if isAligned a n || p.misaligned == .split then
    if permitsAll p k a n then .ok () else .refuse .unmapped
  else if p.misaligned == .refuse then .refuse .misaligned
  else .alignmentException

/-- `MemRead(a, n)`, zero-extended to a word (`spec/20_memory.md` R62). -/
def memRead (s : State) (a : Word) (n : Nat) : Access Word :=
  (accessCheck s.params .read a n).bind fun _ => .ok (s.readValue a n)

/-- `MemWrite(a, n, v)` (`spec/20_memory.md` R63). -/
def memWrite (s : State) (a : Word) (n : Nat) (v : Word) : Access State :=
  (accessCheck s.params .write a n).bind fun _ => .ok (s.writeValue a n v)

/-- Word reads at a list of addresses, in order (`spec/20_memory.md` R68). -/
def loadWords (s : State) : List Word → Access (List Word)
  | [] => .ok []
  | a :: l => (memRead s a 4).bind fun v => (loadWords s l).bind fun vs => .ok (v :: vs)

/-- Word writes of a list of address and value, in order (`spec/20_memory.md` R68). -/
def storeWords : List (Word × Word) → State → Access State
  | [], s => .ok s
  | (a, v) :: l, s => (memWrite s a 4 v).bind fun t => storeWords l t

/-- Writes of consecutive registers from `r`. -/
def setRegs : List Word → RegNum → State → State
  | [], _, s => s
  | v :: vs, r, s => setRegs vs (r + 1) (s.setReg r v)

/-! ### Exceptions -/

/-- The value an exception saves in EPCR for an instruction of class `c` (`spec/60_exceptions.md` R456). -/
def epcrValue (e : EpcrRule) (s : State) (c : LenClass) : Word :=
  match e with
  | .self => s.pc
  | .next => s.nextPc c

/-- SR after exception entry (`spec/60_exceptions.md` R457). -/
def srAfterEntry (p : Params) (sr : Word) : Word :=
  match p.srOnEntry with
  | .clearEnables => withEnables p sr false
  | .platform => Config.srOnEntry sr

/-- Taking an exception (`spec/60_exceptions.md` R454): ESR, EPCR, SR and pc are written, nothing else. -/
def enterException (vec epc : Word) (s : State) : State :=
  (((s.setEsr s.sr).setEpcr epc).setSr (srAfterEntry s.params s.sr)).setPc vec

/-- Returning from an exception (`spec/60_exceptions.md` R459). -/
def returnFromException (s : State) : State := (s.setPc s.epcr).setSr s.esr

/-- SystemCall (`spec/60_exceptions.md` R452), raised by an instruction of class `c`. -/
def raiseSystemCall (c : LenClass) (s : State) : State :=
  enterException s.params.vecSyscall (epcrValue s.params.epcrOnSys s c) s

/-- Trap (`spec/60_exceptions.md` R453), raised by an instruction of class `c`. -/
def raiseTrap (c : LenClass) (s : State) : State :=
  enterException s.params.vecTrap (epcrValue s.params.epcrOnTrap s c) s

/-- The value the platform's alignment exception saves in EPCR (`spec/60_exceptions.md` R455). -/
def alignEpcr (s : State) (c : LenClass) : Word :=
  match s.params.epcrOnAlign with
  | .rule e => epcrValue e s c
  | .platform => Config.epcrOnAlign s.pc c.bytes

/-- The platform's alignment exception (`spec/60_exceptions.md` R455), raised by an instruction of class
`c`; it exists under `MISALIGNED_POLICY` = fault only. -/
def raiseAlignment (c : LenClass) (s : State) : State :=
  enterException s.params.vecAlign (alignEpcr s c) s

/-- The outcome of an instruction of class `c` begun in `s` from what its accesses answer: none of its
effects is kept when one of them stops (`spec/20_memory.md` R68). -/
def Access.finish (c : LenClass) (s : State) : Access State → Result
  | .ok t => .next t
  | .refuse r => .refused r
  | .alignmentException => .next (raiseAlignment c s)

/-- `x[r] <- v` as the whole effect of an instruction of class `c`. -/
def writeBack (c : LenClass) (r : RegNum) (v : Word) (s : State) : Result :=
  .next ((s.setReg r v).advance c)

end Sys2Proof.Machine
end

