-- ==== Sys2Proof/Machine/Flags.lean ====
section
/-! DEFINITION. Every flag computation of the spec: carry, borrow and overflow of `spec/40_arith.md` R150,
saturation (R157, R160), the flags of multiplication and of the accumulator (R161, R170, R171), the
floating-point flags of `spec/47_float.md` R422, and the relations of the compares (`spec/42_compare.md`). -/

namespace Sys2Proof.Machine

/-- `carry_add(a,b,c)` (R150). -/
def carryAdd (a b : Word) (c : Bool) : Bool := decide (a.toNat + b.toNat + c.toNat ≥ 4294967296)

/-- Whether an exact integer is no signed 32-bit value. -/
def outside32 (x : Int) : Bool := decide (x < -2147483648) || decide (x > 2147483647)

/-- `ovf_add(a,b,c)` (R150). -/
def ovfAdd (a b : Word) (c : Bool) : Bool := outside32 (a.toInt + b.toInt + (c.toNat : Int))

/-- `borrow_sub(a,b,c)` (R150). -/
def borrowSub (a b : Word) (c : Bool) : Bool := decide (a.toNat < b.toNat + c.toNat)

/-- `ovf_sub(a,b,c)` (R150). -/
def ovfSub (a b : Word) (c : Bool) : Bool := outside32 (a.toInt - b.toInt - (c.toNat : Int))

/-- A one-bit number as a word. -/
def bitWord (c : Bool) : Word := BitVec.ofNat 32 c.toNat

/-- The clamping of an exact integer to the signed 32-bit range (R157, R160). -/
def clamp32 (x : Int) : Word :=
  if x > 2147483647 then intMax else if x < -2147483648 then intMin else BitVec.ofInt 32 x

/-- `SR.OV <- ov; SR.CY <- cy` (R151). -/
def State.setOvCy (s : State) (ov cy : Bool) : State := (s.setOv ov).setCy cy

/-- Whether an exact integer exceeds the signed 64-bit range upward (R170). -/
def above64 (x : Int) : Bool := decide (x > 9223372036854775807)

/-- Whether an exact integer exceeds the signed 64-bit range downward (R170). -/
def below64 (x : Int) : Bool := decide (x < -9223372036854775808)

/-- The wrapped accumulation of `b.mac` (R170). -/
def wrap64 (x : Int) : BitVec 64 := BitVec.ofInt 64 x

/-- The clamped accumulation of `b.macs` (R171). -/
def clamp64 (x : Int) : BitVec 64 :=
  if above64 x then 0x7FFFFFFFFFFFFFFF#64
  else if below64 x then 0x8000000000000000#64
  else BitVec.ofInt 64 x

/-- UR.MACCY: the unsigned carry out of bit 63 of product and accumulator (R170, R171). -/
def carryMac (t : Int) (acc : BitVec 64) : Bool :=
  decide ((BitVec.ofInt 64 t).toNat + acc.toNat ≥ 18446744073709551616)

/-- UR.MACOVH and UR.MACOVL are set where the exact sum `x` exceeds the range, kept elsewhere; UR.MACCY
is assigned (R170, R171). -/
def State.setMacFlags (s : State) (x : Int) (carry : Bool) : State :=
  let b := s.params.urBit
  let high := if above64 x then s.setUrBit b.macovh true else s
  let low := if below64 x then high.setUrBit b.macovl true else high
  low.setUrBit b.maccy carry

/-- The six assignments of `spec/47_float.md` R422. -/
def State.setFpFlags (s : State) (f : FpFlags) : State :=
  let b := s.params.urBit
  (((((s.setUrBit b.fov f.ov).setUrBit b.fun_ f.un).setUrBit b.fsn f.sn).setUrBit b.fqn f.qn).setUrBit
    b.fix f.ix).setUrBit b.fiv f.iv

/-- `UR.FDZ <- dz` (`spec/47_float.md` R422). -/
def State.setFdz (s : State) (dz : Bool) : State := s.setUrBit s.params.urBit.fdz dz

/-- The ten relations of the compares and the compare branches. -/
inductive Rel where
  | eq | ne | ges | geu | gts | gtu | les | leu | lts | ltu
  deriving DecidableEq, Repr

/-- Whether a relation holds: `s` compares signed, `u` unsigned (`spec/42_compare.md` R251 to R270). -/
def Rel.holds (r : Rel) (a b : Word) : Bool :=
  match r with
  | .eq => decide (a = b)
  | .ne => decide (a ≠ b)
  | .ges => decide (a.toInt ≥ b.toInt)
  | .geu => decide (a.toNat ≥ b.toNat)
  | .gts => decide (a.toInt > b.toInt)
  | .gtu => decide (a.toNat > b.toNat)
  | .les => decide (a.toInt ≤ b.toInt)
  | .leu => decide (a.toNat ≤ b.toNat)
  | .lts => decide (a.toInt < b.toInt)
  | .ltu => decide (a.toNat < b.toNat)

end Sys2Proof.Machine
end

