-- ==== Sys2Proof/Machine/Operands.lean ====
section
/-! DEFINITION. Every operand form: the extraction of each immediate letter (`spec/00_scope.md` R6, R11,
`spec/30_encoding.md` R110), effective addresses, branch offsets, word counts, special-purpose register
numbers, and the length class of each instruction form. -/

namespace Sys2Proof.Machine

/-! ### Immediates -/

/-- A sign-extended, unscaled immediate: letters G, T, O, P, S, Z, s, Y, U, t, p, u and the compare value
I (R11). -/
def immS {w : Nat} (f : BitVec w) : Word := f.signExtend 32

/-- A zero-extended, unscaled immediate: letters N, E, H, o, and the 32-bit letters g, h, z (R11). -/
def immZ {w : Nat} (f : BitVec w) : Word := f.setWidth 32

/-- A zero-extended offset scaled by 2^k: letters M (k = 1), K (k = 2), J (k = 3) of the `bn.` forms
(R11, `spec/45_load_store.md` R360). -/
def offZ {w : Nat} (f : BitVec w) (k : Nat) : Word := f.setWidth 32 <<< k

/-- `sext_16(f << k)`: letters X (k = 1), W (k = 2), V (k = 3) of the `bg.` forms (R6, R11,
`spec/45_load_store.md` R360). -/
def offS16 {w : Nat} (f : BitVec w) (k : Nat) : Word := (f.setWidth 16 <<< k).signExtend 32

/-- `(f << k)[31:0]`: letters i (k = 1), w (k = 2), v (k = 3) of the `bw.` forms (R11,
`spec/45_load_store.md` R360). -/
def off32 {w : Nat} (f : BitVec w) (k : Nat) : Word := f.setWidth 32 <<< k

/-- The immediate of `b.movhi`: `I << 16` (`spec/41_logic_move.md` R229). -/
def immHigh (I : BitVec 16) : Word := I ++ 0#16

/-- The offset of an alias branch: `sext_12(U)` or `sext_28(u)` (`spec/43_branch.md` R280). -/
def branchOffset : BranchOff → Word
  | .bg U => immS U
  | .bw u => immS u

/-- The length class of an alias branch: that of the form it is written for (`spec/30_encoding.md` R129). -/
def branchLen : BranchOff → LenClass
  | .bg _ => .bg
  | .bw _ => .bw

/-- The effective address `(x[rA] + off)[31:0]` (`spec/45_load_store.md` R360). -/
def effAddr (s : State) (rA : RegNum) (off : Word) : Word := s.reg rA + off

/-- A pc-relative address `(pc + I)[31:0]` (`spec/20_memory.md` R69, `spec/44_jump_call.md` R330). -/
def pcRel (s : State) (I : Word) : Word := s.pc + I

/-- The shift amount of the register forms: `x[rB][4:0]` (`spec/41_logic_move.md` R209). -/
def shiftAmount (v : Word) : Nat := (v.extractLsb' 0 5).toNat

/-- The table `N = (2, 3, 4, 8)` of `spec/45_load_store.md` R374. -/
def wordCount (C : BitVec 2) : Nat :=
  match C with
  | 0#2 => 2
  | 1#2 => 3
  | 2#2 => 4
  | _ => 8

/-- The addresses of `n` consecutive words from `base` (`spec/45_load_store.md` R374). -/
def wordAddrs (base : Word) (n : Nat) : List Word := (List.range n).map fun i => addrAt base (4 * i)

/-- The values of `n` consecutive registers from `r`. -/
def regValues (s : State) (r : RegNum) (n : Nat) : List Word :=
  (List.range n).map fun i => s.reg (r + BitVec.ofNat 5 i)

/-- Whether the list of `n` registers from `r` leaves the register file (`spec/45_load_store.md` R374,
`spec/44_jump_call.md` R342). -/
def pastLastReg (r : RegNum) (n : Nat) : Bool := decide (r.toNat + n > 32)

/-- Whether register `a` is in the list of `n` registers from `r` (`spec/45_load_store.md` R374). -/
def inRegList (a r : RegNum) (n : Nat) : Bool := decide (r.toNat ≤ a.toNat) && decide (a.toNat < r.toNat + n)

/-- The address at which `b.entri` stores register r(9+i): `S - 4*(i+1)` (`spec/44_jump_call.md` R339). -/
def saveAddr (S : Word) (i : Nat) : Word := S - BitVec.ofNat 32 (4 * (i + 1))

/-- The address from which `b.reti I,J` and `b.rtnei I,J` load register r(9+i): `S + 4*(I-i-1+J)`
(`spec/44_jump_call.md` R340). -/
def restoreAddr (S : Word) (I J i : Nat) : Word := S + BitVec.ofNat 32 (4 * (I - i - 1 + J))

/-- The size in bytes of the frame of `b.entri I,J`: `4*(I+J)` (`spec/44_jump_call.md` R342). -/
def frameSize (I J : Nat) : Word := BitVec.ofNat 32 (4 * (I + J))

/-! ### Special-purpose registers -/

/-- The special-purpose registers by name: the six of `spec/10_state.md` R40, and the platform's own by
number. -/
inductive SprName where
  | sr | esr | epcr | machi | maclo | ur
  | platform (n : Word)
  deriving DecidableEq, Repr

/-- The register that a number addresses, if any (`spec/10_state.md` R40). -/
def sprOf (s : State) (n : Word) : Option SprName :=
  let a := s.params.sprAddr
  if a.sr = some n then some .sr
  else if a.esr = some n then some .esr
  else if a.epcr = some n then some .epcr
  else if a.machi = some n then some .machi
  else if a.maclo = some n then some .maclo
  else if a.ur = some n then some .ur
  else if s.extraSpr.any (fun e => e.1 == n) then some (.platform n)
  else none

/-- The value of the platform's register `n`. -/
def extraRead : List (Word × Word) → Word → Word
  | [], _ => 0
  | (k, v) :: l, n => if k = n then v else extraRead l n

/-- The platform's registers after a write of register `n`. -/
def extraWrite : List (Word × Word) → Word → Word → List (Word × Word)
  | [], _, _ => []
  | (k, v) :: l, n, x => if k = n then (k, x) :: l else (k, v) :: extraWrite l n x

/-- The read of a mapped special-purpose register (`spec/10_state.md` R41). -/
def readSpr (s : State) : SprName → Word
  | .sr => s.sr
  | .esr => s.esr
  | .epcr => s.epcr
  | .machi => s.machi
  | .maclo => s.maclo
  | .ur => s.ur
  | .platform n => extraRead s.extraSpr n

/-- The write of all 32 bits of a mapped special-purpose register (`spec/10_state.md` R41). -/
def writeSpr (s : State) (r : SprName) (v : Word) : State :=
  match r with
  | .sr => s.setSr v
  | .esr => s.setEsr v
  | .epcr => s.setEpcr v
  | .machi => s.setMachi v
  | .maclo => s.setMaclo v
  | .ur => s.setUr v
  | .platform n => s.setExtraSpr (extraWrite s.extraSpr n v)

/-! ### Lengths -/

/-- The length class of a form: its prefix's (`spec/30_encoding.md` R90), the parameter LEN_OF for the
nine mnemonics of R122, and that of the target for an alias. -/
def lenClass (p : Params) : Instr → LenClass
  | .btAddi .. | .btNop .. | .btTrap .. | .btMov .. | .btRfe | .btEi | .btDi | .btAdd ..
  | .btMovi .. | .btJ .. => .bt
  | .bnOr .. | .bnXor .. | .bnNand .. | .bnSub .. | .bnSll .. | .bnSrl .. | .bnSra ..
  | .bnRor .. | .bnCmov .. | .bnMul .. | .bnDiv .. | .bnDivu .. | .bnAddc .. | .bnSubb ..
  | .bnFlb .. | .bnMulh .. | .bnMod .. | .bnCmpxchg .. | .fnAddS .. | .fnSubS .. | .fnMulS ..
  | .fnDivS .. | .bnAdds .. | .bnSlli .. | .bnSrli .. | .bnSrai .. | .bnRori .. | .bnExtbz ..
  | .bnExtbs .. | .bnExthz .. | .bnExths .. | .bnFf1 .. | .bnClz .. | .bnSwab .. | .fnFtoiS ..
  | .fnItofS .. | .bnAadd .. | .bnAdd .. | .bnAddi .. | .bnAnd .. | .bnAndi .. | .bnBc ..
  | .bnBeqi .. | .bnBf .. | .bnBgesi .. | .bnBgtsi .. | .bnBitrev .. | .bnBlesi .. | .bnBltsi ..
  | .bnBnc .. | .bnBnei .. | .bnBnf .. | .bnBno .. | .bnBo .. | .bnEntri .. | .bnJ ..
  | .bnJal .. | .bnJr .. | .bnLbz .. | .bnLd .. | .bnLhz .. | .bnLws .. | .bnLwz .. | .bnMlwz ..
  | .bnModu .. | .bnMsw .. | .bnOri .. | .bnReti .. | .bnReturn | .bnRtnei .. | .bnSb ..
  | .bnSd .. | .bnSfeq .. | .bnSfeqi .. | .bnSfgesi .. | .bnSfgeui .. | .bnSfgts ..
  | .bnSfgtsi .. | .bnSfgtu .. | .bnSfgtui .. | .bnSflesi .. | .bnSfleui .. | .bnSfltsi ..
  | .bnSfltui .. | .bnSfne .. | .bnSfnei .. | .bnSh .. | .bnSw .. | .bNot .. | .bCov
  | .bSflts .. | .bSfltu .. => .bn
  | .bgAddi .. | .bgBeq .. | .bgBeqi .. | .bgBf .. | .bgBges .. | .bgBgesi .. | .bgBgeu ..
  | .bgBgeui .. | .bgBgts .. | .bgBgtsi .. | .bgBgtu .. | .bgBgtui .. | .bgBlesi ..
  | .bgBleui .. | .bgBltsi .. | .bgBltui .. | .bgBne .. | .bgBnei .. | .bgBnf .. | .bgJ ..
  | .bgJal .. | .bgLbz .. | .bgLd .. | .bgLhz .. | .bgLws .. | .bgLwz .. | .bgSb .. | .bgSd ..
  | .bgSh .. | .bgSw .. | .fgBeqS .. | .fgBgeS .. | .fgBgtS .. | .fgBneS .. => .bg
  | .bwAddci .. | .bwAddi .. | .bwAndi .. | .bwBeq .. | .bwBeqi .. | .bwBf .. | .bwBges ..
  | .bwBgesi .. | .bwBgeu .. | .bwBgeui .. | .bwBgts .. | .bwBgtsi .. | .bwBgtu .. | .bwBgtui ..
  | .bwBlesi .. | .bwBleui .. | .bwBltsi .. | .bwBltui .. | .bwBne .. | .bwBnei .. | .bwBnf ..
  | .bwDivi .. | .bwDivui .. | .bwJ .. | .bwJa .. | .bwJal .. | .bwJma .. | .bwJmal ..
  | .bwLbz .. | .bwLd .. | .bwLhz .. | .bwLma .. | .bwLws .. | .bwLwz .. | .bwMfspr ..
  | .bwMtspr .. | .bwMuli .. | .bwOri .. | .bwSb .. | .bwSd .. | .bwSfeqi .. | .bwSfgesi ..
  | .bwSfgeui .. | .bwSfgtsi .. | .bwSfgtui .. | .bwSflesi .. | .bwSfleui .. | .bwSfltsi ..
  | .bwSfltui .. | .bwSfnei .. | .bwSh .. | .bwSma .. | .bwSw .. | .bwXori .. | .fwBeqS ..
  | .fwBgeS .. | .fwBgtS .. | .fwBneS .. | .bAddic .. | .bMovhi .. | .fAbsS .. => .bw
  | .bJalr .. => p.lenOf.jalr
  | .bMac .. => p.lenOf.mac
  | .bMacs .. => p.lenOf.macs
  | .bSys .. => p.lenOf.sys
  | .bSubs .. => p.lenOf.subs
  | .bSfges .. => p.lenOf.sfges
  | .bSfgeu .. => p.lenOf.sfgeu
  | .bSfles .. => p.lenOf.sfles
  | .bSfleu .. => p.lenOf.sfleu
  | .bBles _ _ off => branchLen off
  | .bBleu _ _ off => branchLen off
  | .bBlts _ _ off => branchLen off
  | .bBltu _ _ off => branchLen off
  | .fBleS _ _ off => branchLen off
  | .fBltS _ _ off => branchLen off

/-- The length in bytes of a form. -/
def instrLen (p : Params) (i : Instr) : Nat := (lenClass p i).bytes

end Sys2Proof.Machine
end

