-- ==== Sys2Proof/Machine/Arith.lean ====
section
/-! DEFINITION. Integer arithmetic (`spec/40_arith.md`): the shared operations first, then one meaning per
instruction form in the order of the rules. Operands are converted to integers, computed exactly and
narrowed at the end. -/

namespace Sys2Proof.Machine

/-- An instruction that needs SR.CY: refused in a configuration without it (`spec/10_state.md` R29). -/
def withCarry (k : Result) : Result := if Config.hasCy then k else .refused .noCarry

/-- `x[rD] <- (a + b + c)[31:0]` with OV and CY of the sum (R152 to R156). -/
def addFlags (len : LenClass) (rD : RegNum) (a b : Word) (c : Bool) (s : State) : Result :=
  .next (((s.setReg rD (a + b + bitWord c)).setOvCy (ovfAdd a b c) (carryAdd a b c)).advance len)

/-- `x[rD] <- (a - (b + c))[31:0]` with OV and the borrow in CY (R158, R159). -/
def subFlags (len : LenClass) (rD : RegNum) (a b : Word) (c : Bool) (s : State) : Result :=
  .next (((s.setReg rD (a - (b + bitWord c))).setOvCy (ovfSub a b c) (borrowSub a b c)).advance len)

/-- The saturated sum: OV is sticky, CY is the carry of the plain sum (R157, R151). -/
def addSat (len : LenClass) (rD : RegNum) (a b : Word) (s : State) : Result :=
  let x := a.toInt + b.toInt
  .next (((s.setReg rD (clamp32 x)).setOvCy (s.flagOv || outside32 x) (carryAdd a b false)).advance len)

/-- The saturated difference: OV is sticky, CY is the borrow of the plain difference (R160, R151). -/
def subSat (len : LenClass) (rD : RegNum) (a b : Word) (s : State) : Result :=
  let x := a.toInt - b.toInt
  .next (((s.setReg rD (clamp32 x)).setOvCy (s.flagOv || outside32 x) (borrowSub a b false)).advance len)

/-- The low half of the signed product; OV where it does not fit, CY a free bit (R161, R163). -/
def mulFlags (len : LenClass) (rD : RegNum) (a b : Word) (s : State) : Result :=
  let p := a.toInt * b.toInt
  .next ((((s.setReg rD (BitVec.ofInt 32 p)).setOvCy (outside32 p) s.anyBit).drawn).advance len)

/-- `p[63:32]` of the signed product (R162). -/
def mulHigh (a b : Word) : Word := (BitVec.ofInt 64 (a.toInt * b.toInt)).extractLsb' 32 32

/-- The end of an undefined division: result and OV are free values (R172). -/
def divUndefined (len : LenClass) (rD : RegNum) (cy : Bool) (s : State) : Result :=
  .next ((((s.setReg rD s.anyWord).setOvCy s.anyBit cy).drawn).advance len)

/-- The end of a defined division (R172). -/
def divDefined (len : LenClass) (rD : RegNum) (v : Word) (s : State) : Result :=
  .next (((s.setReg rD v).setOvCy false false).advance len)

/-- Signed division, truncating toward zero (R164, R165, R172). -/
def divSigned (len : LenClass) (rD : RegNum) (a b : Word) (s : State) : Result :=
  if b = 0 then divUndefined len rD true s
  else if a = intMin ∧ b = BitVec.allOnes 32 then divUndefined len rD false s
  else divDefined len rD (BitVec.ofInt 32 (a.toInt.tdiv b.toInt)) s

/-- Unsigned division (R166, R167, R172). -/
def divUnsigned (len : LenClass) (rD : RegNum) (a b : Word) (s : State) : Result :=
  if b = 0 then divUndefined len rD true s
  else divDefined len rD (BitVec.ofNat 32 (a.toNat / b.toNat)) s

/-- A free result with no flag written (R168, R169). -/
def modUndefined (len : LenClass) (rD : RegNum) (s : State) : Result :=
  .next (((s.setReg rD s.anyWord).drawn).advance len)

/-- Signed remainder with the dividend's sign (R168, R172). -/
def modSigned (len : LenClass) (rD : RegNum) (a b : Word) (s : State) : Result :=
  if b = 0 ∨ (a = intMin ∧ b = BitVec.allOnes 32) then modUndefined len rD s
  else writeBack len rD (BitVec.ofInt 32 (a.toInt - a.toInt.tdiv b.toInt * b.toInt)) s

/-- Unsigned remainder (R169). -/
def modUnsigned (len : LenClass) (rD : RegNum) (a b : Word) (s : State) : Result :=
  if b = 0 then modUndefined len rD s else writeBack len rD (BitVec.ofNat 32 (a.toNat % b.toNat)) s

/-- The accumulation modulo 2^64 (R170). -/
def macWrap (len : LenClass) (a b : Word) (s : State) : Result :=
  let t := a.toInt * b.toInt
  let x := t + s.mac.toInt
  .next (((s.setMac (wrap64 x)).setMacFlags x (carryMac t s.mac)).advance len)

/-- The accumulation clamped to the signed 64-bit range (R171). -/
def macClamp (len : LenClass) (a b : Word) (s : State) : Result :=
  let t := a.toInt * b.toInt
  let x := t + s.mac.toInt
  .next (((s.setMac (clamp64 x)).setMacFlags x (carryMac t s.mac)).advance len)

/-- `bt.add rD,rA` (R152). -/
def execBtAdd (rD rA : RegNum) (s : State) : Result := addFlags .bt rD (s.reg rD) (s.reg rA) false s

/-- `bn.add rD,rA,rB` (R152). -/
def execBnAdd (rD rA rB : RegNum) (s : State) : Result := addFlags .bn rD (s.reg rA) (s.reg rB) false s

/-- `bn.addc rD,rA,rB` (R153). -/
def execBnAddc (rD rA rB : RegNum) (s : State) : Result :=
  withCarry (addFlags .bn rD (s.reg rA) (s.reg rB) s.flagCy s)

/-- `bw.addci rD,rA,p` (R154). -/
def execBwAddci (rD rA : RegNum) (p : BitVec 24) (s : State) : Result :=
  withCarry (addFlags .bw rD (s.reg rA) (immS p) s.flagCy s)

/-- `b.addic rD,rA,I`, written for `bw.addci rD,rA,p` (R155). -/
def execBAddic (rD rA : RegNum) (p : BitVec 24) (s : State) : Result :=
  withCarry (addFlags .bw rD (s.reg rA) (immS p) s.flagCy s)

/-- `bt.addi rD,G` (R156). -/
def execBtAddi (rD : RegNum) (G : BitVec 4) (s : State) : Result :=
  addFlags .bt rD (s.reg rD) (immS G) false s

/-- `bn.addi rD,rA,O` (R156). -/
def execBnAddi (rD rA : RegNum) (O : BitVec 8) (s : State) : Result :=
  addFlags .bn rD (s.reg rA) (immS O) false s

/-- `bg.addi rD,rA,Y` (R156). -/
def execBgAddi (rD rA : RegNum) (Y : BitVec 16) (s : State) : Result :=
  addFlags .bg rD (s.reg rA) (immS Y) false s

/-- `bw.addi rD,rA,g` (R156). -/
def execBwAddi (rD rA : RegNum) (g : BitVec 32) (s : State) : Result :=
  addFlags .bw rD (s.reg rA) (immZ g) false s

/-- `bn.adds rD,rA,rB` (R157). -/
def execBnAdds (rD rA rB : RegNum) (s : State) : Result := addSat .bn rD (s.reg rA) (s.reg rB) s

/-- `bn.sub rD,rA,rB` (R158). -/
def execBnSub (rD rA rB : RegNum) (s : State) : Result := subFlags .bn rD (s.reg rA) (s.reg rB) false s

/-- `bn.subb rD,rA,rB` (R159). -/
def execBnSubb (rD rA rB : RegNum) (s : State) : Result :=
  withCarry (subFlags .bn rD (s.reg rA) (s.reg rB) s.flagCy s)

/-- `b.subs rD,rA,rB` (R160). -/
def execBSubs (rD rA rB : RegNum) (s : State) : Result :=
  subSat s.params.lenOf.subs rD (s.reg rA) (s.reg rB) s

/-- `bn.mul rD,rA,rB` (R161). -/
def execBnMul (rD rA rB : RegNum) (s : State) : Result := mulFlags .bn rD (s.reg rA) (s.reg rB) s

/-- `bn.mulh rD,rA,rB` (R162). -/
def execBnMulh (rD rA rB : RegNum) (s : State) : Result :=
  writeBack .bn rD (mulHigh (s.reg rA) (s.reg rB)) s

/-- `bw.muli rD,rA,p` (R163). -/
def execBwMuli (rD rA : RegNum) (p : BitVec 24) (s : State) : Result :=
  mulFlags .bw rD (s.reg rA) (immS p) s

/-- `bn.div rD,rA,rB` (R164). -/
def execBnDiv (rD rA rB : RegNum) (s : State) : Result := divSigned .bn rD (s.reg rA) (s.reg rB) s

/-- `bw.divi rD,rA,p` (R165). -/
def execBwDivi (rD rA : RegNum) (p : BitVec 24) (s : State) : Result :=
  divSigned .bw rD (s.reg rA) (immS p) s

/-- `bn.divu rD,rA,rB` (R166). -/
def execBnDivu (rD rA rB : RegNum) (s : State) : Result := divUnsigned .bn rD (s.reg rA) (s.reg rB) s

/-- `bw.divui rD,rA,o` (R167). -/
def execBwDivui (rD rA : RegNum) (o : BitVec 32) (s : State) : Result :=
  divUnsigned .bw rD (s.reg rA) (immZ o) s

/-- `bn.mod rD,rA,rB` (R168). -/
def execBnMod (rD rA rB : RegNum) (s : State) : Result := modSigned .bn rD (s.reg rA) (s.reg rB) s

/-- `bn.modu rD,rA,rB` (R169). -/
def execBnModu (rD rA rB : RegNum) (s : State) : Result := modUnsigned .bn rD (s.reg rA) (s.reg rB) s

/-- `b.mac rA,rB` (R170). -/
def execBMac (rA rB : RegNum) (s : State) : Result := macWrap s.params.lenOf.mac (s.reg rA) (s.reg rB) s

/-- `b.macs rA,rB` (R171). -/
def execBMacs (rA rB : RegNum) (s : State) : Result :=
  macClamp s.params.lenOf.macs (s.reg rA) (s.reg rB) s

end Sys2Proof.Machine
end

