-- ==== Sys2Proof/Machine/Branch.lean ====
section
/-! DEFINITION. The conditional branches (`spec/43_branch.md`). -/

namespace Sys2Proof.Machine

/-- The branch template: to the branch's own address plus `off`, or to the next instruction (R280). -/
def branchIf (len : LenClass) (cond : Bool) (off : Word) (s : State) : Result :=
  .next (if cond then s.setPc (pcRel s off) else s.advance len)

/-- Whether `bn.bno S` clears OV (R287; BNO_CLEARS_OV, `spec/92_eei_decisions.md` D17). -/
def bnoClears (p : Params) (S : BitVec 12) (taken : Bool) : Bool :=
  match p.bnoClearsOv with
  | .onlySEq3 => decide (S = 3)
  | .never => false
  | .alwaysWhenTaken => taken

/-- `bn.bno S`, of which `b.cov` is the case S = 3 (R287, R288). -/
def branchNoOverflow (S : BitVec 12) (s : State) : Result :=
  branchIf .bn (!s.flagOv) (immS S) (if bnoClears s.params S (!s.flagOv) then s.setOv false else s)

/-- `bn.bf S` (R282). -/
def execBnBf (S : BitVec 12) (s : State) : Result := branchIf .bn (s.flagF) (immS S) s

/-- `bg.bf t` (R282). -/
def execBgBf (t : BitVec 24) (s : State) : Result := branchIf .bg (s.flagF) (immS t) s

/-- `bw.bf z` (R282). -/
def execBwBf (z : BitVec 32) (s : State) : Result := branchIf .bw (s.flagF) (immZ z) s

/-- `bn.bnf S` (R283). -/
def execBnBnf (S : BitVec 12) (s : State) : Result := branchIf .bn (!s.flagF) (immS S) s

/-- `bg.bnf t` (R283). -/
def execBgBnf (t : BitVec 24) (s : State) : Result := branchIf .bg (!s.flagF) (immS t) s

/-- `bw.bnf z` (R283). -/
def execBwBnf (z : BitVec 32) (s : State) : Result := branchIf .bw (!s.flagF) (immZ z) s

/-- `bn.bc S` (R284). -/
def execBnBc (S : BitVec 12) (s : State) : Result := withCarry (branchIf .bn s.flagCy (immS S) s)

/-- `bn.bnc S` (R285). -/
def execBnBnc (S : BitVec 12) (s : State) : Result := withCarry (branchIf .bn (!s.flagCy) (immS S) s)

/-- `bn.bo S` (R286). -/
def execBnBo (S : BitVec 12) (s : State) : Result := branchIf .bn s.flagOv (immS S) s

/-- `bn.bno S` (R287). -/
def execBnBno (S : BitVec 12) (s : State) : Result := branchNoOverflow S s

/-- `b.cov`, written for `bn.bno 3` (R288). -/
def execBCov (s : State) : Result := branchNoOverflow 3 s

/-- `bg.beq rA,rB,U` (R289). -/
def execBgBeq (rA rB : RegNum) (U : BitVec 12) (s : State) : Result :=
  branchIf .bg (Rel.holds .eq (s.reg rA) (s.reg rB)) (immS U) s

/-- `bw.beq rA,rB,u` (R289). -/
def execBwBeq (rA rB : RegNum) (u : BitVec 28) (s : State) : Result :=
  branchIf .bw (Rel.holds .eq (s.reg rA) (s.reg rB)) (immS u) s

/-- `bg.bne rA,rB,U` (R290). -/
def execBgBne (rA rB : RegNum) (U : BitVec 12) (s : State) : Result :=
  branchIf .bg (Rel.holds .ne (s.reg rA) (s.reg rB)) (immS U) s

/-- `bw.bne rA,rB,u` (R290). -/
def execBwBne (rA rB : RegNum) (u : BitVec 28) (s : State) : Result :=
  branchIf .bw (Rel.holds .ne (s.reg rA) (s.reg rB)) (immS u) s

/-- `bg.bges rA,rB,U` (R291). -/
def execBgBges (rA rB : RegNum) (U : BitVec 12) (s : State) : Result :=
  branchIf .bg (Rel.holds .ges (s.reg rA) (s.reg rB)) (immS U) s

/-- `bw.bges rA,rB,u` (R291). -/
def execBwBges (rA rB : RegNum) (u : BitVec 28) (s : State) : Result :=
  branchIf .bw (Rel.holds .ges (s.reg rA) (s.reg rB)) (immS u) s

/-- `bg.bgeu rA,rB,U` (R292). -/
def execBgBgeu (rA rB : RegNum) (U : BitVec 12) (s : State) : Result :=
  branchIf .bg (Rel.holds .geu (s.reg rA) (s.reg rB)) (immS U) s

/-- `bw.bgeu rA,rB,u` (R292). -/
def execBwBgeu (rA rB : RegNum) (u : BitVec 28) (s : State) : Result :=
  branchIf .bw (Rel.holds .geu (s.reg rA) (s.reg rB)) (immS u) s

/-- `bg.bgts rA,rB,U` (R293). -/
def execBgBgts (rA rB : RegNum) (U : BitVec 12) (s : State) : Result :=
  branchIf .bg (Rel.holds .gts (s.reg rA) (s.reg rB)) (immS U) s

/-- `bw.bgts rA,rB,u` (R293). -/
def execBwBgts (rA rB : RegNum) (u : BitVec 28) (s : State) : Result :=
  branchIf .bw (Rel.holds .gts (s.reg rA) (s.reg rB)) (immS u) s

/-- `bg.bgtu rA,rB,U` (R294). -/
def execBgBgtu (rA rB : RegNum) (U : BitVec 12) (s : State) : Result :=
  branchIf .bg (Rel.holds .gtu (s.reg rA) (s.reg rB)) (immS U) s

/-- `bw.bgtu rA,rB,u` (R294). -/
def execBwBgtu (rA rB : RegNum) (u : BitVec 28) (s : State) : Result :=
  branchIf .bw (Rel.holds .gtu (s.reg rA) (s.reg rB)) (immS u) s

/-- `b.bles rA,rB,I`, written for `bg.bges / bw.bges rB,rA,I` (R295). -/
def execBBles (rA rB : RegNum) (off : BranchOff) (s : State) : Result :=
  branchIf (branchLen off) (Rel.holds .ges (s.reg rB) (s.reg rA)) (branchOffset off) s

/-- `b.bleu rA,rB,I`, written for `bg.bgeu / bw.bgeu rB,rA,I` (R296). -/
def execBBleu (rA rB : RegNum) (off : BranchOff) (s : State) : Result :=
  branchIf (branchLen off) (Rel.holds .geu (s.reg rB) (s.reg rA)) (branchOffset off) s

/-- `b.blts rA,rB,I`, written for `bg.bgts / bw.bgts rB,rA,I` (R297). -/
def execBBlts (rA rB : RegNum) (off : BranchOff) (s : State) : Result :=
  branchIf (branchLen off) (Rel.holds .gts (s.reg rB) (s.reg rA)) (branchOffset off) s

/-- `b.bltu rA,rB,I`, written for `bg.bgtu / bw.bgtu rB,rA,I` (R298). -/
def execBBltu (rA rB : RegNum) (off : BranchOff) (s : State) : Result :=
  branchIf (branchLen off) (Rel.holds .gtu (s.reg rB) (s.reg rA)) (branchOffset off) s

/-- `bn.beqi rB,E,P` (R299). -/
def execBnBeqi (rB : RegNum) (E : BitVec 5) (P : BitVec 8) (s : State) : Result :=
  branchIf .bn (Rel.holds .eq (s.reg rB) (immZ E)) (immS P) s

/-- `bg.beqi rB,I,U` (R299). -/
def execBgBeqi (rB : RegNum) (I : BitVec 5) (U : BitVec 12) (s : State) : Result :=
  branchIf .bg (Rel.holds .eq (s.reg rB) (immS I)) (immS U) s

/-- `bw.beqi rB,I,u` (R299). -/
def execBwBeqi (rB : RegNum) (I : BitVec 5) (u : BitVec 28) (s : State) : Result :=
  branchIf .bw (Rel.holds .eq (s.reg rB) (immS I)) (immS u) s

/-- `bn.bnei rB,E,P` (R300). -/
def execBnBnei (rB : RegNum) (E : BitVec 5) (P : BitVec 8) (s : State) : Result :=
  branchIf .bn (Rel.holds .ne (s.reg rB) (immZ E)) (immS P) s

/-- `bg.bnei rB,I,U` (R300). -/
def execBgBnei (rB : RegNum) (I : BitVec 5) (U : BitVec 12) (s : State) : Result :=
  branchIf .bg (Rel.holds .ne (s.reg rB) (immS I)) (immS U) s

/-- `bw.bnei rB,I,u` (R300). -/
def execBwBnei (rB : RegNum) (I : BitVec 5) (u : BitVec 28) (s : State) : Result :=
  branchIf .bw (Rel.holds .ne (s.reg rB) (immS I)) (immS u) s

/-- `bn.bgesi rB,E,P` (R301). -/
def execBnBgesi (rB : RegNum) (E : BitVec 5) (P : BitVec 8) (s : State) : Result :=
  branchIf .bn (Rel.holds .ges (s.reg rB) (immZ E)) (immS P) s

/-- `bg.bgesi rB,I,U` (R301). -/
def execBgBgesi (rB : RegNum) (I : BitVec 5) (U : BitVec 12) (s : State) : Result :=
  branchIf .bg (Rel.holds .ges (s.reg rB) (immS I)) (immS U) s

/-- `bw.bgesi rB,I,u` (R301). -/
def execBwBgesi (rB : RegNum) (I : BitVec 5) (u : BitVec 28) (s : State) : Result :=
  branchIf .bw (Rel.holds .ges (s.reg rB) (immS I)) (immS u) s

/-- `bg.bgeui rB,I,U` (R305). -/
def execBgBgeui (rB : RegNum) (I : BitVec 5) (U : BitVec 12) (s : State) : Result :=
  branchIf .bg (Rel.holds .geu (s.reg rB) (immS I)) (immS U) s

/-- `bw.bgeui rB,I,u` (R305). -/
def execBwBgeui (rB : RegNum) (I : BitVec 5) (u : BitVec 28) (s : State) : Result :=
  branchIf .bw (Rel.holds .geu (s.reg rB) (immS I)) (immS u) s

/-- `bn.bgtsi rB,E,P` (R302). -/
def execBnBgtsi (rB : RegNum) (E : BitVec 5) (P : BitVec 8) (s : State) : Result :=
  branchIf .bn (Rel.holds .gts (s.reg rB) (immZ E)) (immS P) s

/-- `bg.bgtsi rB,I,U` (R302). -/
def execBgBgtsi (rB : RegNum) (I : BitVec 5) (U : BitVec 12) (s : State) : Result :=
  branchIf .bg (Rel.holds .gts (s.reg rB) (immS I)) (immS U) s

/-- `bw.bgtsi rB,I,u` (R302). -/
def execBwBgtsi (rB : RegNum) (I : BitVec 5) (u : BitVec 28) (s : State) : Result :=
  branchIf .bw (Rel.holds .gts (s.reg rB) (immS I)) (immS u) s

/-- `bg.bgtui rB,I,U` (R306). -/
def execBgBgtui (rB : RegNum) (I : BitVec 5) (U : BitVec 12) (s : State) : Result :=
  branchIf .bg (Rel.holds .gtu (s.reg rB) (immS I)) (immS U) s

/-- `bw.bgtui rB,I,u` (R306). -/
def execBwBgtui (rB : RegNum) (I : BitVec 5) (u : BitVec 28) (s : State) : Result :=
  branchIf .bw (Rel.holds .gtu (s.reg rB) (immS I)) (immS u) s

/-- `bn.blesi rB,E,P` (R303). -/
def execBnBlesi (rB : RegNum) (E : BitVec 5) (P : BitVec 8) (s : State) : Result :=
  branchIf .bn (Rel.holds .les (s.reg rB) (immZ E)) (immS P) s

/-- `bg.blesi rB,I,U` (R303). -/
def execBgBlesi (rB : RegNum) (I : BitVec 5) (U : BitVec 12) (s : State) : Result :=
  branchIf .bg (Rel.holds .les (s.reg rB) (immS I)) (immS U) s

/-- `bw.blesi rB,I,u` (R303). -/
def execBwBlesi (rB : RegNum) (I : BitVec 5) (u : BitVec 28) (s : State) : Result :=
  branchIf .bw (Rel.holds .les (s.reg rB) (immS I)) (immS u) s

/-- `bg.bleui rB,I,U` (R307). -/
def execBgBleui (rB : RegNum) (I : BitVec 5) (U : BitVec 12) (s : State) : Result :=
  branchIf .bg (Rel.holds .leu (s.reg rB) (immS I)) (immS U) s

/-- `bw.bleui rB,I,u` (R307). -/
def execBwBleui (rB : RegNum) (I : BitVec 5) (u : BitVec 28) (s : State) : Result :=
  branchIf .bw (Rel.holds .leu (s.reg rB) (immS I)) (immS u) s

/-- `bn.bltsi rB,E,P` (R304). -/
def execBnBltsi (rB : RegNum) (E : BitVec 5) (P : BitVec 8) (s : State) : Result :=
  branchIf .bn (Rel.holds .lts (s.reg rB) (immZ E)) (immS P) s

/-- `bg.bltsi rB,I,U` (R304). -/
def execBgBltsi (rB : RegNum) (I : BitVec 5) (U : BitVec 12) (s : State) : Result :=
  branchIf .bg (Rel.holds .lts (s.reg rB) (immS I)) (immS U) s

/-- `bw.bltsi rB,I,u` (R304). -/
def execBwBltsi (rB : RegNum) (I : BitVec 5) (u : BitVec 28) (s : State) : Result :=
  branchIf .bw (Rel.holds .lts (s.reg rB) (immS I)) (immS u) s

/-- `bg.bltui rB,I,U` (R308). -/
def execBgBltui (rB : RegNum) (I : BitVec 5) (U : BitVec 12) (s : State) : Result :=
  branchIf .bg (Rel.holds .ltu (s.reg rB) (immS I)) (immS U) s

/-- `bw.bltui rB,I,u` (R308). -/
def execBwBltui (rB : RegNum) (I : BitVec 5) (u : BitVec 28) (s : State) : Result :=
  branchIf .bw (Rel.holds .ltu (s.reg rB) (immS I)) (immS u) s

end Sys2Proof.Machine
end

