-- ==== Sys2Proof/Machine/Compare.lean ====
section
/-! DEFINITION. The set-flag compares (`spec/42_compare.md`): each assigns SR.F and nothing else (R250). -/

namespace Sys2Proof.Machine

/-- `SR.F <- (a rel b)` (R250). -/
def setFlag (len : LenClass) (rel : Rel) (a b : Word) (s : State) : Result :=
  .next ((s.setF (rel.holds a b)).advance len)

/-- `bn.sfeq rA,rB` (R251). -/
def execBnSfeq (rA rB : RegNum) (s : State) : Result := setFlag .bn .eq (s.reg rA) (s.reg rB) s

/-- `bn.sfeqi rA,O` (R252). -/
def execBnSfeqi (rA : RegNum) (O : BitVec 8) (s : State) : Result :=
  setFlag .bn .eq (s.reg rA) (immS O) s

/-- `bw.sfeqi rA,g` (R252). -/
def execBwSfeqi (rA : RegNum) (g : BitVec 32) (s : State) : Result :=
  setFlag .bw .eq (s.reg rA) (immZ g) s

/-- `bn.sfne rA,rB` (R253). -/
def execBnSfne (rA rB : RegNum) (s : State) : Result := setFlag .bn .ne (s.reg rA) (s.reg rB) s

/-- `bn.sfnei rA,O` (R254). -/
def execBnSfnei (rA : RegNum) (O : BitVec 8) (s : State) : Result :=
  setFlag .bn .ne (s.reg rA) (immS O) s

/-- `bw.sfnei rA,g` (R254). -/
def execBwSfnei (rA : RegNum) (g : BitVec 32) (s : State) : Result :=
  setFlag .bw .ne (s.reg rA) (immZ g) s

/-- `b.sfges rA,rB` (R255). -/
def execBSfges (rA rB : RegNum) (s : State) : Result :=
  setFlag s.params.lenOf.sfges .ges (s.reg rA) (s.reg rB) s

/-- `bn.sfgesi rA,O` (R256). -/
def execBnSfgesi (rA : RegNum) (O : BitVec 8) (s : State) : Result :=
  setFlag .bn .ges (s.reg rA) (immS O) s

/-- `bw.sfgesi rA,g` (R256). -/
def execBwSfgesi (rA : RegNum) (g : BitVec 32) (s : State) : Result :=
  setFlag .bw .ges (s.reg rA) (immZ g) s

/-- `b.sfgeu rA,rB` (R257). -/
def execBSfgeu (rA rB : RegNum) (s : State) : Result :=
  setFlag s.params.lenOf.sfgeu .geu (s.reg rA) (s.reg rB) s

/-- `bn.sfgeui rA,O` (R258). -/
def execBnSfgeui (rA : RegNum) (O : BitVec 8) (s : State) : Result :=
  setFlag .bn .geu (s.reg rA) (immS O) s

/-- `bw.sfgeui rA,g` (R258). -/
def execBwSfgeui (rA : RegNum) (g : BitVec 32) (s : State) : Result :=
  setFlag .bw .geu (s.reg rA) (immZ g) s

/-- `bn.sfgts rA,rB` (R259). -/
def execBnSfgts (rA rB : RegNum) (s : State) : Result := setFlag .bn .gts (s.reg rA) (s.reg rB) s

/-- `bn.sfgtsi rA,O` (R260). -/
def execBnSfgtsi (rA : RegNum) (O : BitVec 8) (s : State) : Result :=
  setFlag .bn .gts (s.reg rA) (immS O) s

/-- `bw.sfgtsi rA,g` (R260). -/
def execBwSfgtsi (rA : RegNum) (g : BitVec 32) (s : State) : Result :=
  setFlag .bw .gts (s.reg rA) (immZ g) s

/-- `bn.sfgtu rA,rB` (R261). -/
def execBnSfgtu (rA rB : RegNum) (s : State) : Result := setFlag .bn .gtu (s.reg rA) (s.reg rB) s

/-- `bn.sfgtui rA,O` (R262). -/
def execBnSfgtui (rA : RegNum) (O : BitVec 8) (s : State) : Result :=
  setFlag .bn .gtu (s.reg rA) (immS O) s

/-- `bw.sfgtui rA,g` (R262). -/
def execBwSfgtui (rA : RegNum) (g : BitVec 32) (s : State) : Result :=
  setFlag .bw .gtu (s.reg rA) (immZ g) s

/-- `b.sfles rA,rB` (R263). -/
def execBSfles (rA rB : RegNum) (s : State) : Result :=
  setFlag s.params.lenOf.sfles .les (s.reg rA) (s.reg rB) s

/-- `bn.sflesi rA,O` (R264). -/
def execBnSflesi (rA : RegNum) (O : BitVec 8) (s : State) : Result :=
  setFlag .bn .les (s.reg rA) (immS O) s

/-- `bw.sflesi rA,g` (R264). -/
def execBwSflesi (rA : RegNum) (g : BitVec 32) (s : State) : Result :=
  setFlag .bw .les (s.reg rA) (immZ g) s

/-- `b.sfleu rA,rB` (R265). -/
def execBSfleu (rA rB : RegNum) (s : State) : Result :=
  setFlag s.params.lenOf.sfleu .leu (s.reg rA) (s.reg rB) s

/-- `bn.sfleui rA,O` (R266). -/
def execBnSfleui (rA : RegNum) (O : BitVec 8) (s : State) : Result :=
  setFlag .bn .leu (s.reg rA) (immS O) s

/-- `bw.sfleui rA,g` (R266). -/
def execBwSfleui (rA : RegNum) (g : BitVec 32) (s : State) : Result :=
  setFlag .bw .leu (s.reg rA) (immZ g) s

/-- `b.sflts rA,rB`, written for `bn.sfgts rB,rA` (R267). -/
def execBSflts (rA rB : RegNum) (s : State) : Result := setFlag .bn .gts (s.reg rB) (s.reg rA) s

/-- `bn.sfltsi rA,O` (R268). -/
def execBnSfltsi (rA : RegNum) (O : BitVec 8) (s : State) : Result :=
  setFlag .bn .lts (s.reg rA) (immS O) s

/-- `bw.sfltsi rA,g` (R268). -/
def execBwSfltsi (rA : RegNum) (g : BitVec 32) (s : State) : Result :=
  setFlag .bw .lts (s.reg rA) (immZ g) s

/-- `b.sfltu rA,rB`, written for `bn.sfgtu rB,rA` (R269). -/
def execBSfltu (rA rB : RegNum) (s : State) : Result := setFlag .bn .gtu (s.reg rB) (s.reg rA) s

/-- `bn.sfltui rA,O` (R270). -/
def execBnSfltui (rA : RegNum) (O : BitVec 8) (s : State) : Result :=
  setFlag .bn .ltu (s.reg rA) (immS O) s

/-- `bw.sfltui rA,g` (R270). -/
def execBwSfltui (rA : RegNum) (g : BitVec 32) (s : State) : Result :=
  setFlag .bw .ltu (s.reg rA) (immZ g) s

end Sys2Proof.Machine
end

