-- ==== Sys2Proof/Machine/FloatDefault.lean ====
section
/-! DEFINITION. The default instance of the floating-point parameter FP of `spec/47_float.md` R421: IEEE
754-2008 binary32, round to nearest even (toward zero for `ftoi`), denormals, one NaN result. The spec
takes it from general knowledge; it holds only where `Params.fp` is `ieee` (logs 17, 18). Values are
exact integers times a power of two until `fpRound` rounds them once. -/

namespace Sys2Proof.Machine

/-- The sign bit. -/
def fpSign (x : Word) : Bool := x.getLsbD 31

/-- The biased exponent field. -/
def fpExp (x : Word) : Nat := (x.extractLsb' 23 8).toNat

/-- The fraction field. -/
def fpFrac (x : Word) : Nat := (x.extractLsb' 0 23).toNat

/-- A NaN. -/
def fpIsNan (x : Word) : Bool := fpExp x == 255 && fpFrac x != 0

/-- A signaling NaN: the top fraction bit is 0. -/
def fpIsSignaling (x : Word) : Bool := fpIsNan x && !x.getLsbD 22

/-- An infinity. -/
def fpIsInf (x : Word) : Bool := fpExp x == 255 && fpFrac x == 0

/-- A zero. -/
def fpIsZero (x : Word) : Bool := fpExp x == 0 && fpFrac x == 0

/-- The significand of a finite value as an integer. -/
def fpMant (x : Word) : Nat := if fpExp x = 0 then fpFrac x else fpFrac x + 8388608

/-- The weight of the significand's lowest bit: the value is `fpMant x * 2^(fpLsb x)`. -/
def fpLsb (x : Word) : Int := if fpExp x = 0 then -149 else (fpExp x : Int) - 150

/-- A magnitude with its sign bit. -/
def fpPack (sign : Bool) (mag : Nat) : Word := BitVec.ofNat 32 (mag + if sign then 2147483648 else 0)

/-- The infinity of a sign. -/
def fpInfinity (sign : Bool) : Word := fpPack sign 0x7F800000

/-- The one NaN result of R421. -/
def fpDefaultNan : Word := 0x7FC00000#32

/-- No flag raised. -/
def fpNoFlags : FpFlags := { ov := false, un := false, sn := false, qn := false, ix := false, iv := false }

/-- The result of an invalid operation on operands that are no NaN. -/
def fpInvalid : Word × FpFlags := (fpDefaultNan, { fpNoFlags with qn := true, iv := true })

/-- The result where an operand is a NaN; `sn` says whether one of them is signaling. -/
def fpNanResult (sn : Bool) : Word × FpFlags := (fpDefaultNan, { fpNoFlags with sn := sn, qn := true, iv := sn })

/-- Rounding to nearest even of `(m + d) * 2^e`, with `m > 0` and `d` zero, or strictly between 0 and 1
where `sticky`. Tininess is detected before rounding (log 18). -/
def fpRound (sign : Bool) (m : Nat) (e : Int) (sticky : Bool) : Word × FpFlags :=
  let top : Int := e + (m.log2 : Int)
  let q : Int := max (top - 23) (-149)
  let up := (e - q).toNat
  let dn := (q - e).toNat
  let keep := (m <<< up) >>> dn
  let rem := m % 2 ^ dn
  let roundUp := decide (2 * rem > 2 ^ dn) || (decide (2 * rem = 2 ^ dn) && (sticky || keep % 2 == 1))
  let inexact := rem != 0 || sticky
  let mag := (q + 149).toNat * 8388608 + keep + roundUp.toNat
  if mag ≥ 0x7F800000 then (fpInfinity sign, { fpNoFlags with ov := true, ix := true })
  else (fpPack sign mag, { fpNoFlags with un := decide (top < -126) && inexact, ix := inexact })

/-- The signed significand of `x` at the weight `2^e`, for `e` at most `fpLsb x`. -/
def fpScaled (x : Word) (e : Int) : Int :=
  let m : Int := (fpMant x <<< (fpLsb x - e).toNat : Nat)
  if fpSign x then -m else m

/-- `FP.fadd` of the default instance. -/
def ieeeAdd (a b : Word) : Word × FpFlags :=
  if fpIsNan a || fpIsNan b then fpNanResult (fpIsSignaling a || fpIsSignaling b)
  else if fpIsInf a then
    if fpIsInf b && fpSign a != fpSign b then fpInvalid else (fpInfinity (fpSign a), fpNoFlags)
  else if fpIsInf b then (fpInfinity (fpSign b), fpNoFlags)
  else
    let e := min (fpLsb a) (fpLsb b)
    let v := fpScaled a e + fpScaled b e
    if v = 0 then (fpPack (fpSign a && fpSign b) 0, fpNoFlags)
    else fpRound (decide (v < 0)) v.natAbs e false

/-- `FP.fsub` of the default instance: the sum with the second operand's sign reversed. -/
def ieeeSub (a b : Word) : Word × FpFlags := ieeeAdd a (b ^^^ 0x80000000#32)

/-- `FP.fmul` of the default instance. -/
def ieeeMul (a b : Word) : Word × FpFlags :=
  let sign := fpSign a != fpSign b
  if fpIsNan a || fpIsNan b then fpNanResult (fpIsSignaling a || fpIsSignaling b)
  else if fpIsInf a || fpIsInf b then
    if fpIsZero a || fpIsZero b then fpInvalid else (fpInfinity sign, fpNoFlags)
  else if fpIsZero a || fpIsZero b then (fpPack sign 0, fpNoFlags)
  else fpRound sign (fpMant a * fpMant b) (fpLsb a + fpLsb b) false

/-- `FP.fdiv` of the default instance; the last component is the divide-by-zero flag. -/
def ieeeDiv (a b : Word) : Word × FpFlags × Bool :=
  let sign := fpSign a != fpSign b
  if fpIsNan a || fpIsNan b then
    let r := fpNanResult (fpIsSignaling a || fpIsSignaling b)
    (r.1, r.2, false)
  else if (fpIsInf a && fpIsInf b) || (fpIsZero a && fpIsZero b) then (fpInvalid.1, fpInvalid.2, false)
  else if fpIsInf a then (fpInfinity sign, fpNoFlags, false)
  else if fpIsZero b then (fpInfinity sign, fpNoFlags, true)
  else if fpIsZero a || fpIsInf b then (fpPack sign 0, fpNoFlags, false)
  else
    let n := fpMant a <<< 50
    let r := fpRound sign (n / fpMant b) (fpLsb a - fpLsb b - 50) (n % fpMant b != 0)
    (r.1, r.2, false)

/-- `FP.ftoi` of the default instance: toward zero; a NaN or a value out of range is invalid. -/
def ieeeToInt (a : Word) : Word × FpFlags :=
  if fpIsNan a then (intMax, { fpNoFlags with sn := fpIsSignaling a, iv := true })
  else if fpIsInf a then (if fpSign a then intMin else intMax, { fpNoFlags with iv := true })
  else
    let dn := (-fpLsb a).toNat
    let m := (fpMant a <<< (fpLsb a).toNat) >>> dn
    let v : Int := if fpSign a then -(m : Int) else m
    if v > 2147483647 then (intMax, { fpNoFlags with iv := true })
    else if v < -2147483648 then (intMin, { fpNoFlags with iv := true })
    else (BitVec.ofInt 32 v, { fpNoFlags with ix := fpMant a % 2 ^ dn != 0 })

/-- `FP.itof` of the default instance. -/
def ieeeOfInt (a : Word) : Word × FpFlags :=
  if a = 0 then (0, fpNoFlags) else fpRound (decide (a.toInt < 0)) a.toInt.natAbs 0 false

/-- The order of the values that are no NaN, as an integer: both zeros are 0. -/
def fpKey (x : Word) : Int :=
  let mag : Int := (x.extractLsb' 0 31).toNat
  if fpSign x then -mag else mag

/-- `FP.feq` of the default instance. -/
def ieeeEq (a b : Word) : Bool := !fpIsNan a && !fpIsNan b && decide (fpKey a = fpKey b)

/-- `FP.flt` of the default instance. -/
def ieeeLt (a b : Word) : Bool := !fpIsNan a && !fpIsNan b && decide (fpKey a < fpKey b)

/-- `FP.fle` of the default instance. -/
def ieeeLe (a b : Word) : Bool := !fpIsNan a && !fpIsNan b && decide (fpKey a ≤ fpKey b)

/-! ### The parameter FP (R421): the default instance, or the platform's functions -/

/-- `FP.fadd`. -/
def fpAdd (i : FpInstance) : Word → Word → Word × FpFlags :=
  match i with
  | .ieee => ieeeAdd
  | .platform => Config.fadd

/-- `FP.fsub`. -/
def fpSub (i : FpInstance) : Word → Word → Word × FpFlags :=
  match i with
  | .ieee => ieeeSub
  | .platform => Config.fsub

/-- `FP.fmul`. -/
def fpMul (i : FpInstance) : Word → Word → Word × FpFlags :=
  match i with
  | .ieee => ieeeMul
  | .platform => Config.fmul

/-- `FP.fdiv`. -/
def fpDiv (i : FpInstance) : Word → Word → Word × FpFlags × Bool :=
  match i with
  | .ieee => ieeeDiv
  | .platform => Config.fdiv

/-- `FP.ftoi`. -/
def fpToInt (i : FpInstance) : Word → Word × FpFlags :=
  match i with
  | .ieee => ieeeToInt
  | .platform => Config.ftoi

/-- `FP.itof`. -/
def fpOfInt (i : FpInstance) : Word → Word × FpFlags :=
  match i with
  | .ieee => ieeeOfInt
  | .platform => Config.itof

/-- `FP.feq`. -/
def fpEq (i : FpInstance) : Word → Word → Bool :=
  match i with
  | .ieee => ieeeEq
  | .platform => Config.feq

/-- `FP.flt`. -/
def fpLt (i : FpInstance) : Word → Word → Bool :=
  match i with
  | .ieee => ieeeLt
  | .platform => Config.flt

/-- `FP.fle`. -/
def fpLe (i : FpInstance) : Word → Word → Bool :=
  match i with
  | .ieee => ieeeLe
  | .platform => Config.fle

end Sys2Proof.Machine
end

