-- ==== Sys2Proof/Machine/Float.lean ====
section
/-! DEFINITION. Floating point (`spec/47_float.md`): the numerics are the parameter FP (R421), taken from
`Params.fp`. No instruction here writes SR or raises an exception (R422). -/

namespace Sys2Proof.Machine

/-- `x[rD] <- r; UR flags <- fl` (R422 to R425, R427, R428). -/
def floatResult (rD : RegNum) (x : Word × FpFlags) (s : State) : Result :=
  .next (((s.setReg rD x.1).setFpFlags x.2).advance .bn)

/-- `x[rD] <- r; UR flags <- fl; UR.FDZ <- dz` (R426). -/
def floatQuotient (rD : RegNum) (x : Word × FpFlags × Bool) (s : State) : Result :=
  .next ((((s.setReg rD x.1).setFpFlags x.2.1).setFdz x.2.2).advance .bn)

/-- `fn.add.s rD,rA,rB` (R423). -/
def execFnAddS (rD rA rB : RegNum) (s : State) : Result :=
  floatResult rD (fpAdd s.params.fp (s.reg rA) (s.reg rB)) s

/-- `fn.sub.s rD,rA,rB` (R424). -/
def execFnSubS (rD rA rB : RegNum) (s : State) : Result :=
  floatResult rD (fpSub s.params.fp (s.reg rA) (s.reg rB)) s

/-- `fn.mul.s rD,rA,rB` (R425). -/
def execFnMulS (rD rA rB : RegNum) (s : State) : Result :=
  floatResult rD (fpMul s.params.fp (s.reg rA) (s.reg rB)) s

/-- `fn.div.s rD,rA,rB` (R426). -/
def execFnDivS (rD rA rB : RegNum) (s : State) : Result :=
  floatQuotient rD (fpDiv s.params.fp (s.reg rA) (s.reg rB)) s

/-- `fn.ftoi.s rD,rA` (R427). -/
def execFnFtoiS (rD rA : RegNum) (s : State) : Result :=
  floatResult rD (fpToInt s.params.fp (s.reg rA)) s

/-- `fn.itof.s rD,rA` (R428). -/
def execFnItofS (rD rA : RegNum) (s : State) : Result :=
  floatResult rD (fpOfInt s.params.fp (s.reg rA)) s

/-- `f.abs.s rD,rA`, written for `bw.andi rD,rA,0x7FFFFFFF` (R429). -/
def execFAbsS (rD rA : RegNum) (s : State) : Result := writeBack .bw rD (s.reg rA &&& 0x7FFFFFFF#32) s

/-- `fg.beq.s rA,rB,U` (R430). -/
def execFgBeqS (rA rB : RegNum) (U : BitVec 12) (s : State) : Result :=
  branchIf .bg (fpEq s.params.fp (s.reg rA) (s.reg rB)) (immS U) s

/-- `fg.bne.s rA,rB,U` (R431). -/
def execFgBneS (rA rB : RegNum) (U : BitVec 12) (s : State) : Result :=
  branchIf .bg (!fpEq s.params.fp (s.reg rA) (s.reg rB)) (immS U) s

/-- `fg.bge.s rA,rB,U` (R432). -/
def execFgBgeS (rA rB : RegNum) (U : BitVec 12) (s : State) : Result :=
  branchIf .bg (fpLe s.params.fp (s.reg rB) (s.reg rA)) (immS U) s

/-- `fg.bgt.s rA,rB,U` (R433). -/
def execFgBgtS (rA rB : RegNum) (U : BitVec 12) (s : State) : Result :=
  branchIf .bg (fpLt s.params.fp (s.reg rB) (s.reg rA)) (immS U) s

/-- `fw.beq.s rA,rB,u` (R430). -/
def execFwBeqS (rA rB : RegNum) (u : BitVec 28) (s : State) : Result :=
  branchIf .bw (fpEq s.params.fp (s.reg rA) (s.reg rB)) (immS u) s

/-- `fw.bne.s rA,rB,u` (R431). -/
def execFwBneS (rA rB : RegNum) (u : BitVec 28) (s : State) : Result :=
  branchIf .bw (!fpEq s.params.fp (s.reg rA) (s.reg rB)) (immS u) s

/-- `fw.bge.s rA,rB,u` (R432). -/
def execFwBgeS (rA rB : RegNum) (u : BitVec 28) (s : State) : Result :=
  branchIf .bw (fpLe s.params.fp (s.reg rB) (s.reg rA)) (immS u) s

/-- `fw.bgt.s rA,rB,u` (R433). -/
def execFwBgtS (rA rB : RegNum) (u : BitVec 28) (s : State) : Result :=
  branchIf .bw (fpLt s.params.fp (s.reg rB) (s.reg rA)) (immS u) s

/-- `f.ble.s rA,rB,I`, written for `fg.bge.s / fw.bge.s rB,rA,I` (R434). -/
def execFBleS (rA rB : RegNum) (off : BranchOff) (s : State) : Result :=
  branchIf (branchLen off) (fpLe s.params.fp (s.reg rA) (s.reg rB)) (branchOffset off) s

/-- `f.blt.s rA,rB,I`, written for `fg.bgt.s / fw.bgt.s rB,rA,I` (R435). -/
def execFBltS (rA rB : RegNum) (off : BranchOff) (s : State) : Result :=
  branchIf (branchLen off) (fpLt s.params.fp (s.reg rA) (s.reg rB)) (branchOffset off) s

end Sys2Proof.Machine
end

