-- ==== Sys2Proof/Machine/Jump.lean ====
section
/-! DEFINITION. Jumps, calls, returns, prologue and epilogue (`spec/44_jump_call.md`). Sources are read
before any register is written (R330). -/

namespace Sys2Proof.Machine

/-- `pc <- target` (R330). -/
def jumpTo (target : Word) (s : State) : Result := .next (s.setPc target)

/-- `x[9] <- pc + len; pc <- target` (R333, R334). -/
def jumpLink (len : LenClass) (target : Word) (s : State) : Result :=
  .next ((s.setReg linkReg (s.nextPc len)).setPc target)

/-- `x[rD] <- p; pc <- MemRead(p, 4)` (R337). -/
def jumpMemory (rD : RegNum) (p : Word) (s : State) : Result :=
  ((memRead s p 4).bind fun v => .ok ((s.setReg rD p).setPc v)).finish .bw s

/-- `x[rD] <- p; x[9] <- pc + 6; pc <- MemRead(p, 4)`; refused for rD = r9 (R338). -/
def jumpMemoryLink (rD : RegNum) (p : Word) (s : State) : Result :=
  if rD = linkReg then .refused .doubleWrite
  else
    ((memRead s p 4).bind fun v =>
      .ok (((s.setReg rD p).setReg linkReg (s.nextPc .bw)).setPc v)).finish .bw s

/-- The words `b.entri` stores: r(9+i) at `S - 4*(i+1)` (R339). -/
def savedWords (I : Nat) (s : State) : List (Word × Word) :=
  (List.range I).map fun i => (saveAddr (s.reg spReg) i, s.reg (linkReg + BitVec.ofNat 5 i))

/-- `b.entri I,J` (R339, R342). -/
def prologue (I J : Nat) (s : State) : Result :=
  if pastLastReg linkReg I then .refused .registerRange
  else
    ((storeWords (savedWords I s) s).bind fun t =>
      .ok ((t.setReg spReg (s.reg spReg - frameSize I J)).advance .bn)).finish .bn s

/-- The registers after the loads of an epilogue and the release of the frame (R340). -/
def restored (I J : Nat) (s : State) : Access State :=
  (loadWords s ((List.range I).map fun i => restoreAddr (s.reg spReg) I J i)).bind fun vs =>
    .ok ((setRegs vs linkReg s).setReg spReg (s.reg spReg + frameSize I J))

/-- `b.reti I,J`: the epilogue, then `pc <- x[9]` as just restored (R340). -/
def epilogueReturn (I J : Nat) (s : State) : Result :=
  if pastLastReg linkReg I then .refused .registerRange
  else ((restored I J s).bind fun t => .ok (t.setPc (t.reg linkReg))).finish .bn s

/-- `b.rtnei I,J`: the epilogue without the return (R341). -/
def epilogue (I J : Nat) (s : State) : Result :=
  if pastLastReg linkReg I then .refused .registerRange
  else ((restored I J s).bind fun t => .ok (t.advance .bn)).finish .bn s

/-- `bt.j T` (R331). -/
def execBtJ (T : BitVec 10) (s : State) : Result := jumpTo (pcRel s (immS T)) s

/-- `bn.j Z` (R331). -/
def execBnJ (Z : BitVec 16) (s : State) : Result := jumpTo (pcRel s (immS Z)) s

/-- `bg.j t` (R331). -/
def execBgJ (t : BitVec 24) (s : State) : Result := jumpTo (pcRel s (immS t)) s

/-- `bw.j z` (R331). -/
def execBwJ (z : BitVec 32) (s : State) : Result := jumpTo (pcRel s (immZ z)) s

/-- `bw.ja g` (R332). -/
def execBwJa (g : BitVec 32) (s : State) : Result := jumpTo (immZ g) s

/-- `bn.jal s` (R333). -/
def execBnJal (sOff : BitVec 18) (s : State) : Result := jumpLink .bn (pcRel s (immS sOff)) s

/-- `bg.jal t` (R333). -/
def execBgJal (t : BitVec 24) (s : State) : Result := jumpLink .bg (pcRel s (immS t)) s

/-- `bw.jal z` (R333). -/
def execBwJal (z : BitVec 32) (s : State) : Result := jumpLink .bw (pcRel s (immZ z)) s

/-- `b.jalr rA` (R334). -/
def execBJalr (rA : RegNum) (s : State) : Result := jumpLink s.params.lenOf.jalr (s.reg rA) s

/-- `bn.jr rA` (R335). -/
def execBnJr (rA : RegNum) (s : State) : Result := jumpTo (s.reg rA) s

/-- `bn.return` (R336). -/
def execBnReturn (s : State) : Result := jumpTo (s.reg linkReg) s

/-- `bw.jma rD,z` (R337). -/
def execBwJma (rD : RegNum) (z : BitVec 32) (s : State) : Result := jumpMemory rD (pcRel s (immZ z)) s

/-- `bw.jmal rD,z` (R338). -/
def execBwJmal (rD : RegNum) (z : BitVec 32) (s : State) : Result :=
  jumpMemoryLink rD (pcRel s (immZ z)) s

/-- `bn.entri F,N` (R339). -/
def execBnEntri (F : BitVec 18) (N : BitVec 8) (s : State) : Result := prologue F.toNat N.toNat s

/-- `bn.reti F,N` (R340). -/
def execBnReti (F : BitVec 18) (N : BitVec 8) (s : State) : Result := epilogueReturn F.toNat N.toNat s

/-- `bn.rtnei F,N` (R341). -/
def execBnRtnei (F : BitVec 18) (N : BitVec 8) (s : State) : Result := epilogue F.toNat N.toNat s

end Sys2Proof.Machine
end

