-- ==== Sys2Proof/Machine/LoadStore.lean ====
section
/-! DEFINITION. Loads, stores, multi-word transfers and atomics (`spec/45_load_store.md`). -/

namespace Sys2Proof.Machine

/-- `x[rD] <- zext(MemRead(ea, n))` (R361 to R364). -/
def loadInto (len : LenClass) (rD : RegNum) (ea : Word) (n : Nat) (s : State) : Result :=
  ((memRead s ea n).bind fun v => .ok ((s.setReg rD v).advance len)).finish len s

/-- `MemWrite(ea, n, v)` of the low bytes of `v` (R366 to R368). -/
def storeFrom (len : LenClass) (ea : Word) (n : Nat) (v : Word) (s : State) : Result :=
  ((memWrite s ea n v).bind fun t => .ok (t.advance len)).finish len s

/-- `b.mlwz`: `n` words from `x[rA] + off` into consecutive registers from rD; the base is read once
(R370, R374). -/
def loadMultiple (rD rA : RegNum) (off : Word) (n : Nat) (s : State) : Result :=
  if pastLastReg rD n then .refused .registerRange
  else if inRegList rA rD n then .refused .baseInList
  else
    ((loadWords s (wordAddrs (effAddr s rA off) n)).bind fun vs =>
      .ok ((setRegs vs rD s).advance .bn)).finish .bn s

/-- `b.msw`: `n` consecutive registers from rB to `x[rA] + off` (R371, R374). -/
def storeMultiple (rB rA : RegNum) (off : Word) (n : Nat) (s : State) : Result :=
  if pastLastReg rB n then .refused .registerRange
  else
    ((storeWords ((wordAddrs (effAddr s rA off) n).zip (regValues s rB n)) s).bind fun t =>
      .ok (t.advance .bn)).finish .bn s

/-- `T <- MemRead(p, 4); x[rD] <- MemRead(T, 4)` (R372). -/
def loadThrough (rD : RegNum) (p : Word) (s : State) : Result :=
  ((memRead s p 4).bind fun t => (memRead s t 4).bind fun v =>
    .ok ((s.setReg rD v).advance .bw)).finish .bw s

/-- `T <- MemRead(p, 4); MemWrite(T, 4, x[rB])` (R373). -/
def storeThrough (rB : RegNum) (p : Word) (s : State) : Result :=
  ((memRead s p 4).bind fun t => (memWrite s t 4 (s.reg rB)).bind fun u =>
    .ok (u.advance .bw)).finish .bw s

/-- `b.aadd`: one indivisible read, add and write at `x[rB]` (R375, R376). -/
def atomicAdd (rD rA rB : RegNum) (s : State) : Result :=
  ((memRead s (s.reg rB) 4).bind fun v =>
    (memWrite s (s.reg rB) 4 (v + s.reg rA)).bind fun t =>
      .ok ((t.setReg rD (v + s.reg rA)).advance .bn)).finish .bn s

/-- `b.cmpxchg`: the write is performed in both cases; F = 0 where the exchange happened (R375, R377). -/
def compareExchange (rD rA rB : RegNum) (s : State) : Result :=
  ((memRead s (s.reg rB) 4).bind fun v =>
    let same := decide (v = s.reg rD)
    let new := if same then s.reg rA else v
    (memWrite s (s.reg rB) 4 new).bind fun t =>
      .ok (((t.setF (!same)).setReg rD new).advance .bn)).finish .bn s

/-- `bn.lbz rD,N(rA)` (R361). -/
def execBnLbz (rD : RegNum) (N : BitVec 8) (rA : RegNum) (s : State) : Result :=
  loadInto .bn rD (effAddr s rA (immZ N)) 1 s

/-- `bg.lbz rD,Y(rA)` (R361). -/
def execBgLbz (rD : RegNum) (Y : BitVec 16) (rA : RegNum) (s : State) : Result :=
  loadInto .bg rD (effAddr s rA (immS Y)) 1 s

/-- `bw.lbz rD,h(rA)` (R361). -/
def execBwLbz (rD : RegNum) (h : BitVec 32) (rA : RegNum) (s : State) : Result :=
  loadInto .bw rD (effAddr s rA (immZ h)) 1 s

/-- `bn.lhz rD,M(rA)` (R362). -/
def execBnLhz (rD : RegNum) (M : BitVec 7) (rA : RegNum) (s : State) : Result :=
  loadInto .bn rD (effAddr s rA (offZ M 1)) 2 s

/-- `bg.lhz rD,X(rA)` (R362). -/
def execBgLhz (rD : RegNum) (X : BitVec 15) (rA : RegNum) (s : State) : Result :=
  loadInto .bg rD (effAddr s rA (offS16 X 1)) 2 s

/-- `bw.lhz rD,i(rA)` (R362). -/
def execBwLhz (rD : RegNum) (iOff : BitVec 31) (rA : RegNum) (s : State) : Result :=
  loadInto .bw rD (effAddr s rA (off32 iOff 1)) 2 s

/-- `bn.lwz rD,K(rA)` (R363). -/
def execBnLwz (rD : RegNum) (K : BitVec 6) (rA : RegNum) (s : State) : Result :=
  loadInto .bn rD (effAddr s rA (offZ K 2)) 4 s

/-- `bg.lwz rD,W(rA)` (R363). -/
def execBgLwz (rD : RegNum) (W : BitVec 14) (rA : RegNum) (s : State) : Result :=
  loadInto .bg rD (effAddr s rA (offS16 W 2)) 4 s

/-- `bw.lwz rD,w(rA)` (R363). -/
def execBwLwz (rD : RegNum) (wOff : BitVec 30) (rA : RegNum) (s : State) : Result :=
  loadInto .bw rD (effAddr s rA (off32 wOff 2)) 4 s

/-- `bn.lws rD,K(rA)` (R364). -/
def execBnLws (rD : RegNum) (K : BitVec 6) (rA : RegNum) (s : State) : Result :=
  loadInto .bn rD (effAddr s rA (offZ K 2)) 4 s

/-- `bg.lws rD,W(rA)` (R364). -/
def execBgLws (rD : RegNum) (W : BitVec 14) (rA : RegNum) (s : State) : Result :=
  loadInto .bg rD (effAddr s rA (offS16 W 2)) 4 s

/-- `bw.lws rD,w(rA)` (R364). -/
def execBwLws (rD : RegNum) (wOff : BitVec 30) (rA : RegNum) (s : State) : Result :=
  loadInto .bw rD (effAddr s rA (off32 wOff 2)) 4 s

/-- `bn.sb N(rA),rB` (R366). -/
def execBnSb (N : BitVec 8) (rA rB : RegNum) (s : State) : Result :=
  storeFrom .bn (effAddr s rA (immZ N)) 1 (s.reg rB) s

/-- `bg.sb Y(rA),rB` (R366). -/
def execBgSb (Y : BitVec 16) (rA rB : RegNum) (s : State) : Result :=
  storeFrom .bg (effAddr s rA (immS Y)) 1 (s.reg rB) s

/-- `bw.sb h(rA),rB` (R366). -/
def execBwSb (h : BitVec 32) (rA rB : RegNum) (s : State) : Result :=
  storeFrom .bw (effAddr s rA (immZ h)) 1 (s.reg rB) s

/-- `bn.sh M(rA),rB` (R367). -/
def execBnSh (M : BitVec 7) (rA rB : RegNum) (s : State) : Result :=
  storeFrom .bn (effAddr s rA (offZ M 1)) 2 (s.reg rB) s

/-- `bg.sh X(rA),rB` (R367). -/
def execBgSh (X : BitVec 15) (rA rB : RegNum) (s : State) : Result :=
  storeFrom .bg (effAddr s rA (offS16 X 1)) 2 (s.reg rB) s

/-- `bw.sh i(rA),rB` (R367). -/
def execBwSh (iOff : BitVec 31) (rA rB : RegNum) (s : State) : Result :=
  storeFrom .bw (effAddr s rA (off32 iOff 1)) 2 (s.reg rB) s

/-- `bn.sw K(rA),rB` (R368). -/
def execBnSw (K : BitVec 6) (rA rB : RegNum) (s : State) : Result :=
  storeFrom .bn (effAddr s rA (offZ K 2)) 4 (s.reg rB) s

/-- `bg.sw W(rA),rB` (R368). -/
def execBgSw (W : BitVec 14) (rA rB : RegNum) (s : State) : Result :=
  storeFrom .bg (effAddr s rA (offS16 W 2)) 4 (s.reg rB) s

/-- `bw.sw w(rA),rB` (R368). -/
def execBwSw (wOff : BitVec 30) (rA rB : RegNum) (s : State) : Result :=
  storeFrom .bw (effAddr s rA (off32 wOff 2)) 4 (s.reg rB) s

/-- `bn.ld rD,J(rA)` (R365). -/
def execBnLd (_rD : RegNum) (_J : BitVec 5) (_rA : RegNum) (_s : State) : Result := .refused .not32bit

/-- `bn.sd J(rA),rB` (R369). -/
def execBnSd (_J : BitVec 5) (_rA _rB : RegNum) (_s : State) : Result := .refused .not32bit

/-- `bg.ld rD,V(rA)` (R365). -/
def execBgLd (_rD : RegNum) (_V : BitVec 13) (_rA : RegNum) (_s : State) : Result := .refused .not32bit

/-- `bg.sd V(rA),rB` (R369). -/
def execBgSd (_V : BitVec 13) (_rA _rB : RegNum) (_s : State) : Result := .refused .not32bit

/-- `bw.ld rD,v(rA)` (R365). -/
def execBwLd (_rD : RegNum) (_vOff : BitVec 29) (_rA : RegNum) (_s : State) : Result :=
  .refused .not32bit

/-- `bw.sd v(rA),rB` (R369). -/
def execBwSd (_vOff : BitVec 29) (_rA _rB : RegNum) (_s : State) : Result := .refused .not32bit

/-- `bn.mlwz rD,K(rA),C` (R370). -/
def execBnMlwz (rD : RegNum) (K : BitVec 6) (rA : RegNum) (C : BitVec 2) (s : State) : Result :=
  loadMultiple rD rA (offZ K 2) (wordCount C) s

/-- `bn.msw K(rA),rB,C` (R371). -/
def execBnMsw (K : BitVec 6) (rA rB : RegNum) (C : BitVec 2) (s : State) : Result :=
  storeMultiple rB rA (offZ K 2) (wordCount C) s

/-- `bw.lma rD,z` (R372). -/
def execBwLma (rD : RegNum) (z : BitVec 32) (s : State) : Result := loadThrough rD (pcRel s (immZ z)) s

/-- `bw.sma rB,z` (R373). -/
def execBwSma (rB : RegNum) (z : BitVec 32) (s : State) : Result := storeThrough rB (pcRel s (immZ z)) s

/-- `bn.aadd rD,rA,rB` (R376). -/
def execBnAadd (rD rA rB : RegNum) (s : State) : Result := atomicAdd rD rA rB s

/-- `bn.cmpxchg rD,rA,rB` (R377). -/
def execBnCmpxchg (rD rA rB : RegNum) (s : State) : Result := compareExchange rD rA rB s

end Sys2Proof.Machine
end

