-- ==== Sys2Proof/Machine/Logic.lean ====
section
/-! DEFINITION. Logic, shifts, bit manipulation and moves (`spec/41_logic_move.md`). No instruction here
writes a flag but `b.movhi`, which is `bw.addi` (R200, R229). -/

namespace Sys2Proof.Machine

/-- Rotation by `n` below 32 (R216). -/
def rotateRight (a : Word) (n : Nat) : Word := if n = 0 then a else (a >>> n) ||| (a <<< (32 - n))

/-- `rA[31] ? 0 : rA[30] ? 1 ... rA[0] ? 31 : -1` (R219). -/
def countLeadingZeros (a : Word) : Word :=
  match (List.range 32).find? fun k => a.getLsbD (31 - k) with
  | some k => BitVec.ofNat 32 k
  | none => BitVec.allOnes 32

/-- `rA[0] ? 1 : rA[1] ? 2 ... rA[31] ? 32 : 0` (R220). -/
def findFirstOne (a : Word) : Word :=
  match (List.range 32).find? fun k => a.getLsbD k with
  | some k => BitVec.ofNat 32 (k + 1)
  | none => 0

/-- The highest byte at which the words agree, or -1 (R221). -/
def findLeadingByte (a b : Word) : Word :=
  if a.extractLsb' 24 8 = b.extractLsb' 24 8 then 3
  else if a.extractLsb' 16 8 = b.extractLsb' 16 8 then 2
  else if a.extractLsb' 8 8 = b.extractLsb' 8 8 then 1
  else if a.extractLsb' 0 8 = b.extractLsb' 0 8 then 0
  else BitVec.allOnes 32

/-- The bytes in reverse order (R222). -/
def swapBytes (a : Word) : Word :=
  a.extractLsb' 0 8 ++ a.extractLsb' 8 8 ++ a.extractLsb' 16 8 ++ a.extractLsb' 24 8

/-- `bn.and rD,rA,rB` (R201). -/
def execBnAnd (rD rA rB : RegNum) (s : State) : Result := writeBack .bn rD (s.reg rA &&& s.reg rB) s

/-- `bn.andi rD,rA,N` (R202). -/
def execBnAndi (rD rA : RegNum) (N : BitVec 8) (s : State) : Result :=
  writeBack .bn rD (s.reg rA &&& immZ N) s

/-- `bw.andi rD,rA,h` (R202). -/
def execBwAndi (rD rA : RegNum) (h : BitVec 32) (s : State) : Result :=
  writeBack .bw rD (s.reg rA &&& immZ h) s

/-- `bn.or rD,rA,rB` (R203). -/
def execBnOr (rD rA rB : RegNum) (s : State) : Result := writeBack .bn rD (s.reg rA ||| s.reg rB) s

/-- `bn.ori rD,rA,N` (R204). -/
def execBnOri (rD rA : RegNum) (N : BitVec 8) (s : State) : Result :=
  writeBack .bn rD (s.reg rA ||| immZ N) s

/-- `bw.ori rD,rA,h` (R204). -/
def execBwOri (rD rA : RegNum) (h : BitVec 32) (s : State) : Result :=
  writeBack .bw rD (s.reg rA ||| immZ h) s

/-- `bn.xor rD,rA,rB` (R205). -/
def execBnXor (rD rA rB : RegNum) (s : State) : Result := writeBack .bn rD (s.reg rA ^^^ s.reg rB) s

/-- `bw.xori rD,rA,p` (R206). -/
def execBwXori (rD rA : RegNum) (p : BitVec 24) (s : State) : Result :=
  writeBack .bw rD (s.reg rA ^^^ immS p) s

/-- `bn.nand rD,rA,rB` (R207). -/
def execBnNand (rD rA rB : RegNum) (s : State) : Result :=
  writeBack .bn rD (~~~(s.reg rA &&& s.reg rB)) s

/-- `b.not rD,rA`, written for `bn.nand rD,rA,rA` (R208). -/
def execBNot (rD rA : RegNum) (s : State) : Result := writeBack .bn rD (~~~(s.reg rA &&& s.reg rA)) s

/-- `bn.sll rD,rA,rB` (R210). -/
def execBnSll (rD rA rB : RegNum) (s : State) : Result :=
  writeBack .bn rD (s.reg rA <<< shiftAmount (s.reg rB)) s

/-- `bn.slli rD,rA,H` (R211). -/
def execBnSlli (rD rA : RegNum) (H : BitVec 5) (s : State) : Result :=
  writeBack .bn rD (s.reg rA <<< H.toNat) s

/-- `bn.srl rD,rA,rB` (R212). -/
def execBnSrl (rD rA rB : RegNum) (s : State) : Result :=
  writeBack .bn rD (s.reg rA >>> shiftAmount (s.reg rB)) s

/-- `bn.srli rD,rA,H` (R213). -/
def execBnSrli (rD rA : RegNum) (H : BitVec 5) (s : State) : Result :=
  writeBack .bn rD (s.reg rA >>> H.toNat) s

/-- `bn.sra rD,rA,rB` (R214). -/
def execBnSra (rD rA rB : RegNum) (s : State) : Result :=
  writeBack .bn rD ((s.reg rA).sshiftRight (shiftAmount (s.reg rB))) s

/-- `bn.srai rD,rA,H` (R215). -/
def execBnSrai (rD rA : RegNum) (H : BitVec 5) (s : State) : Result :=
  writeBack .bn rD ((s.reg rA).sshiftRight H.toNat) s

/-- `bn.ror rD,rA,rB` (R216). -/
def execBnRor (rD rA rB : RegNum) (s : State) : Result :=
  writeBack .bn rD (rotateRight (s.reg rA) (shiftAmount (s.reg rB))) s

/-- `bn.rori rD,rA,H` (R217). -/
def execBnRori (rD rA : RegNum) (H : BitVec 5) (s : State) : Result :=
  writeBack .bn rD (rotateRight (s.reg rA) H.toNat) s

/-- `bn.bitrev rD,rA` (R218). -/
def execBnBitrev (rD rA : RegNum) (s : State) : Result := writeBack .bn rD ((s.reg rA).reverse) s

/-- `bn.clz rD,rA` (R219). -/
def execBnClz (rD rA : RegNum) (s : State) : Result := writeBack .bn rD (countLeadingZeros (s.reg rA)) s

/-- `bn.ff1 rD,rA` (R220). -/
def execBnFf1 (rD rA : RegNum) (s : State) : Result := writeBack .bn rD (findFirstOne (s.reg rA)) s

/-- `bn.flb rD,rA,rB` (R221). -/
def execBnFlb (rD rA rB : RegNum) (s : State) : Result :=
  writeBack .bn rD (findLeadingByte (s.reg rA) (s.reg rB)) s

/-- `bn.swab rD,rA` (R222). -/
def execBnSwab (rD rA : RegNum) (s : State) : Result := writeBack .bn rD (swapBytes (s.reg rA)) s

/-- `bn.extbs rD,rA` (R223). -/
def execBnExtbs (rD rA : RegNum) (s : State) : Result :=
  writeBack .bn rD (((s.reg rA).extractLsb' 0 8).signExtend 32) s

/-- `bn.extbz rD,rA` (R224). -/
def execBnExtbz (rD rA : RegNum) (s : State) : Result :=
  writeBack .bn rD (((s.reg rA).extractLsb' 0 8).setWidth 32) s

/-- `bn.exths rD,rA` (R225). -/
def execBnExths (rD rA : RegNum) (s : State) : Result :=
  writeBack .bn rD (((s.reg rA).extractLsb' 0 16).signExtend 32) s

/-- `bn.exthz rD,rA` (R226). -/
def execBnExthz (rD rA : RegNum) (s : State) : Result :=
  writeBack .bn rD (((s.reg rA).extractLsb' 0 16).setWidth 32) s

/-- `bn.cmov rD,rA,rB` (R227). -/
def execBnCmov (rD rA rB : RegNum) (s : State) : Result :=
  writeBack .bn rD (if s.flagF then s.reg rA else s.reg rB) s

/-- `bt.mov rD,rA` (R228). -/
def execBtMov (rD rA : RegNum) (s : State) : Result := writeBack .bt rD (s.reg rA) s

/-- `bt.movi rD,G` (R230). -/
def execBtMovi (rD : RegNum) (G : BitVec 4) (s : State) : Result := writeBack .bt rD (immS G) s

/-- `b.movhi rA,I`, written for `bw.addi <dest>,r0,(I << 16)` (R229). -/
def execBMovhi (rA : RegNum) (I : BitVec 16) (s : State) : Result :=
  addFlags .bw rA 0 (immHigh I) false s

/-- `bt.nop G` (R231). -/
def execBtNop (_G : BitVec 4) (s : State) : Result := .next (s.advance .bt)

end Sys2Proof.Machine
end

