-- ==== Sys2Proof/Machine/System.lean ====
section
/-! DEFINITION. System instructions (`spec/46_system.md`). There is one mode: none is privileged
(`spec/60_exceptions.md` R470). -/

namespace Sys2Proof.Machine

/-- `b.trap`: the Trap exception where bit G of SR is 1 (R401). -/
def trapIf (G : BitVec 4) (s : State) : Result :=
  .next (if s.sr.getLsbD G.toNat then raiseTrap .bt s else s.advance .bt)

/-- `x[rD] <- SPR[n]` (R405). -/
def moveFromSpr (rD : RegNum) (n : Word) (s : State) : Result :=
  match sprOf s n with
  | some r => writeBack .bw rD (readSpr s r) s
  | none => .refused .unknownSpr

/-- `SPR[n] <- v` (R406). -/
def moveToSpr (n v : Word) (s : State) : Result :=
  match sprOf s n with
  | some r => .next ((writeSpr s r v).advance .bw)
  | none => .refused .unknownSpr

/-- `b.sys` (R400). -/
def execBSys (_imm : Option Word) (s : State) : Result := .next (raiseSystemCall s.params.lenOf.sys s)

/-- `bt.trap G` (R401). -/
def execBtTrap (G : BitVec 4) (s : State) : Result := trapIf G s

/-- `bt.rfe` (R402). -/
def execBtRfe (s : State) : Result := .next (returnFromException s)

/-- `bt.ei` (R403). -/
def execBtEi (s : State) : Result := .next ((s.setSr (withEnables s.params s.sr true)).advance .bt)

/-- `bt.di` (R404). -/
def execBtDi (s : State) : Result := .next ((s.setSr (withEnables s.params s.sr false)).advance .bt)

/-- `bw.mfspr rD,rA,o` (R405). -/
def execBwMfspr (rD rA : RegNum) (o : BitVec 32) (s : State) : Result :=
  moveFromSpr rD (s.reg rA ||| immZ o) s

/-- `bw.mtspr rA,rB,o` (R406). -/
def execBwMtspr (rA rB : RegNum) (o : BitVec 32) (s : State) : Result :=
  moveToSpr (s.reg rA ||| immZ o) (s.reg rB) s

end Sys2Proof.Machine
end

