-- ==== Sys2Proof/Machine/Dispatch.lean ====
section
/-! DEFINITION. The dispatch: one arm per constructor of `Instr`, one direct call of its meaning. -/

namespace Sys2Proof.Machine

def exec (i : Instr) (s : State) : Host.Outcome State Fault Refusal :=
  match i with
  | .bnOr rD rA rB => Sys2Proof.Machine.execBnOr rD rA rB s
  | .bnXor rD rA rB => Sys2Proof.Machine.execBnXor rD rA rB s
  | .bnNand rD rA rB => Sys2Proof.Machine.execBnNand rD rA rB s
  | .bnSub rD rA rB => Sys2Proof.Machine.execBnSub rD rA rB s
  | .bnSll rD rA rB => Sys2Proof.Machine.execBnSll rD rA rB s
  | .bnSrl rD rA rB => Sys2Proof.Machine.execBnSrl rD rA rB s
  | .bnSra rD rA rB => Sys2Proof.Machine.execBnSra rD rA rB s
  | .bnRor rD rA rB => Sys2Proof.Machine.execBnRor rD rA rB s
  | .bnCmov rD rA rB => Sys2Proof.Machine.execBnCmov rD rA rB s
  | .bnMul rD rA rB => Sys2Proof.Machine.execBnMul rD rA rB s
  | .bnDiv rD rA rB => Sys2Proof.Machine.execBnDiv rD rA rB s
  | .bnDivu rD rA rB => Sys2Proof.Machine.execBnDivu rD rA rB s
  | .bnAddc rD rA rB => Sys2Proof.Machine.execBnAddc rD rA rB s
  | .bnSubb rD rA rB => Sys2Proof.Machine.execBnSubb rD rA rB s
  | .bnFlb rD rA rB => Sys2Proof.Machine.execBnFlb rD rA rB s
  | .bnMulh rD rA rB => Sys2Proof.Machine.execBnMulh rD rA rB s
  | .bnMod rD rA rB => Sys2Proof.Machine.execBnMod rD rA rB s
  | .bnCmpxchg rD rA rB => Sys2Proof.Machine.execBnCmpxchg rD rA rB s
  | .fnAddS rD rA rB => Sys2Proof.Machine.execFnAddS rD rA rB s
  | .fnSubS rD rA rB => Sys2Proof.Machine.execFnSubS rD rA rB s
  | .fnMulS rD rA rB => Sys2Proof.Machine.execFnMulS rD rA rB s
  | .fnDivS rD rA rB => Sys2Proof.Machine.execFnDivS rD rA rB s
  | .bnAdds rD rA rB => Sys2Proof.Machine.execBnAdds rD rA rB s
  | .bnSlli rD rA H => Sys2Proof.Machine.execBnSlli rD rA H s
  | .bnSrli rD rA H => Sys2Proof.Machine.execBnSrli rD rA H s
  | .bnSrai rD rA H => Sys2Proof.Machine.execBnSrai rD rA H s
  | .bnRori rD rA H => Sys2Proof.Machine.execBnRori rD rA H s
  | .bnExtbz rD rA => Sys2Proof.Machine.execBnExtbz rD rA s
  | .bnExtbs rD rA => Sys2Proof.Machine.execBnExtbs rD rA s
  | .bnExthz rD rA => Sys2Proof.Machine.execBnExthz rD rA s
  | .bnExths rD rA => Sys2Proof.Machine.execBnExths rD rA s
  | .bnFf1 rD rA => Sys2Proof.Machine.execBnFf1 rD rA s
  | .bnClz rD rA => Sys2Proof.Machine.execBnClz rD rA s
  | .bnSwab rD rA => Sys2Proof.Machine.execBnSwab rD rA s
  | .fnFtoiS rD rA => Sys2Proof.Machine.execFnFtoiS rD rA s
  | .fnItofS rD rA => Sys2Proof.Machine.execFnItofS rD rA s
  | .btAddi rD G => Sys2Proof.Machine.execBtAddi rD G s
  | .btNop G => Sys2Proof.Machine.execBtNop G s
  | .btTrap G => Sys2Proof.Machine.execBtTrap G s
  | .btMov rD rA => Sys2Proof.Machine.execBtMov rD rA s
  | .btRfe => Sys2Proof.Machine.execBtRfe s
  | .btEi => Sys2Proof.Machine.execBtEi s
  | .btDi => Sys2Proof.Machine.execBtDi s
  | .btAdd rD rA => Sys2Proof.Machine.execBtAdd rD rA s
  | .btMovi rD G => Sys2Proof.Machine.execBtMovi rD G s
  | .btJ T => Sys2Proof.Machine.execBtJ T s
  | .bnAadd rD rA rB => Sys2Proof.Machine.execBnAadd rD rA rB s
  | .bnAdd rD rA rB => Sys2Proof.Machine.execBnAdd rD rA rB s
  | .bnAddi rD rA O => Sys2Proof.Machine.execBnAddi rD rA O s
  | .bnAnd rD rA rB => Sys2Proof.Machine.execBnAnd rD rA rB s
  | .bnAndi rD rA N => Sys2Proof.Machine.execBnAndi rD rA N s
  | .bnBc S => Sys2Proof.Machine.execBnBc S s
  | .bnBeqi rB E P => Sys2Proof.Machine.execBnBeqi rB E P s
  | .bnBf S => Sys2Proof.Machine.execBnBf S s
  | .bnBgesi rB E P => Sys2Proof.Machine.execBnBgesi rB E P s
  | .bnBgtsi rB E P => Sys2Proof.Machine.execBnBgtsi rB E P s
  | .bnBitrev rD rA => Sys2Proof.Machine.execBnBitrev rD rA s
  | .bnBlesi rB E P => Sys2Proof.Machine.execBnBlesi rB E P s
  | .bnBltsi rB E P => Sys2Proof.Machine.execBnBltsi rB E P s
  | .bnBnc S => Sys2Proof.Machine.execBnBnc S s
  | .bnBnei rB E P => Sys2Proof.Machine.execBnBnei rB E P s
  | .bnBnf S => Sys2Proof.Machine.execBnBnf S s
  | .bnBno S => Sys2Proof.Machine.execBnBno S s
  | .bnBo S => Sys2Proof.Machine.execBnBo S s
  | .bnEntri F N => Sys2Proof.Machine.execBnEntri F N s
  | .bnJ Z => Sys2Proof.Machine.execBnJ Z s
  | .bnJal sOff => Sys2Proof.Machine.execBnJal sOff s
  | .bnJr rA => Sys2Proof.Machine.execBnJr rA s
  | .bnLbz rD N rA => Sys2Proof.Machine.execBnLbz rD N rA s
  | .bnLd rD J rA => Sys2Proof.Machine.execBnLd rD J rA s
  | .bnLhz rD M rA => Sys2Proof.Machine.execBnLhz rD M rA s
  | .bnLws rD K rA => Sys2Proof.Machine.execBnLws rD K rA s
  | .bnLwz rD K rA => Sys2Proof.Machine.execBnLwz rD K rA s
  | .bnMlwz rD K rA C => Sys2Proof.Machine.execBnMlwz rD K rA C s
  | .bnModu rD rA rB => Sys2Proof.Machine.execBnModu rD rA rB s
  | .bnMsw K rA rB C => Sys2Proof.Machine.execBnMsw K rA rB C s
  | .bnOri rD rA N => Sys2Proof.Machine.execBnOri rD rA N s
  | .bnReti F N => Sys2Proof.Machine.execBnReti F N s
  | .bnReturn => Sys2Proof.Machine.execBnReturn s
  | .bnRtnei F N => Sys2Proof.Machine.execBnRtnei F N s
  | .bnSb N rA rB => Sys2Proof.Machine.execBnSb N rA rB s
  | .bnSd J rA rB => Sys2Proof.Machine.execBnSd J rA rB s
  | .bnSfeq rA rB => Sys2Proof.Machine.execBnSfeq rA rB s
  | .bnSfeqi rA O => Sys2Proof.Machine.execBnSfeqi rA O s
  | .bnSfgesi rA O => Sys2Proof.Machine.execBnSfgesi rA O s
  | .bnSfgeui rA O => Sys2Proof.Machine.execBnSfgeui rA O s
  | .bnSfgts rA rB => Sys2Proof.Machine.execBnSfgts rA rB s
  | .bnSfgtsi rA O => Sys2Proof.Machine.execBnSfgtsi rA O s
  | .bnSfgtu rA rB => Sys2Proof.Machine.execBnSfgtu rA rB s
  | .bnSfgtui rA O => Sys2Proof.Machine.execBnSfgtui rA O s
  | .bnSflesi rA O => Sys2Proof.Machine.execBnSflesi rA O s
  | .bnSfleui rA O => Sys2Proof.Machine.execBnSfleui rA O s
  | .bnSfltsi rA O => Sys2Proof.Machine.execBnSfltsi rA O s
  | .bnSfltui rA O => Sys2Proof.Machine.execBnSfltui rA O s
  | .bnSfne rA rB => Sys2Proof.Machine.execBnSfne rA rB s
  | .bnSfnei rA O => Sys2Proof.Machine.execBnSfnei rA O s
  | .bnSh M rA rB => Sys2Proof.Machine.execBnSh M rA rB s
  | .bnSw K rA rB => Sys2Proof.Machine.execBnSw K rA rB s
  | .bgAddi rD rA Y => Sys2Proof.Machine.execBgAddi rD rA Y s
  | .bgBeq rA rB U => Sys2Proof.Machine.execBgBeq rA rB U s
  | .bgBeqi rB I U => Sys2Proof.Machine.execBgBeqi rB I U s
  | .bgBf t => Sys2Proof.Machine.execBgBf t s
  | .bgBges rA rB U => Sys2Proof.Machine.execBgBges rA rB U s
  | .bgBgesi rB I U => Sys2Proof.Machine.execBgBgesi rB I U s
  | .bgBgeu rA rB U => Sys2Proof.Machine.execBgBgeu rA rB U s
  | .bgBgeui rB I U => Sys2Proof.Machine.execBgBgeui rB I U s
  | .bgBgts rA rB U => Sys2Proof.Machine.execBgBgts rA rB U s
  | .bgBgtsi rB I U => Sys2Proof.Machine.execBgBgtsi rB I U s
  | .bgBgtu rA rB U => Sys2Proof.Machine.execBgBgtu rA rB U s
  | .bgBgtui rB I U => Sys2Proof.Machine.execBgBgtui rB I U s
  | .bgBlesi rB I U => Sys2Proof.Machine.execBgBlesi rB I U s
  | .bgBleui rB I U => Sys2Proof.Machine.execBgBleui rB I U s
  | .bgBltsi rB I U => Sys2Proof.Machine.execBgBltsi rB I U s
  | .bgBltui rB I U => Sys2Proof.Machine.execBgBltui rB I U s
  | .bgBne rA rB U => Sys2Proof.Machine.execBgBne rA rB U s
  | .bgBnei rB I U => Sys2Proof.Machine.execBgBnei rB I U s
  | .bgBnf t => Sys2Proof.Machine.execBgBnf t s
  | .bgJ t => Sys2Proof.Machine.execBgJ t s
  | .bgJal t => Sys2Proof.Machine.execBgJal t s
  | .bgLbz rD Y rA => Sys2Proof.Machine.execBgLbz rD Y rA s
  | .bgLd rD V rA => Sys2Proof.Machine.execBgLd rD V rA s
  | .bgLhz rD X rA => Sys2Proof.Machine.execBgLhz rD X rA s
  | .bgLws rD W rA => Sys2Proof.Machine.execBgLws rD W rA s
  | .bgLwz rD W rA => Sys2Proof.Machine.execBgLwz rD W rA s
  | .bgSb Y rA rB => Sys2Proof.Machine.execBgSb Y rA rB s
  | .bgSd V rA rB => Sys2Proof.Machine.execBgSd V rA rB s
  | .bgSh X rA rB => Sys2Proof.Machine.execBgSh X rA rB s
  | .bgSw W rA rB => Sys2Proof.Machine.execBgSw W rA rB s
  | .fgBeqS rA rB U => Sys2Proof.Machine.execFgBeqS rA rB U s
  | .fgBgeS rA rB U => Sys2Proof.Machine.execFgBgeS rA rB U s
  | .fgBgtS rA rB U => Sys2Proof.Machine.execFgBgtS rA rB U s
  | .fgBneS rA rB U => Sys2Proof.Machine.execFgBneS rA rB U s
  | .bwAddci rD rA p => Sys2Proof.Machine.execBwAddci rD rA p s
  | .bwAddi rD rA g => Sys2Proof.Machine.execBwAddi rD rA g s
  | .bwAndi rD rA h => Sys2Proof.Machine.execBwAndi rD rA h s
  | .bwBeq rA rB u => Sys2Proof.Machine.execBwBeq rA rB u s
  | .bwBeqi rB I u => Sys2Proof.Machine.execBwBeqi rB I u s
  | .bwBf z => Sys2Proof.Machine.execBwBf z s
  | .bwBges rA rB u => Sys2Proof.Machine.execBwBges rA rB u s
  | .bwBgesi rB I u => Sys2Proof.Machine.execBwBgesi rB I u s
  | .bwBgeu rA rB u => Sys2Proof.Machine.execBwBgeu rA rB u s
  | .bwBgeui rB I u => Sys2Proof.Machine.execBwBgeui rB I u s
  | .bwBgts rA rB u => Sys2Proof.Machine.execBwBgts rA rB u s
  | .bwBgtsi rB I u => Sys2Proof.Machine.execBwBgtsi rB I u s
  | .bwBgtu rA rB u => Sys2Proof.Machine.execBwBgtu rA rB u s
  | .bwBgtui rB I u => Sys2Proof.Machine.execBwBgtui rB I u s
  | .bwBlesi rB I u => Sys2Proof.Machine.execBwBlesi rB I u s
  | .bwBleui rB I u => Sys2Proof.Machine.execBwBleui rB I u s
  | .bwBltsi rB I u => Sys2Proof.Machine.execBwBltsi rB I u s
  | .bwBltui rB I u => Sys2Proof.Machine.execBwBltui rB I u s
  | .bwBne rA rB u => Sys2Proof.Machine.execBwBne rA rB u s
  | .bwBnei rB I u => Sys2Proof.Machine.execBwBnei rB I u s
  | .bwBnf z => Sys2Proof.Machine.execBwBnf z s
  | .bwDivi rD rA p => Sys2Proof.Machine.execBwDivi rD rA p s
  | .bwDivui rD rA o => Sys2Proof.Machine.execBwDivui rD rA o s
  | .bwJ z => Sys2Proof.Machine.execBwJ z s
  | .bwJa g => Sys2Proof.Machine.execBwJa g s
  | .bwJal z => Sys2Proof.Machine.execBwJal z s
  | .bwJma rD z => Sys2Proof.Machine.execBwJma rD z s
  | .bwJmal rD z => Sys2Proof.Machine.execBwJmal rD z s
  | .bwLbz rD h rA => Sys2Proof.Machine.execBwLbz rD h rA s
  | .bwLd rD vOff rA => Sys2Proof.Machine.execBwLd rD vOff rA s
  | .bwLhz rD iOff rA => Sys2Proof.Machine.execBwLhz rD iOff rA s
  | .bwLma rD z => Sys2Proof.Machine.execBwLma rD z s
  | .bwLws rD wOff rA => Sys2Proof.Machine.execBwLws rD wOff rA s
  | .bwLwz rD wOff rA => Sys2Proof.Machine.execBwLwz rD wOff rA s
  | .bwMfspr rD rA o => Sys2Proof.Machine.execBwMfspr rD rA o s
  | .bwMtspr rA rB o => Sys2Proof.Machine.execBwMtspr rA rB o s
  | .bwMuli rD rA p => Sys2Proof.Machine.execBwMuli rD rA p s
  | .bwOri rD rA h => Sys2Proof.Machine.execBwOri rD rA h s
  | .bwSb h rA rB => Sys2Proof.Machine.execBwSb h rA rB s
  | .bwSd vOff rA rB => Sys2Proof.Machine.execBwSd vOff rA rB s
  | .bwSfeqi rA g => Sys2Proof.Machine.execBwSfeqi rA g s
  | .bwSfgesi rA g => Sys2Proof.Machine.execBwSfgesi rA g s
  | .bwSfgeui rA g => Sys2Proof.Machine.execBwSfgeui rA g s
  | .bwSfgtsi rA g => Sys2Proof.Machine.execBwSfgtsi rA g s
  | .bwSfgtui rA g => Sys2Proof.Machine.execBwSfgtui rA g s
  | .bwSflesi rA g => Sys2Proof.Machine.execBwSflesi rA g s
  | .bwSfleui rA g => Sys2Proof.Machine.execBwSfleui rA g s
  | .bwSfltsi rA g => Sys2Proof.Machine.execBwSfltsi rA g s
  | .bwSfltui rA g => Sys2Proof.Machine.execBwSfltui rA g s
  | .bwSfnei rA g => Sys2Proof.Machine.execBwSfnei rA g s
  | .bwSh iOff rA rB => Sys2Proof.Machine.execBwSh iOff rA rB s
  | .bwSma rB z => Sys2Proof.Machine.execBwSma rB z s
  | .bwSw wOff rA rB => Sys2Proof.Machine.execBwSw wOff rA rB s
  | .bwXori rD rA p => Sys2Proof.Machine.execBwXori rD rA p s
  | .fwBeqS rA rB u => Sys2Proof.Machine.execFwBeqS rA rB u s
  | .fwBgeS rA rB u => Sys2Proof.Machine.execFwBgeS rA rB u s
  | .fwBgtS rA rB u => Sys2Proof.Machine.execFwBgtS rA rB u s
  | .fwBneS rA rB u => Sys2Proof.Machine.execFwBneS rA rB u s
  | .bJalr rA => Sys2Proof.Machine.execBJalr rA s
  | .bMac rA rB => Sys2Proof.Machine.execBMac rA rB s
  | .bMacs rA rB => Sys2Proof.Machine.execBMacs rA rB s
  | .bSys imm => Sys2Proof.Machine.execBSys imm s
  | .bSubs rD rA rB => Sys2Proof.Machine.execBSubs rD rA rB s
  | .bSfges rA rB => Sys2Proof.Machine.execBSfges rA rB s
  | .bSfgeu rA rB => Sys2Proof.Machine.execBSfgeu rA rB s
  | .bSfles rA rB => Sys2Proof.Machine.execBSfles rA rB s
  | .bSfleu rA rB => Sys2Proof.Machine.execBSfleu rA rB s
  | .bAddic rD rA p => Sys2Proof.Machine.execBAddic rD rA p s
  | .bNot rD rA => Sys2Proof.Machine.execBNot rD rA s
  | .bMovhi rA I => Sys2Proof.Machine.execBMovhi rA I s
  | .bCov => Sys2Proof.Machine.execBCov s
  | .bBles rA rB off => Sys2Proof.Machine.execBBles rA rB off s
  | .bBleu rA rB off => Sys2Proof.Machine.execBBleu rA rB off s
  | .bBlts rA rB off => Sys2Proof.Machine.execBBlts rA rB off s
  | .bBltu rA rB off => Sys2Proof.Machine.execBBltu rA rB off s
  | .bSflts rA rB => Sys2Proof.Machine.execBSflts rA rB s
  | .bSfltu rA rB => Sys2Proof.Machine.execBSfltu rA rB s
  | .fAbsS rD rA => Sys2Proof.Machine.execFAbsS rD rA s
  | .fBleS rA rB off => Sys2Proof.Machine.execFBleS rA rB off s
  | .fBltS rA rB off => Sys2Proof.Machine.execFBltS rA rB off s

end Sys2Proof.Machine
end

