-- ==== Sys2Proof/WellFormed.lean ====
section
/-! DEFINITION. Which instruction terms are forms of the set: the two constraints that
`spec/30_encoding.md` R112, R113 and `spec/opcode_table.json` put on operands. Every other field is as
wide as its letter, so every value of it is a form's. -/

namespace Sys2Proof

/-- `bt.addi` and `bt.mov` have no form with destination r0: those words are `b.nop` and the system
instructions (`spec/30_encoding.md` R112, R113). -/
def Instr.wellFormed : Instr → Bool
  | .btAddi rD _ => rD != 0
  | .btMov rD _ => rD != 0
  | .bnOr .. | .bnXor .. | .bnNand .. | .bnSub .. | .bnSll .. | .bnSrl .. | .bnSra ..
  | .bnRor .. | .bnCmov .. | .bnMul .. | .bnDiv .. | .bnDivu .. | .bnAddc .. | .bnSubb ..
  | .bnFlb .. | .bnMulh .. | .bnMod .. | .bnCmpxchg .. | .fnAddS .. | .fnSubS .. | .fnMulS ..
  | .fnDivS .. | .bnAdds .. | .bnSlli .. | .bnSrli .. | .bnSrai .. | .bnRori .. | .bnExtbz ..
  | .bnExtbs .. | .bnExthz .. | .bnExths .. | .bnFf1 .. | .bnClz .. | .bnSwab .. | .fnFtoiS ..
  | .fnItofS .. | .btNop .. | .btTrap .. | .btRfe | .btEi | .btDi | .btAdd .. | .btMovi ..
  | .btJ .. | .bnAadd .. | .bnAdd .. | .bnAddi .. | .bnAnd .. | .bnAndi .. | .bnBc ..
  | .bnBeqi .. | .bnBf .. | .bnBgesi .. | .bnBgtsi .. | .bnBitrev .. | .bnBlesi .. | .bnBltsi ..
  | .bnBnc .. | .bnBnei .. | .bnBnf .. | .bnBno .. | .bnBo .. | .bnEntri .. | .bnJ ..
  | .bnJal .. | .bnJr .. | .bnLbz .. | .bnLd .. | .bnLhz .. | .bnLws .. | .bnLwz .. | .bnMlwz ..
  | .bnModu .. | .bnMsw .. | .bnOri .. | .bnReti .. | .bnReturn | .bnRtnei .. | .bnSb ..
  | .bnSd .. | .bnSfeq .. | .bnSfeqi .. | .bnSfgesi .. | .bnSfgeui .. | .bnSfgts ..
  | .bnSfgtsi .. | .bnSfgtu .. | .bnSfgtui .. | .bnSflesi .. | .bnSfleui .. | .bnSfltsi ..
  | .bnSfltui .. | .bnSfne .. | .bnSfnei .. | .bnSh .. | .bnSw .. | .bgAddi .. | .bgBeq ..
  | .bgBeqi .. | .bgBf .. | .bgBges .. | .bgBgesi .. | .bgBgeu .. | .bgBgeui .. | .bgBgts ..
  | .bgBgtsi .. | .bgBgtu .. | .bgBgtui .. | .bgBlesi .. | .bgBleui .. | .bgBltsi ..
  | .bgBltui .. | .bgBne .. | .bgBnei .. | .bgBnf .. | .bgJ .. | .bgJal .. | .bgLbz ..
  | .bgLd .. | .bgLhz .. | .bgLws .. | .bgLwz .. | .bgSb .. | .bgSd .. | .bgSh .. | .bgSw ..
  | .fgBeqS .. | .fgBgeS .. | .fgBgtS .. | .fgBneS .. | .bwAddci .. | .bwAddi .. | .bwAndi ..
  | .bwBeq .. | .bwBeqi .. | .bwBf .. | .bwBges .. | .bwBgesi .. | .bwBgeu .. | .bwBgeui ..
  | .bwBgts .. | .bwBgtsi .. | .bwBgtu .. | .bwBgtui .. | .bwBlesi .. | .bwBleui ..
  | .bwBltsi .. | .bwBltui .. | .bwBne .. | .bwBnei .. | .bwBnf .. | .bwDivi .. | .bwDivui ..
  | .bwJ .. | .bwJa .. | .bwJal .. | .bwJma .. | .bwJmal .. | .bwLbz .. | .bwLd .. | .bwLhz ..
  | .bwLma .. | .bwLws .. | .bwLwz .. | .bwMfspr .. | .bwMtspr .. | .bwMuli .. | .bwOri ..
  | .bwSb .. | .bwSd .. | .bwSfeqi .. | .bwSfgesi .. | .bwSfgeui .. | .bwSfgtsi ..
  | .bwSfgtui .. | .bwSflesi .. | .bwSfleui .. | .bwSfltsi .. | .bwSfltui .. | .bwSfnei ..
  | .bwSh .. | .bwSma .. | .bwSw .. | .bwXori .. | .fwBeqS .. | .fwBgeS .. | .fwBgtS ..
  | .fwBneS .. | .bJalr .. | .bMac .. | .bMacs .. | .bSys .. | .bSubs .. | .bSfges ..
  | .bSfgeu .. | .bSfles .. | .bSfleu .. | .bAddic .. | .bNot .. | .bMovhi .. | .bCov
  | .bBles .. | .bBleu .. | .bBlts .. | .bBltu .. | .bSflts .. | .bSfltu .. | .fAbsS ..
  | .fBleS .. | .fBltS .. => true

end Sys2Proof
end

