-- ==== Sys2Proof/Decode.lean ====
section
/-! DEFINITION. Decoding and encoding of the 43 forms whose bit patterns the spec has
(`spec/30_encoding.md` R91 to R98, R112 to R125). Every other form has no encoding in the spec: no bytes
decode to it (R125), and it is run from its assembly-level placement (R122; logs 8, 9). -/

namespace Sys2Proof

/-- Why bytes are no instruction. -/
inductive DecodeError where
  /-- No recovered pattern matches (R125). -/
  | unknownEncoding
  /-- `000001 00000 AAAAA` with A of 3 to 31 (`spec/41_logic_move.md` R228). -/
  | reservedBtMov
  /-- Fewer bytes than the length class needs; the machine's fetch always supplies enough. -/
  | truncated
  deriving DecidableEq, Repr

/-- The length class that the six leading bits of the first byte fix, for the ten recovered primary
opcodes (R91). -/
def lengthClass (b0 : Byte) : Option LenClass :=
  match b0.extractLsb' 2 6 with
  | 0b000000#6 | 0b000001#6 => some .bt
  | 0b001111#6 | 0b011000#6 | 0b011001#6 | 0b011010#6 => some .bn
  | 0b011011#6 | 0b011100#6 | 0b011101#6 | 0b011111#6 => some .bn
  | _ => none

/-- The 16-bit words: formats BT-I and BT-R (R94, R95, R112, R113). The system instructions are tested
before `bt.mov` (R131), `b.nop` before `bt.addi` (R126). -/
def decodeBt (w : BitVec 16) : Except DecodeError Instr :=
  let D : RegNum := w.extractLsb' 5 5
  let A : RegNum := w.extractLsb' 0 5
  let G : BitVec 4 := w.extractLsb' 0 4
  match w.extractLsb' 10 6, w.extractLsb' 4 1 with
  | 0b000000#6, 0b1#1 => if D = 0 then .ok (.btNop G) else .ok (.btAddi D G)
  | 0b000000#6, 0b0#1 => if D = 0 then .ok (.btTrap G) else .error .unknownEncoding
  | 0b000001#6, _ =>
    if D = 0 then
      match A with
      | 0b00000#5 => .ok .btRfe
      | 0b00001#5 => .ok .btEi
      | 0b00010#5 => .ok .btDi
      | _ => .error .reservedBtMov
    else .ok (.btMov D A)
  | _, _ => .error .unknownEncoding

/-- The three-register instructions by primary opcode and sub-opcode: format BN-R3 (R96, R114 to R119). -/
def tableR3 (op : BitVec 6) (sub : BitVec 3) : Option (RegNum → RegNum → RegNum → Instr) :=
  match op, sub with
  | 0b011000#6, 0b001#3 => some .bnOr
  | 0b011000#6, 0b010#3 => some .bnXor
  | 0b011000#6, 0b011#3 => some .bnNand
  | 0b011000#6, 0b101#3 => some .bnSub
  | 0b011000#6, 0b110#3 => some .bnSll
  | 0b011000#6, 0b111#3 => some .bnSrl
  | 0b011001#6, 0b000#3 => some .bnSra
  | 0b011001#6, 0b001#3 => some .bnRor
  | 0b011001#6, 0b010#3 => some .bnCmov
  | 0b011001#6, 0b011#3 => some .bnMul
  | 0b011001#6, 0b100#3 => some .bnDiv
  | 0b011001#6, 0b101#3 => some .bnDivu
  | 0b011001#6, 0b111#3 => some .bnAddc
  | 0b011010#6, 0b000#3 => some .bnSubb
  | 0b011010#6, 0b001#3 => some .bnFlb
  | 0b011010#6, 0b011#3 => some .bnMulh
  | 0b011010#6, 0b100#3 => some .bnMod
  | 0b011010#6, 0b111#3 => some .bnCmpxchg
  | 0b011100#6, 0b000#3 => some .fnAddS
  | 0b011100#6, 0b001#3 => some .fnSubS
  | 0b011100#6, 0b010#3 => some .fnMulS
  | 0b011100#6, 0b011#3 => some .fnDivS
  | 0b011101#6, 0b000#3 => some .bnAdds
  | _, _ => none

/-- The shift-immediate instructions by sub-opcode: format BN-SH (R97, R117). -/
def tableSh (sub : BitVec 2) : RegNum → RegNum → BitVec 5 → Instr :=
  match sub with
  | 0b00#2 => .bnSlli
  | 0b01#2 => .bnSrli
  | 0b10#2 => .bnSrai
  | _ => .bnRori

/-- The two-register instructions by opcode byte and sub-opcode: format BN-R2 (R98, R120, R121). -/
def tableR2 (op : BitVec 8) (sub : BitVec 3) : Option (RegNum → RegNum → Instr) :=
  match op, sub with
  | 0b00111110#8, 0b000#3 => some .bnExtbz
  | 0b00111110#8, 0b001#3 => some .bnExtbs
  | 0b00111110#8, 0b010#3 => some .bnExthz
  | 0b00111110#8, 0b011#3 => some .bnExths
  | 0b00111110#8, 0b100#3 => some .bnFf1
  | 0b00111110#8, 0b101#3 => some .bnClz
  | 0b00111110#8, 0b111#3 => some .bnSwab
  | 0b01111110#8, 0b000#3 => some .fnFtoiS
  | 0b01111110#8, 0b001#3 => some .fnItofS
  | _, _ => none

/-- The 24-bit words: formats BN-R3, BN-SH, BN-R2 (R96 to R98). Bit 2 of BN-SH and bits 15:14 of BN-R2
are not tested; bit 13 of BN-R2 is a fixed 0 (R124). -/
def decodeBn (w : BitVec 24) : Except DecodeError Instr :=
  match w.extractLsb' 18 6 with
  | 0b011011#6 =>
    .ok (tableSh (w.extractLsb' 0 2) (w.extractLsb' 13 5) (w.extractLsb' 8 5) (w.extractLsb' 3 5))
  | 0b001111#6 | 0b011111#6 =>
    match w.extractLsb' 13 1, tableR2 (w.extractLsb' 16 8) (w.extractLsb' 0 3) with
    | 0b0#1, some form => .ok (form (w.extractLsb' 3 5) (w.extractLsb' 8 5))
    | _, _ => .error .unknownEncoding
  | _ =>
    match tableR3 (w.extractLsb' 18 6) (w.extractLsb' 0 3) with
    | some form => .ok (form (w.extractLsb' 13 5) (w.extractLsb' 8 5) (w.extractLsb' 3 5))
    | none => .error .unknownEncoding

/-- The instruction at the head of a list of bytes, most significant byte first (R92), with the bytes
after it. -/
def decode (bytes : List Byte) : Except DecodeError (Instr × List Byte) :=
  match bytes with
  | [] => .error .truncated
  | b0 :: rest =>
    match lengthClass b0, rest with
    | some .bt, b1 :: after => (decodeBt (b0 ++ b1)).map fun i => (i, after)
    | some .bn, b1 :: b2 :: after => (decodeBn (b0 ++ b1 ++ b2)).map fun i => (i, after)
    | some _, _ => .error .truncated
    | none, _ => .error .unknownEncoding

/-- An instruction word of a recovered class (R90). -/
inductive InsnWord where
  | w16 (w : BitVec 16)
  | w24 (w : BitVec 24)
  deriving DecidableEq, Repr

/-- The bytes of an instruction word in ascending address order: most significant first (R92). -/
def InsnWord.bytes : InsnWord → List Byte
  | .w16 w => [w.extractLsb' 8 8, w.extractLsb' 0 8]
  | .w24 w => [w.extractLsb' 16 8, w.extractLsb' 8 8, w.extractLsb' 0 8]

/-- Format BT-I (R94). -/
def wordBtI (op : BitVec 6) (D : RegNum) (s : BitVec 1) (G : BitVec 4) : Option InsnWord :=
  some (.w16 (op ++ D ++ s ++ G))

/-- Format BT-R (R95). -/
def wordBtR (op : BitVec 6) (D A : RegNum) : Option InsnWord :=
  some (.w16 (op ++ D ++ A))

/-- Format BN-R3 (R96). -/
def wordR3 (op : BitVec 6) (D A B : RegNum) (sub : BitVec 3) : Option InsnWord :=
  some (.w24 (op ++ D ++ A ++ B ++ sub))

/-- Format BN-SH; the open bit 2 is written 0 (R97, R124). -/
def wordSh (op : BitVec 6) (D A : RegNum) (H : BitVec 5) (sub : BitVec 2) : Option InsnWord :=
  some (.w24 (op ++ D ++ A ++ H ++ 0#1 ++ sub))

/-- Format BN-R2: rA above rD, the open bits 15:14 written 0, bit 13 a fixed 0 (R98, R124). -/
def wordR2 (op : BitVec 8) (A D : RegNum) (sub : BitVec 3) : Option InsnWord :=
  some (.w24 (op ++ 0#3 ++ A ++ D ++ sub))

/-- The word of an instruction form, where the spec has its encoding (R112 to R121; `b.not` is the word
of `bn.nand rD,rA,rA`, R127); `none` for the forms whose encoding is lost (R122) and their aliases. -/
def encode : Instr → Option InsnWord
  | .bnOr D A B => wordR3 0b011000#6 D A B 0b001#3
  | .bnXor D A B => wordR3 0b011000#6 D A B 0b010#3
  | .bnNand D A B => wordR3 0b011000#6 D A B 0b011#3
  | .bnSub D A B => wordR3 0b011000#6 D A B 0b101#3
  | .bnSll D A B => wordR3 0b011000#6 D A B 0b110#3
  | .bnSrl D A B => wordR3 0b011000#6 D A B 0b111#3
  | .bnSra D A B => wordR3 0b011001#6 D A B 0b000#3
  | .bnRor D A B => wordR3 0b011001#6 D A B 0b001#3
  | .bnCmov D A B => wordR3 0b011001#6 D A B 0b010#3
  | .bnMul D A B => wordR3 0b011001#6 D A B 0b011#3
  | .bnDiv D A B => wordR3 0b011001#6 D A B 0b100#3
  | .bnDivu D A B => wordR3 0b011001#6 D A B 0b101#3
  | .bnAddc D A B => wordR3 0b011001#6 D A B 0b111#3
  | .bnSubb D A B => wordR3 0b011010#6 D A B 0b000#3
  | .bnFlb D A B => wordR3 0b011010#6 D A B 0b001#3
  | .bnMulh D A B => wordR3 0b011010#6 D A B 0b011#3
  | .bnMod D A B => wordR3 0b011010#6 D A B 0b100#3
  | .bnCmpxchg D A B => wordR3 0b011010#6 D A B 0b111#3
  | .fnAddS D A B => wordR3 0b011100#6 D A B 0b000#3
  | .fnSubS D A B => wordR3 0b011100#6 D A B 0b001#3
  | .fnMulS D A B => wordR3 0b011100#6 D A B 0b010#3
  | .fnDivS D A B => wordR3 0b011100#6 D A B 0b011#3
  | .bnAdds D A B => wordR3 0b011101#6 D A B 0b000#3
  | .bnSlli D A H => wordSh 0b011011#6 D A H 0b00#2
  | .bnSrli D A H => wordSh 0b011011#6 D A H 0b01#2
  | .bnSrai D A H => wordSh 0b011011#6 D A H 0b10#2
  | .bnRori D A H => wordSh 0b011011#6 D A H 0b11#2
  | .bnExtbz D A => wordR2 0b00111110#8 A D 0b000#3
  | .bnExtbs D A => wordR2 0b00111110#8 A D 0b001#3
  | .bnExthz D A => wordR2 0b00111110#8 A D 0b010#3
  | .bnExths D A => wordR2 0b00111110#8 A D 0b011#3
  | .bnFf1 D A => wordR2 0b00111110#8 A D 0b100#3
  | .bnClz D A => wordR2 0b00111110#8 A D 0b101#3
  | .bnSwab D A => wordR2 0b00111110#8 A D 0b111#3
  | .fnFtoiS D A => wordR2 0b01111110#8 A D 0b000#3
  | .fnItofS D A => wordR2 0b01111110#8 A D 0b001#3
  | .btAddi D G => wordBtI 0b000000#6 D 0b1#1 G
  | .btNop G => wordBtI 0b000000#6 0 0b1#1 G
  | .btTrap G => wordBtI 0b000000#6 0 0b0#1 G
  | .btMov D A => wordBtR 0b000001#6 D A
  | .btRfe => wordBtR 0b000001#6 0 0b00000#5
  | .btEi => wordBtR 0b000001#6 0 0b00001#5
  | .btDi => wordBtR 0b000001#6 0 0b00010#5
  | .bNot D A => wordR3 0b011000#6 D A A 0b011#3
  | .btAdd .. | .btMovi .. | .btJ .. | .bnAadd .. | .bnAdd .. | .bnAddi .. | .bnAnd ..
  | .bnAndi .. | .bnBc .. | .bnBeqi .. | .bnBf .. | .bnBgesi .. | .bnBgtsi .. | .bnBitrev ..
  | .bnBlesi .. | .bnBltsi .. | .bnBnc .. | .bnBnei .. | .bnBnf .. | .bnBno .. | .bnBo ..
  | .bnEntri .. | .bnJ .. | .bnJal .. | .bnJr .. | .bnLbz .. | .bnLd .. | .bnLhz .. | .bnLws ..
  | .bnLwz .. | .bnMlwz .. | .bnModu .. | .bnMsw .. | .bnOri .. | .bnReti .. | .bnReturn
  | .bnRtnei .. | .bnSb .. | .bnSd .. | .bnSfeq .. | .bnSfeqi .. | .bnSfgesi .. | .bnSfgeui ..
  | .bnSfgts .. | .bnSfgtsi .. | .bnSfgtu .. | .bnSfgtui .. | .bnSflesi .. | .bnSfleui ..
  | .bnSfltsi .. | .bnSfltui .. | .bnSfne .. | .bnSfnei .. | .bnSh .. | .bnSw .. | .bgAddi ..
  | .bgBeq .. | .bgBeqi .. | .bgBf .. | .bgBges .. | .bgBgesi .. | .bgBgeu .. | .bgBgeui ..
  | .bgBgts .. | .bgBgtsi .. | .bgBgtu .. | .bgBgtui .. | .bgBlesi .. | .bgBleui ..
  | .bgBltsi .. | .bgBltui .. | .bgBne .. | .bgBnei .. | .bgBnf .. | .bgJ .. | .bgJal ..
  | .bgLbz .. | .bgLd .. | .bgLhz .. | .bgLws .. | .bgLwz .. | .bgSb .. | .bgSd .. | .bgSh ..
  | .bgSw .. | .fgBeqS .. | .fgBgeS .. | .fgBgtS .. | .fgBneS .. | .bwAddci .. | .bwAddi ..
  | .bwAndi .. | .bwBeq .. | .bwBeqi .. | .bwBf .. | .bwBges .. | .bwBgesi .. | .bwBgeu ..
  | .bwBgeui .. | .bwBgts .. | .bwBgtsi .. | .bwBgtu .. | .bwBgtui .. | .bwBlesi ..
  | .bwBleui .. | .bwBltsi .. | .bwBltui .. | .bwBne .. | .bwBnei .. | .bwBnf .. | .bwDivi ..
  | .bwDivui .. | .bwJ .. | .bwJa .. | .bwJal .. | .bwJma .. | .bwJmal .. | .bwLbz .. | .bwLd ..
  | .bwLhz .. | .bwLma .. | .bwLws .. | .bwLwz .. | .bwMfspr .. | .bwMtspr .. | .bwMuli ..
  | .bwOri .. | .bwSb .. | .bwSd .. | .bwSfeqi .. | .bwSfgesi .. | .bwSfgeui .. | .bwSfgtsi ..
  | .bwSfgtui .. | .bwSflesi .. | .bwSfleui .. | .bwSfltsi .. | .bwSfltui .. | .bwSfnei ..
  | .bwSh .. | .bwSma .. | .bwSw .. | .bwXori .. | .fwBeqS .. | .fwBgeS .. | .fwBgtS ..
  | .fwBneS .. | .bJalr .. | .bMac .. | .bMacs .. | .bSys .. | .bSubs .. | .bSfges ..
  | .bSfgeu .. | .bSfles .. | .bSfleu .. | .bAddic .. | .bMovhi .. | .bCov | .bBles ..
  | .bBleu .. | .bBlts .. | .bBltu .. | .bSflts .. | .bSfltu .. | .fAbsS .. | .fBleS ..
  | .fBltS .. => none

/-- The bytes of an instruction form, where the spec has its encoding. -/
def encodeBytes (i : Instr) : Option (List Byte) := (encode i).map InsnWord.bytes

/-- The `n` low bytes of the number `w`, most significant first: an instruction of `n` bytes as it lies
in memory, `w` being its one word (R92). -/
def bytesOfNat (n w : Nat) : List Byte :=
  (List.range n).map fun k => BitVec.ofNat 8 (w >>> (8 * (n - 1 - k)))

/-- The bytes of a row of `spec/opcode_table.json` whose bits are `w`: the table numbers the bits of one
word of `nbits` bits, laid out by `bytesOfNat`; the bytes after it, up to the longest class, are 0. -/
def tableBytes (nbits w : Nat) : List Byte :=
  bytesOfNat ((nbits + 7) / 8) w ++ List.replicate (LenClass.bw.bytes - (nbits + 7) / 8) 0

/-- The instruction of a row of `spec/opcode_table.json` whose bits are `w`. -/
def decodeTableWord (nbits w : Nat) : Option Instr :=
  match decode (tableBytes nbits w) with
  | .ok (i, _) => some i
  | .error _ => none

end Sys2Proof
end

