-- ==== Sys2Proof/Machine/Fetch.lean ====
section
/-! DEFINITION. Fetching the instruction at pc (`spec/20_memory.md` R70, R71, R76; `spec/30_encoding.md`
R91, R125): from the assembly-level program where a form is placed at pc, from the bytes elsewhere. -/

namespace Sys2Proof.Machine

/-- The form placed at an address, if any (`spec/92_eei_decisions.md` D1; log 8). -/
def placedAt : List (Nat × Instr) → Nat → Option Instr
  | [], _ => none
  | (k, i) :: l, a => if k = a then some i else placedAt l a

/-- Why the `n` bytes at pc cannot be fetched: one lies outside the map (`spec/20_memory.md` R72), or a
store of this run has written one (R76). -/
def fetchStop (s : State) (n : Nat) : Option Refusal :=
  if !permitsAll s.params .read s.pc n then some .unmapped
  else if (List.range n).any fun k => s.stored.contains (addrAt s.pc k).toNat then some .selfModifyingCode
  else none

/-- The refusal for bytes that are no instruction (`spec/30_encoding.md` R125, `spec/41_logic_move.md`
R228). -/
def decodeRefusal : DecodeError → Refusal
  | .reservedBtMov => .reservedBtMov
  | .unknownEncoding | .truncated => .unknownEncoding

/-- The instruction of an assembly-level placement: it occupies the bytes of its length. -/
def fetchPlaced (s : State) (i : Instr) : Except Refusal Instr :=
  if i.wellFormed then
    match fetchStop s (instrLen s.params i) with
    | some r => .error r
    | none => .ok i
  else .error .unknownEncoding

/-- The instruction in the bytes at pc: the first byte fixes the length (R91). -/
def fetchBytes (s : State) : Except Refusal Instr :=
  match fetchStop s 1 with
  | some r => .error r
  | none =>
    match lengthClass (s.readByte s.pc) with
    | none => .error .unknownEncoding
    | some c =>
      match fetchStop s c.bytes with
      | some r => .error r
      | none =>
        match decode (s.bytesAt s.pc c.bytes) with
        | .ok (i, _) => .ok i
        | .error e => .error (decodeRefusal e)

/-- The instruction at pc, or why there is none (`spec/00_scope.md` R8, steps 2 and 3). -/
def fetch (s : State) : Except Refusal Instr :=
  match placedAt s.asm s.pc.toNat with
  | some i => fetchPlaced s i
  | none => fetchBytes s

/-- The load of a program's bytes from outside the machine: memory changes, `stored` does not
(`spec/70_reset_and_hazards.md` R492). -/
def Memory.load : Memory → Word → List Byte → Memory
  | m, _, [] => m
  | m, a, b :: l => Memory.load (m.insert a.toNat b) (a + 1) l

/-- The bytes of the instruction placed at pc as a loader does it: nothing else is placed at pc, the
bytes count as loaded, and no interrupt is requested at this boundary (log 31). -/
def State.loadAtPc (s : State) (bytes : List Byte) : State :=
  { s with
    mem := s.mem.load s.pc bytes
    asm := s.asm.filter fun e => e.1 != s.pc.toNat
    stored := s.stored.filter fun a => !((List.range bytes.length).any fun k => (addrAt s.pc k).toNat == a)
    irq := s.irq.map fun c => { c with pending := false } }

end Sys2Proof.Machine
end

