-- ==== Sys2Proof/Machine/Interrupt.lean ====
section
/-! DEFINITION. Interrupts (`spec/60_exceptions.md` R460 to R462): which request is accepted at an
instruction boundary, taking it, and the platform's changes of its requests between steps (log 19). -/

namespace Sys2Proof.Machine

/-- Whether the enable bit that admits a class is 1 (R460). -/
def gateOpen (s : State) : Gate → Bool
  | .iee => s.flagIee
  | .tee => s.flagTee

/-- The classes that may be taken at this boundary: pending and enabled (R460). -/
def acceptable (s : State) : List IrqClass := s.irq.filter fun c => c.pending && gateOpen s c.gate

/-- The class taken at this boundary, if any: any acceptable one or none, a free choice (R460, R462). -/
def acceptedInterrupt (s : State) : Option IrqClass :=
  match acceptable s with
  | [] => none
  | l => l[Config.irqTake s.draws]?

/-- Taking an interrupt: EPCR receives the address of the instruction not executed (R454, R456, R460). -/
def takeInterrupt (c : IrqClass) (s : State) : State := enterException c.vec s.pc s

/-- The requests as the platform sets them at boundary `n`, from class `i` on (R460, R461). -/
def refreshIrq (n i : Nat) : List IrqClass → List IrqClass
  | [] => []
  | c :: l => { c with pending := Config.irqPending n i } :: refreshIrq n (i + 1) l

/-- The platform's change of its requests after a step; a platform without classes makes none (R460). -/
def platformTick (s : State) : State :=
  match s.irq with
  | [] => s
  | l => { s with irq := refreshIrq s.draws 0 l, draws := s.draws + 1 }

end Sys2Proof.Machine
end

