-- ==== Sys2Proof/Machine/Step.lean ====
section
/-! DEFINITION. One step of the machine (`spec/00_scope.md` R8): an interrupt, or the instruction at pc. -/

namespace Sys2Proof.Machine

/-- One step (R8): an accepted interrupt, else fetch, decode and execute; then the platform may change
its requests. -/
def step (s : State) : Host.Outcome State Fault Refusal :=
  match acceptedInterrupt s with
  | some c => .next (platformTick (takeInterrupt c s))
  | none =>
    match fetch s with
    | .error r => .refused r
    | .ok i =>
      match exec i s with
      | .next t => .next (platformTick t)
      | .fault f => .fault f
      | .refused r => .refused r

/-- The state with an instruction of `nbits` bits `w` where the next step fetches: at pc, as a loader
places it (log 31). -/
def State.withFetchWord (s : State) (nbits w : Nat) : State := s.loadAtPc (tableBytes nbits w)

end Sys2Proof.Machine
end

