-- ==== Sys2Proof/Safety.lean ====
section
/-! DEFINITION. The terms in which the statements about the machine are written: what a well-formed
state is, what an instruction leaves unchanged, and the shapes of a completed instruction. -/

namespace Sys2Proof.Machine

/-! ### Well-formed states -/

/-- The five positions of SR_BIT. -/
def srPositions (b : SrBits) : List BitPos := [b.f, b.cy, b.ov, b.iee, b.tee]

/-- The ten positions of UR_BIT. -/
def urPositions (b : UrBits) : List BitPos :=
  [b.macovh, b.macovl, b.maccy, b.fov, b.fun_, b.fsn, b.fqn, b.fix, b.fiv, b.fdz]

/-- The numbers of the mapped special-purpose registers, the six named ones first. -/
def sprNumbers (a : SprAddr) (extra : List (Word × Word)) : List Word :=
  [a.sr, a.esr, a.epcr, a.machi, a.maclo, a.ur].filterMap id ++ extra.map Prod.fst

/-- The positions of SR_BIT are distinct (`spec/10_state.md` R26), those of UR_BIT too (R33). -/
structure ParamsWf (p : Params) : Prop where
  sr : (srPositions p.srBit).Nodup
  ur : (urPositions p.urBit).Nodup

/-- The invariant of the machine: memory in canonical form, the marked addresses strictly rising, bit
positions distinct, and no two special-purpose registers at one number (`spec/10_state.md` R40). -/
structure StateWf (s : State) : Prop where
  mem : s.mem.wf = true
  stored : risingFrom 0 s.stored = true
  params : ParamsWf s.params
  spr : (sprNumbers s.params.sprAddr s.extraSpr).Nodup

/-! ### Frames -/

/-- All 32 bit positions. -/
def allBits : List BitPos := (List.range 32).map (BitVec.ofNat 5)

/-- The `n` addresses from `a`. -/
def addrsFrom (a : Word) (n : Nat) : List Word := (List.range n).map (addrAt a)

/-- The `n` registers from `r`. -/
def regsFrom (r : RegNum) (n : Nat) : List RegNum := (List.range n).map fun i => r + BitVec.ofNat 5 i

/-- What an instruction may change besides pc: general registers, bits of SR, bits of UR, stored bytes,
the accumulator, ESR and EPCR, the platform's special-purpose registers. -/
structure Frame where
  regs : List RegNum := []
  sr : List BitPos := []
  ur : List BitPos := []
  mem : List Word := []
  mac : Bool := false
  exc : Bool := false
  extra : Bool := false

/-- Everything outside the frame is in `t` as it is in `s`; the bytes of `mem` are marked as stored. -/
structure Keeps (f : Frame) (s t : State) : Prop where
  regs : ∀ r, r ∉ f.regs → t.reg r = s.reg r
  sr : ∀ b, b ∉ f.sr → bitAt t.sr b = bitAt s.sr b
  ur : ∀ b, b ∉ f.ur → bitAt t.ur b = bitAt s.ur b
  mem : ∀ a, a ∉ f.mem → t.readByte a = s.readByte a
  stored : ∀ n, n ∈ t.stored ↔ n ∈ s.stored ∨ ∃ a ∈ f.mem, a.toNat = n
  mac : f.mac = false → t.machi = s.machi ∧ t.maclo = s.maclo
  exc : f.exc = false → t.esr = s.esr ∧ t.epcr = s.epcr
  extra : f.extra = false → t.extraSpr = s.extraSpr
  asm : t.asm = s.asm
  params : t.params = s.params
  irq : t.irq = s.irq

/-! ### Shapes of completion -/

/-- `exec i s` answers a next state, and `P` holds of it. -/
def Completes (i : Instr) (s : State) (P : State → Prop) : Prop := ∃ t, exec i s = .next t ∧ P t

/-- x[r] reads as `v`; x[0] reads as 0 whatever was written to it (`spec/10_state.md` R21). -/
def Holds (t : State) (r : RegNum) (v : Word) : Prop := t.reg r = if r = 0 then 0 else v

/-- `t` is at the address `n` bytes after `s`. -/
def Advanced (s t : State) (n : Nat) : Prop := t.pc = s.pc + BitVec.ofNat 32 n

/-- `i` completes with x[rD] = `v`, pc `n` further, and nothing else changed. -/
def SetsReg (i : Instr) (s : State) (rD : RegNum) (v : Word) (n : Nat) : Prop :=
  Completes i s fun t => Holds t rD v ∧ Advanced s t n ∧ Keeps { regs := [rD] } s t

/-- `i` completes with bit k of x[rD] = `f k`, pc `n` further, and nothing else changed. -/
def SetsBits (i : Instr) (s : State) (rD : RegNum) (f : Nat → Bool) (n : Nat) : Prop :=
  ∃ v : Word, (∀ k, k < 32 → v.getLsbD k = f k) ∧ SetsReg i s rD v n

/-- `i` completes with x[rD] = `v`, SR.OV = `ov`, SR.CY = `cy`, pc `n` further, and nothing else changed. -/
def SetsRegOvCy (i : Instr) (s : State) (rD : RegNum) (v : Word) (ov cy : Prop) (n : Nat) : Prop :=
  Completes i s fun t =>
    Holds t rD v ∧ (t.flagOv = true ↔ ov) ∧ (t.flagCy = true ↔ cy) ∧ Advanced s t n ∧
      Keeps { regs := [rD], sr := [s.params.srBit.ov, s.params.srBit.cy] } s t

/-- An exact integer lies outside the signed 32-bit range. -/
def Overflows (x : Int) : Prop := x < -2147483648 ∨ 2147483647 < x

/-- `i` adds `a`, `b` and the carry `c` into x[rD] with the flags of `spec/40_arith.md` R150. -/
def AddsInto (i : Instr) (s : State) (rD : RegNum) (a b : Word) (c n : Nat) : Prop :=
  SetsRegOvCy i s rD (BitVec.ofInt 32 (a.toInt + b.toInt + c)) (Overflows (a.toInt + b.toInt + c))
    (4294967296 ≤ a.toNat + b.toNat + c) n

/-- `i` subtracts `b` and the borrow `c` from `a` into x[rD] with the flags of `spec/40_arith.md` R150. -/
def SubtractsInto (i : Instr) (s : State) (rD : RegNum) (a b : Word) (c n : Nat) : Prop :=
  SetsRegOvCy i s rD (BitVec.ofInt 32 (a.toInt - b.toInt - c)) (Overflows (a.toInt - b.toInt - c))
    (a.toNat < b.toNat + c) n

/-- `i` completes with SR.F = 1 exactly where `rel` holds, pc `n` further, and nothing else changed. -/
def SetsF (i : Instr) (s : State) (rel : Prop) (n : Nat) : Prop :=
  Completes i s fun t =>
    (t.flagF = true ↔ rel) ∧ Advanced s t n ∧ Keeps { sr := [s.params.srBit.f] } s t

/-- `i` completes at `target` with nothing but pc changed. -/
def GoesTo (i : Instr) (s : State) (target : Word) : Prop :=
  Completes i s fun t => t.pc = target ∧ Keeps {} s t

/-- `i` completes at its own address plus `off` where `cond` holds, `n` bytes further where it does not,
with nothing but pc changed (`spec/43_branch.md` R280). -/
def Branches (i : Instr) (s : State) (cond : Prop) (off : Word) (n : Nat) : Prop :=
  (cond → GoesTo i s (s.pc + off)) ∧ (¬ cond → GoesTo i s (s.pc + BitVec.ofNat 32 n))

/-- The signed quotient `q` and remainder `r` of `a` by `b`, truncating toward zero (`spec/40_arith.md`
R172). -/
def Truncates (a b q r : Int) : Prop := a = q * b + r ∧ r.natAbs < b.natAbs ∧ 0 ≤ r * a

/-! ### Exceptions -/

/-- SR after exception entry (`spec/60_exceptions.md` R457): under the spec's default IEE and TEE are 0
and every other bit is kept, under the platform's own function it is that function's value. -/
def EntrySr (s t : State) : Prop :=
  match s.params.srOnEntry with
  | .clearEnables =>
    t.flagIee = false ∧ t.flagTee = false ∧
      ∀ b, b ≠ s.params.srBit.iee → b ≠ s.params.srBit.tee → bitAt t.sr b = bitAt s.sr b
  | .platform => t.sr = Config.srOnEntry s.sr

/-- `t` is `s` after the entry sequence of `spec/60_exceptions.md` R454. -/
def Entered (s t : State) (vec epc : Word) : Prop :=
  t.esr = s.sr ∧ t.epcr = epc ∧ EntrySr s t ∧ t.pc = vec ∧ Keeps { sr := allBits, exc := true } s t

/-- `i` completes by entering an exception. -/
def EntersException (i : Instr) (s : State) (vec epc : Word) : Prop :=
  Completes i s fun t => Entered s t vec epc

/-- The address an EPCR rule saves for an instruction of `n` bytes (`spec/60_exceptions.md` R456). -/
def savedPc (e : EpcrRule) (s : State) (n : Nat) : Word :=
  match e with
  | .self => s.pc
  | .next => s.pc + BitVec.ofNat 32 n

/-- The address the platform's alignment exception saves for an instruction of `n` bytes
(`spec/60_exceptions.md` R455). -/
def savedPcAlign (s : State) (n : Nat) : Word :=
  match s.params.epcrOnAlign with
  | .rule e => savedPc e s n
  | .platform => Config.epcrOnAlign s.pc n

/-! ### Writers -/

/-- The forms with a data access of two or four bytes, the only ones whose access can be misaligned
(`spec/20_memory.md` R64). A form that is not named here makes none. -/
inductive MakesAlignedAccess : Instr → Prop
  | bnLhz {rD M rA} : MakesAlignedAccess (.bnLhz rD M rA)
  | bgLhz {rD X rA} : MakesAlignedAccess (.bgLhz rD X rA)
  | bwLhz {rD iOff rA} : MakesAlignedAccess (.bwLhz rD iOff rA)
  | bnLwz {rD K rA} : MakesAlignedAccess (.bnLwz rD K rA)
  | bgLwz {rD W rA} : MakesAlignedAccess (.bgLwz rD W rA)
  | bwLwz {rD wOff rA} : MakesAlignedAccess (.bwLwz rD wOff rA)
  | bnLws {rD K rA} : MakesAlignedAccess (.bnLws rD K rA)
  | bgLws {rD W rA} : MakesAlignedAccess (.bgLws rD W rA)
  | bwLws {rD wOff rA} : MakesAlignedAccess (.bwLws rD wOff rA)
  | bnSh {M rA rB} : MakesAlignedAccess (.bnSh M rA rB)
  | bgSh {X rA rB} : MakesAlignedAccess (.bgSh X rA rB)
  | bwSh {iOff rA rB} : MakesAlignedAccess (.bwSh iOff rA rB)
  | bnSw {K rA rB} : MakesAlignedAccess (.bnSw K rA rB)
  | bgSw {W rA rB} : MakesAlignedAccess (.bgSw W rA rB)
  | bwSw {wOff rA rB} : MakesAlignedAccess (.bwSw wOff rA rB)
  | bnMlwz {rD K rA C} : MakesAlignedAccess (.bnMlwz rD K rA C)
  | bnMsw {K rA rB C} : MakesAlignedAccess (.bnMsw K rA rB C)
  | bwLma {rD z} : MakesAlignedAccess (.bwLma rD z)
  | bwSma {rB z} : MakesAlignedAccess (.bwSma rB z)
  | bnAadd {rD rA rB} : MakesAlignedAccess (.bnAadd rD rA rB)
  | bnCmpxchg {rD rA rB} : MakesAlignedAccess (.bnCmpxchg rD rA rB)
  | bwJma {rD z} : MakesAlignedAccess (.bwJma rD z)
  | bwJmal {rD z} : MakesAlignedAccess (.bwJmal rD z)
  | bnEntri {F N} : MakesAlignedAccess (.bnEntri F N)
  | bnReti {F N} : MakesAlignedAccess (.bnReti F N)
  | bnRtnei {F N} : MakesAlignedAccess (.bnRtnei F N)

/-- `i`, executed in `s`, ended in the platform's alignment exception (`spec/60_exceptions.md` R455). -/
def RaisedAlignment (i : Instr) (s t : State) : Prop :=
  MakesAlignedAccess i ∧ s.params.misaligned = .fault ∧ t.pc = s.params.vecAlign

/-- The forms that write SR as a whole: exception entry, the return from it, `b.mtspr`
(`spec/60_exceptions.md` R461, `spec/42_compare.md`, introduction). -/
inductive WritesWholeSr : Instr → Prop
  | bSys {imm} : WritesWholeSr (.bSys imm)
  | btTrap {G} : WritesWholeSr (.btTrap G)
  | btRfe : WritesWholeSr .btRfe
  | bwMtspr {rA rB o} : WritesWholeSr (.bwMtspr rA rB o)

/-- The forms that write SR.F alone: the compares and `b.cmpxchg` (`spec/10_state.md` R26). -/
inductive WritesF : Instr → Prop
  | bnSfeq {rA rB} : WritesF (.bnSfeq rA rB)
  | bnSfne {rA rB} : WritesF (.bnSfne rA rB)
  | bSfges {rA rB} : WritesF (.bSfges rA rB)
  | bSfgeu {rA rB} : WritesF (.bSfgeu rA rB)
  | bnSfgts {rA rB} : WritesF (.bnSfgts rA rB)
  | bnSfgtu {rA rB} : WritesF (.bnSfgtu rA rB)
  | bSfles {rA rB} : WritesF (.bSfles rA rB)
  | bSfleu {rA rB} : WritesF (.bSfleu rA rB)
  | bSflts {rA rB} : WritesF (.bSflts rA rB)
  | bSfltu {rA rB} : WritesF (.bSfltu rA rB)
  | bnSfeqi {rA O} : WritesF (.bnSfeqi rA O)
  | bnSfnei {rA O} : WritesF (.bnSfnei rA O)
  | bnSfgesi {rA O} : WritesF (.bnSfgesi rA O)
  | bnSfgeui {rA O} : WritesF (.bnSfgeui rA O)
  | bnSfgtsi {rA O} : WritesF (.bnSfgtsi rA O)
  | bnSfgtui {rA O} : WritesF (.bnSfgtui rA O)
  | bnSflesi {rA O} : WritesF (.bnSflesi rA O)
  | bnSfleui {rA O} : WritesF (.bnSfleui rA O)
  | bnSfltsi {rA O} : WritesF (.bnSfltsi rA O)
  | bnSfltui {rA O} : WritesF (.bnSfltui rA O)
  | bwSfeqi {rA g} : WritesF (.bwSfeqi rA g)
  | bwSfnei {rA g} : WritesF (.bwSfnei rA g)
  | bwSfgesi {rA g} : WritesF (.bwSfgesi rA g)
  | bwSfgeui {rA g} : WritesF (.bwSfgeui rA g)
  | bwSfgtsi {rA g} : WritesF (.bwSfgtsi rA g)
  | bwSfgtui {rA g} : WritesF (.bwSfgtui rA g)
  | bwSflesi {rA g} : WritesF (.bwSflesi rA g)
  | bwSfleui {rA g} : WritesF (.bwSfleui rA g)
  | bwSfltsi {rA g} : WritesF (.bwSfltsi rA g)
  | bwSfltui {rA g} : WritesF (.bwSfltui rA g)
  | bnCmpxchg {rD rA rB} : WritesF (.bnCmpxchg rD rA rB)

/-- The forms of the sixteen instructions that write SR.OV and SR.CY (`spec/10_state.md` R26). -/
inductive WritesOvCy : Instr → Prop
  | btAdd {rD rA} : WritesOvCy (.btAdd rD rA)
  | bnAdd {rD rA rB} : WritesOvCy (.bnAdd rD rA rB)
  | bnAddc {rD rA rB} : WritesOvCy (.bnAddc rD rA rB)
  | bwAddci {rD rA p} : WritesOvCy (.bwAddci rD rA p)
  | bAddic {rD rA p} : WritesOvCy (.bAddic rD rA p)
  | btAddi {rD G} : WritesOvCy (.btAddi rD G)
  | bnAddi {rD rA O} : WritesOvCy (.bnAddi rD rA O)
  | bgAddi {rD rA Y} : WritesOvCy (.bgAddi rD rA Y)
  | bwAddi {rD rA g} : WritesOvCy (.bwAddi rD rA g)
  | bnAdds {rD rA rB} : WritesOvCy (.bnAdds rD rA rB)
  | bnSub {rD rA rB} : WritesOvCy (.bnSub rD rA rB)
  | bnSubb {rD rA rB} : WritesOvCy (.bnSubb rD rA rB)
  | bSubs {rD rA rB} : WritesOvCy (.bSubs rD rA rB)
  | bnMul {rD rA rB} : WritesOvCy (.bnMul rD rA rB)
  | bwMuli {rD rA p} : WritesOvCy (.bwMuli rD rA p)
  | bnDiv {rD rA rB} : WritesOvCy (.bnDiv rD rA rB)
  | bwDivi {rD rA p} : WritesOvCy (.bwDivi rD rA p)
  | bnDivu {rD rA rB} : WritesOvCy (.bnDivu rD rA rB)
  | bwDivui {rD rA o} : WritesOvCy (.bwDivui rD rA o)
  | bMovhi {rA I} : WritesOvCy (.bMovhi rA I)

/-! ### Memory -/

/-- The weight, as a power of 256, of the byte at offset `k` of an `n`-byte datum (`spec/20_memory.md`
R62). -/
def byteWeight (e : Endian) (n k : Nat) : Nat :=
  match e with
  | .big => n - 1 - k
  | .little => k

/-- The `n`-byte number in memory at `a` (`spec/20_memory.md` R62). -/
def numberAt (s : State) (a : Word) (n : Nat) : Nat :=
  ((List.range n).map fun k => 256 ^ byteWeight s.params.endian n k * (s.readByte (addrAt a k)).toNat).sum

/-- The word in memory at `a`. -/
def wordAt (s : State) (a : Word) : Word := BitVec.ofNat 32 (numberAt s a 4)

/-- Memory at `a` holds the `n` low bytes of `v` (`spec/20_memory.md` R63). -/
def StoredAt (t : State) (a : Word) (n : Nat) (v : Word) : Prop :=
  ∀ k, k < n →
    t.readByte (addrAt a k) = BitVec.ofNat 8 (v.toNat / 256 ^ byteWeight t.params.endian n k)

/-- An access of `n` bytes at `a` is aligned or the policy splits it (`spec/20_memory.md` R64). -/
def AlignedOrSplit (s : State) (a : Word) (n : Nat) : Prop :=
  a.toNat % n = 0 ∨ s.params.misaligned = .split

/-- An access of `n` bytes at `a` is performed: aligned or split, and every byte ordinary memory
(`spec/20_memory.md` R64, R72). -/
def Accessible (s : State) (a : Word) (n : Nat) : Prop :=
  AlignedOrSplit s a n ∧ ∀ k, k < n → mapped s.params (addrAt a k) = true

/-- A write of `n` bytes at `a` is performed: an access there is, and no byte is read-only memory
(`spec/60_exceptions.md` R455). -/
def Writable (s : State) (a : Word) (n : Nat) : Prop :=
  Accessible s a n ∧ ∀ k, k < n → isReadOnly s.params (addrAt a k) = false

/-- `i` loads the `n` bytes at `a` into x[rD], being `len` bytes long. -/
def Loads (i : Instr) (s : State) (rD : RegNum) (a : Word) (n len : Nat) : Prop :=
  Accessible s a n → SetsReg i s rD (BitVec.ofNat 32 (numberAt s a n)) len

/-- `i` stores the `n` low bytes of `v` at `a`, being `len` bytes long, and changes no other byte. -/
def Stores (i : Instr) (s : State) (a : Word) (n : Nat) (v : Word) (len : Nat) : Prop :=
  Writable s a n →
    Completes i s fun t =>
      StoredAt t a n v ∧ Advanced s t len ∧ Keeps { mem := addrsFrom a n } s t

/-- How `i`, being `len` bytes long, stops at its access of `n` bytes at `a`: a misaligned one is refused
or raises the platform's exception as the policy says (`spec/20_memory.md` R64), one outside the map is
refused (R72), and so is a write to read-only memory (`spec/60_exceptions.md` R455). -/
def StopsAt (kind : AccessKind) (i : Instr) (s : State) (a : Word) (n len : Nat) : Prop :=
  (a.toNat % n ≠ 0 → s.params.misaligned = .refuse → exec i s = .refused .misaligned) ∧
  (a.toNat % n ≠ 0 → s.params.misaligned = .fault →
    EntersException i s s.params.vecAlign (savedPcAlign s len)) ∧
  (AlignedOrSplit s a n → (∃ k, k < n ∧ permits s.params kind (addrAt a k) = false) →
    exec i s = .refused .unmapped)

/-! ### Floating point -/

/-- UR holds the six flags of `spec/47_float.md` R422. -/
def HoldsFpFlags (t : State) (f : FpFlags) : Prop :=
  let b := t.params.urBit
  bitAt t.ur b.fov = f.ov ∧ bitAt t.ur b.fun_ = f.un ∧ bitAt t.ur b.fsn = f.sn ∧
    bitAt t.ur b.fqn = f.qn ∧ bitAt t.ur b.fix = f.ix ∧ bitAt t.ur b.fiv = f.iv

/-- The positions of the six floating-point flags. -/
def fpFlagBits (b : UrBits) : List BitPos := [b.fov, b.fun_, b.fsn, b.fqn, b.fix, b.fiv]

/-- `i` completes with x[rD] and the six flags of UR as `x` says, and nothing else changed. -/
def SetsFloat (i : Instr) (s : State) (rD : RegNum) (x : Word × FpFlags) : Prop :=
  Completes i s fun t =>
    Holds t rD x.1 ∧ HoldsFpFlags t x.2 ∧ Advanced s t 3 ∧
      Keeps { regs := [rD], ur := fpFlagBits s.params.urBit } s t

/-! ### Steps -/

/-- No interrupt is taken at this boundary. -/
def Quiet (s : State) : Prop := acceptedInterrupt s = none

/-- The `n` bytes at pc can be fetched: ordinary memory that no store of this run has written
(`spec/20_memory.md` R72, R76). -/
def Fetchable (s : State) (n : Nat) : Prop :=
  ∀ k, k < n → mapped s.params (addrAt s.pc k) = true ∧ (addrAt s.pc k).toNat ∉ s.stored

/-- The outcome of an instruction followed by the platform's change of its requests. -/
def thenTick : Result → Result
  | .next t => .next (platformTick t)
  | .fault f => .fault f
  | .refused r => .refused r

end Sys2Proof.Machine
end

