-- ==== Sys2Proof/Certificates/Slice0/Obligations.lean ====
section
/-! DEFINITION. The statements about the machine, one `def Obligations.<Name> : Prop` each, in the order of
`OBLIGATIONS.json`. Each docstring names the rules of `spec/` it formalises. -/

open Sys2Proof Sys2Proof.Machine

/-! ### Encoding, fetch and step -/

/-- Words written out from the figures (R94 to R98, R112 to R121) decode to the instructions they stand
for. -/
def Obligations.DecodeOfFigureWords : Prop :=
  decode [0x60, 0x64, 0x29] = .ok (.bnOr 3 4 5, []) ∧
  decode [0x64, 0x64, 0x2F] = .ok (.bnAddc 3 4 5, []) ∧
  decode [0x68, 0x64, 0x2F] = .ok (.bnCmpxchg 3 4 5, []) ∧
  decode [0x6C, 0x64, 0x42] = .ok (.bnSrai 3 4 8, []) ∧
  decode [0x70, 0x64, 0x2B] = .ok (.fnDivS 3 4 5, []) ∧
  decode [0x74, 0x64, 0x28] = .ok (.bnAdds 3 4 5, []) ∧
  decode [0x3E, 0x04, 0x1F] = .ok (.bnSwab 3 4, []) ∧
  decode [0x7E, 0x04, 0x19] = .ok (.fnItofS 3 4, []) ∧
  decode [0x00, 0x7F] = .ok (.btAddi 3 15, []) ∧
  decode [0x00, 0x1F] = .ok (.btNop 15, []) ∧
  decode [0x00, 0x03] = .ok (.btTrap 3, []) ∧
  decode [0x04, 0x64] = .ok (.btMov 3 4, []) ∧
  decode [0x04, 0x00] = .ok (.btRfe, []) ∧
  decode [0x04, 0x01] = .ok (.btEi, []) ∧
  decode [0x04, 0x02] = .ok (.btDi, [])

/-- Decoding the bytes of an encoded well-formed form gives the form back and leaves the bytes after it;
`b.not rD,rA` comes back as `bn.nand rD,rA,rA` (R112 to R121, R127). -/
def Obligations.DecodeEncodeRoundTrip : Prop :=
  ∀ (i : Instr) (w : InsnWord) (rest : List Byte), i.wellFormed = true → encode i = some w →
    decode (w.bytes ++ rest) =
      .ok (match i with | .bNot rD rA => .bnNand rD rA rA | _ => i, rest)

/-- What decodes is well-formed, has an encoding, and used as many bytes as its length class has; two
byte strings that decode alike differ only in the bits the figures leave open: bits 15:14 of BN-R2 and
bit 2 of BN-SH (R124). -/
def Obligations.DecodedFormsHaveEncodings : Prop :=
  ∀ (p : Params) (bytes rest : List Byte) (i : Instr), decode bytes = .ok (i, rest) →
    i.wellFormed = true ∧ bytes.length = instrLen p i + rest.length ∧
      ∃ w, encode i = some w ∧
        match w, bytes with
        | .w16 w, b0 :: b1 :: _ => w = b0 ++ b1
        | .w24 w, b0 :: b1 :: b2 :: _ =>
          w = b0 ++ b1 ++ b2 ∨
          (w.extractLsb' 18 6 = 0b011011#6 ∧ w = (b0 ++ b1 ++ b2) &&& ~~~ 4#24) ∨
          ((w.extractLsb' 16 8 = 0b00111110#8 ∨ w.extractLsb' 16 8 = 0b01111110#8) ∧
            w = (b0 ++ b1 ++ b2) &&& ~~~ 0xC000#24)
        | _, _ => False

/-- A step at bytes that match no recovered pattern is refused: first bytes outside the ten primary
opcodes, words of the ten without an instruction (R125), and `bt.mov r0,rA` with A of 3 to 31 (R228). -/
def Obligations.UndecodableBytesAreRefused : Prop :=
  ∀ s : State, Quiet s → placedAt s.asm s.pc.toNat = none → Fetchable s 1 →
    (lengthClass (s.readByte s.pc) = none → step s = .refused .unknownEncoding) ∧
    (∀ c, lengthClass (s.readByte s.pc) = some c → Fetchable s c.bytes →
      (decode (s.bytesAt s.pc c.bytes) = .error .unknownEncoding →
        step s = .refused .unknownEncoding) ∧
      (∀ A : RegNum, 3 ≤ A.toNat → c = .bt →
        s.readByte s.pc = 0x04#8 → s.readByte (addrAt s.pc 1) = A.setWidth 8 →
          step s = .refused .reservedBtMov))

/-- Where no interrupt is taken, a step runs the instruction at pc: the one its bytes decode to, or the
well-formed form placed there at assembly level; the platform's requests change after it (R8, R70, R71,
R91; the placement is the spec's decision D1, log 8). -/
def Obligations.StepRunsTheInstructionAtPc : Prop :=
  ∀ (s : State) (i : Instr), Quiet s →
    (∀ c rest, placedAt s.asm s.pc.toNat = none → lengthClass (s.readByte s.pc) = some c →
      Fetchable s c.bytes → decode (s.bytesAt s.pc c.bytes) = .ok (i, rest) →
        step s = thenTick (exec i s)) ∧
    (placedAt s.asm s.pc.toNat = some i → i.wellFormed = true → Fetchable s (instrLen s.params i) →
      step s = thenTick (exec i s))

/-- In every state that takes no interrupt, an instruction with a byte among its own that is marked as stored
by this run is not fetched: the step is refused, for a placed form and for bytes (R76, R492; the refusal is
the spec's decision D41, logs 10 and 26). Every store form marks exactly the bytes it stores: the clause
`stored` of `Keeps` in `PrologueBuildsFrame`, `StoresWriteMemory`, `MultipleStore`, `PointerTransfers` and
`Atomics`; `StepKeepsPlatform` says that marks stay. -/
def Obligations.StoredBytesAreNotFetched : Prop :=
  ∀ (s : State) (k : Nat), Quiet s → (addrAt s.pc k).toNat ∈ s.stored →
    (∀ i, placedAt s.asm s.pc.toNat = some i → i.wellFormed = true → k < instrLen s.params i →
      (∀ m, m < instrLen s.params i → mapped s.params (addrAt s.pc m) = true) →
        step s = .refused .selfModifyingCode) ∧
    (placedAt s.asm s.pc.toNat = none → k = 0 → mapped s.params s.pc = true →
      step s = .refused .selfModifyingCode) ∧
    (∀ c, placedAt s.asm s.pc.toNat = none → lengthClass (s.readByte s.pc) = some c → k < c.bytes →
      (∀ m, m < c.bytes → mapped s.params (addrAt s.pc m) = true) →
        step s = .refused .selfModifyingCode)

/-- Every step keeps the invariant: memory and marks in canonical form, bit positions distinct, no two
special-purpose registers at one number. -/
def Obligations.StepKeepsInvariant : Prop :=
  ∀ s t : State, StateWf s → step s = .next t → StateWf t

/-- The invariant holds after reset. -/
def Obligations.InvariantAtReset : Prop := StateWf State.reset

/-- After reset both interrupt enables are 0, x[0] is 0, and nothing is stored, placed or pending (R481;
every other value after reset is the model's choice, logs 2 to 5). -/
def Obligations.ResetLeavesInterruptsDisabled : Prop :=
  State.reset.flagIee = false ∧ State.reset.flagTee = false ∧ State.reset.reg 0 = 0 ∧
    State.reset.mem = [] ∧ State.reset.stored = [] ∧ State.reset.asm = [] ∧ Quiet State.reset

/-- No step changes the parameters of R3, the placed program, or the gates and vectors of the interrupt
classes; a byte once stored stays marked, and no byte of read-only memory changes (R3, R76, R455, R458, R460; how
read-only memory is described is the model's choice, log 33). -/
def Obligations.StepKeepsPlatform : Prop :=
  ∀ s t : State, step s = .next t →
    t.params = s.params ∧ t.asm = s.asm ∧
      t.irq.map (fun c => (c.gate, c.vec)) = s.irq.map (fun c => (c.gate, c.vec)) ∧
      (∀ a, a ∈ s.stored → a ∈ t.stored) ∧ (s.irq = [] → t.irq = []) ∧
      ∀ a, isReadOnly s.params a = true → t.readByte a = s.readByte a

/-- An interrupt is taken only where a class is pending and its enable bit is 1; the step then enters
its handler with EPCR = pc, and the instruction at pc does not run (R460, R456). -/
def Obligations.InterruptEntry : Prop :=
  ∀ (s : State) (c : IrqClass),
    (s.flagIee = false → s.flagTee = false → Quiet s) ∧
    (acceptedInterrupt s = some c →
      c ∈ s.irq ∧ c.pending = true ∧
        (match c.gate with | .iee => s.flagIee | .tee => s.flagTee) = true ∧
        ∃ u, step s = .next (platformTick u) ∧ Entered s u c.vec s.pc)

/-- Writing the low bytes of a word and reading them back gives those bytes as a number, whatever the
byte order; the byte at each offset is the one R63 names, and no other byte changes (R62, R63). -/
def Obligations.ReadAfterWrite : Prop :=
  ∀ (s t : State) (a v : Word) (n : Nat), n = 1 ∨ n = 2 ∨ n = 4 → memWrite s a n v = .ok t →
    memRead t a n = .ok (BitVec.ofNat 32 (v.toNat % 256 ^ n)) ∧ StoredAt t a n v ∧
      ∀ b, b ∉ addrsFrom a n → t.readByte b = s.readByte b

/-! ### Integer arithmetic -/

/-- Additions (R150, R151, R152, R156); `b.movhi` is `bw.addi` of `I << 16` to 0 (R229). With rD = r0, `bt.addi` is a
term that no word stands for: its word is `b.nop`, which keeps the flags (R231), and a placed one is not run
(log 29). -/
def Obligations.AdditionSetsSumAndFlags : Prop :=
  ∀ (s : State) (rD rA rB : RegNum) (G : BitVec 4) (O : BitVec 8) (Y I : BitVec 16) (g : BitVec 32),
    ParamsWf s.params →
    AddsInto (.btAdd rD rA) s rD (s.reg rD) (s.reg rA) 0 2 ∧
    AddsInto (.bnAdd rD rA rB) s rD (s.reg rA) (s.reg rB) 0 3 ∧
    AddsInto (.btAddi rD G) s rD (s.reg rD) (G.signExtend 32) 0 2 ∧
    AddsInto (.bnAddi rD rA O) s rD (s.reg rA) (O.signExtend 32) 0 3 ∧
    AddsInto (.bgAddi rD rA Y) s rD (s.reg rA) (Y.signExtend 32) 0 4 ∧
    AddsInto (.bwAddi rD rA g) s rD (s.reg rA) g 0 6 ∧
    SetsRegOvCy (.bMovhi rD I) s rD (BitVec.ofNat 32 (65536 * I.toNat)) False False 6

/-- Additions with carry: CY is read before it is written (R153, R154, R155). That they run in every state, carry
being implemented (R29), is the spec's decision D16 (log 25). -/
def Obligations.AdditionWithCarry : Prop :=
  ∀ (s : State) (rD rA rB : RegNum) (p : BitVec 24), ParamsWf s.params →
    AddsInto (.bnAddc rD rA rB) s rD (s.reg rA) (s.reg rB) s.flagCy.toNat 3 ∧
    AddsInto (.bwAddci rD rA p) s rD (s.reg rA) (p.signExtend 32) s.flagCy.toNat 6 ∧
    AddsInto (.bAddic rD rA p) s rD (s.reg rA) (p.signExtend 32) s.flagCy.toNat 6

/-- Subtractions: CY is the borrow (R150, R158, R159). That `bn.subb` runs in every state, carry being implemented
(R29), is the spec's decision D16 (log 25). -/
def Obligations.SubtractionSetsBorrow : Prop :=
  ∀ (s : State) (rD rA rB : RegNum), ParamsWf s.params →
    SubtractsInto (.bnSub rD rA rB) s rD (s.reg rA) (s.reg rB) 0 3 ∧
    SubtractsInto (.bnSubb rD rA rB) s rD (s.reg rA) (s.reg rB) s.flagCy.toNat 3

/-- Saturating sum and difference: the exact value clamped to the signed range, OV set by saturation and
never cleared, CY that of the plain operation (R151, R157, R160). -/
def Obligations.SaturationClampsAndSticks : Prop :=
  ∀ (s : State) (rD rA rB : RegNum), ParamsWf s.params →
    let a := s.reg rA
    let b := s.reg rB
    (∃ v : Word, v.toInt = max (-2147483648) (min 2147483647 (a.toInt + b.toInt)) ∧
      SetsRegOvCy (.bnAdds rD rA rB) s rD v (s.flagOv = true ∨ Overflows (a.toInt + b.toInt))
        (4294967296 ≤ a.toNat + b.toNat) 3) ∧
    (∃ v : Word, v.toInt = max (-2147483648) (min 2147483647 (a.toInt - b.toInt)) ∧
      SetsRegOvCy (.bSubs rD rA rB) s rD v (s.flagOv = true ∨ Overflows (a.toInt - b.toInt))
        (a.toNat < b.toNat) s.params.lenOf.subs.bytes)

/-- Multiplications: the low half with OV where the exact product does not fit, CY left open (R161,
R163); the high half, without flags (R162). -/
def Obligations.Multiplication : Prop :=
  ∀ (s : State) (rD rA rB : RegNum) (p : BitVec 24), ParamsWf s.params →
    let low := fun (i : Instr) (x : Int) (n : Nat) =>
      Completes i s fun t =>
        Holds t rD (BitVec.ofInt 32 x) ∧ (t.flagOv = true ↔ Overflows x) ∧ Advanced s t n ∧
          Keeps { regs := [rD], sr := [s.params.srBit.ov, s.params.srBit.cy] } s t
    low (.bnMul rD rA rB) ((s.reg rA).toInt * (s.reg rB).toInt) 3 ∧
    low (.bwMuli rD rA p) ((s.reg rA).toInt * p.toInt) 6 ∧
    SetsReg (.bnMulh rD rA rB) s rD
      (BitVec.ofInt 32 ((s.reg rA).toInt * (s.reg rB).toInt / 4294967296)) 3

/-- Divisions whose result is defined: the quotient truncated toward zero (signed) or the floor
(unsigned), OV = CY = 0 (R164 to R167, R172). -/
def Obligations.DefinedDivision : Prop :=
  ∀ (s : State) (rD rA rB : RegNum) (p : BitVec 24) (o : BitVec 32), ParamsWf s.params →
    let signed := fun (i : Instr) (b : Int) (n : Nat) =>
      b ≠ 0 → ¬ ((s.reg rA).toInt = -2147483648 ∧ b = -1) →
        ∃ q r : Int, Truncates (s.reg rA).toInt b q r ∧
          SetsRegOvCy i s rD (BitVec.ofInt 32 q) False False n
    let unsigned := fun (i : Instr) (b : Word) (n : Nat) =>
      b ≠ 0 → ∃ q : Nat, q * b.toNat ≤ (s.reg rA).toNat ∧ (s.reg rA).toNat < (q + 1) * b.toNat ∧
        SetsRegOvCy i s rD (BitVec.ofNat 32 q) False False n
    signed (.bnDiv rD rA rB) (s.reg rB).toInt 3 ∧ signed (.bwDivi rD rA p) p.toInt 6 ∧
    unsigned (.bnDivu rD rA rB) (s.reg rB) 3 ∧ unsigned (.bwDivui rD rA o) o 6

/-- Divisions and remainders whose result the spec leaves open run on: the destination (and OV, for
divisions) may hold anything, CY tells a zero divisor for divisions, nothing else changes (R164 to R169,
R172). -/
def Obligations.UndefinedDivisionRunsOn : Prop :=
  ∀ (s : State) (rD rA rB : RegNum) (p : BitVec 24) (o : BitVec 32), ParamsWf s.params →
    let quotient := fun (i : Instr) (zero : Prop) (n : Nat) =>
      Completes i s fun t =>
        (t.flagCy = true ↔ zero) ∧ t.reg 0 = 0 ∧ Advanced s t n ∧
          Keeps { regs := [rD], sr := [s.params.srBit.ov, s.params.srBit.cy] } s t
    let remainder := fun (i : Instr) =>
      Completes i s fun t => t.reg 0 = 0 ∧ Advanced s t 3 ∧ Keeps { regs := [rD] } s t
    let open_ := fun (b : Int) => b = 0 ∨ ((s.reg rA).toInt = -2147483648 ∧ b = -1)
    (open_ (s.reg rB).toInt →
      quotient (.bnDiv rD rA rB) (s.reg rB = 0) 3 ∧ remainder (.bnMod rD rA rB)) ∧
    (open_ p.toInt → quotient (.bwDivi rD rA p) (p = 0) 6) ∧
    (s.reg rB = 0 → quotient (.bnDivu rD rA rB) True 3 ∧ remainder (.bnModu rD rA rB)) ∧
    (o = 0 → quotient (.bwDivui rD rA o) True 6)

/-- Remainders that are defined: of the dividend's sign (signed), below the divisor (unsigned), without
flags (R168, R169, R172). -/
def Obligations.DefinedRemainder : Prop :=
  ∀ (s : State) (rD rA rB : RegNum),
    (s.reg rB ≠ 0 → ¬ ((s.reg rA).toInt = -2147483648 ∧ (s.reg rB).toInt = -1) →
      ∃ q r : Int, Truncates (s.reg rA).toInt (s.reg rB).toInt q r ∧
        SetsReg (.bnMod rD rA rB) s rD (BitVec.ofInt 32 r) 3) ∧
    (s.reg rB ≠ 0 → ∃ q r : Nat, (s.reg rA).toNat = q * (s.reg rB).toNat + r ∧ r < (s.reg rB).toNat ∧
      SetsReg (.bnModu rD rA rB) s rD (BitVec.ofNat 32 r) 3)

/-- Multiply and accumulate, wrapping and clamped: MAC, the sticky MACOVH and MACOVL, and MACCY as the
carry out of bit 63 (R170, R171). -/
def Obligations.MultiplyAccumulate : Prop :=
  ∀ (s : State) (rA rB : RegNum), ParamsWf s.params →
    let product := (s.reg rA).toInt * (s.reg rB).toInt
    let old : BitVec 64 := s.machi ++ s.maclo
    let sum := product + old.toInt
    let b := s.params.urBit
    let accumulates := fun (i : Instr) (result : Int) (n : Nat) =>
      Completes i s fun t =>
        (t.machi ++ t.maclo : BitVec 64) = BitVec.ofInt 64 result ∧
        (bitAt t.ur b.macovh = true ↔ bitAt s.ur b.macovh = true ∨ 9223372036854775807 < sum) ∧
        (bitAt t.ur b.macovl = true ↔ bitAt s.ur b.macovl = true ∨ sum < -9223372036854775808) ∧
        (bitAt t.ur b.maccy = true ↔
          18446744073709551616 ≤ (product % 18446744073709551616).toNat + old.toNat) ∧
        Advanced s t n ∧ Keeps { ur := [b.macovh, b.macovl, b.maccy], mac := true } s t
    accumulates (.bMac rA rB) sum s.params.lenOf.mac.bytes ∧
    accumulates (.bMacs rA rB) (max (-9223372036854775808) (min 9223372036854775807 sum))
      s.params.lenOf.macs.bytes

/-! ### Logic, shifts, moves -/

/-- Bitwise logic, bit by bit (R201 to R207); `f.abs.s` clears bit 31 (R429). That `b.not` is `bn.nand` of one
register with itself (R208) is the spec's decision D46 (log 10); that N has 8 bits is log 21. -/
def Obligations.BitwiseLogic : Prop :=
  ∀ (s : State) (rD rA rB : RegNum) (N : BitVec 8) (h : BitVec 32) (p : BitVec 24),
    let a := fun k => (s.reg rA).getLsbD k
    let b := fun k => (s.reg rB).getLsbD k
    SetsBits (.bnAnd rD rA rB) s rD (fun k => a k && b k) 3 ∧
    SetsBits (.bnAndi rD rA N) s rD (fun k => a k && N.getLsbD k) 3 ∧
    SetsBits (.bwAndi rD rA h) s rD (fun k => a k && h.getLsbD k) 6 ∧
    SetsBits (.bnOr rD rA rB) s rD (fun k => a k || b k) 3 ∧
    SetsBits (.bnOri rD rA N) s rD (fun k => a k || N.getLsbD k) 3 ∧
    SetsBits (.bwOri rD rA h) s rD (fun k => a k || h.getLsbD k) 6 ∧
    SetsBits (.bnXor rD rA rB) s rD (fun k => a k ^^ b k) 3 ∧
    SetsBits (.bwXori rD rA p) s rD (fun k => a k ^^ p.getLsbD (min k 23)) 6 ∧
    SetsBits (.bnNand rD rA rB) s rD (fun k => !(a k && b k)) 3 ∧
    SetsBits (.bNot rD rA) s rD (fun k => !a k) 3 ∧
    SetsBits (.fAbsS rD rA) s rD (fun k => k != 31 && a k) 6

/-- Shifts as exact arithmetic: by x[rB] modulo 32 or by H (R210 to R215); the amount (R209) is the spec's
decision D47 (log 10). -/
def Obligations.ShiftsAreArithmetic : Prop :=
  ∀ (s : State) (rD rA rB : RegNum) (H : BitVec 5),
    let a := s.reg rA
    let n := (s.reg rB).toNat % 32
    SetsReg (.bnSll rD rA rB) s rD (BitVec.ofNat 32 (a.toNat * 2 ^ n)) 3 ∧
    SetsReg (.bnSlli rD rA H) s rD (BitVec.ofNat 32 (a.toNat * 2 ^ H.toNat)) 3 ∧
    SetsReg (.bnSrl rD rA rB) s rD (BitVec.ofNat 32 (a.toNat / 2 ^ n)) 3 ∧
    SetsReg (.bnSrli rD rA H) s rD (BitVec.ofNat 32 (a.toNat / 2 ^ H.toNat)) 3 ∧
    SetsReg (.bnSra rD rA rB) s rD (BitVec.ofInt 32 (a.toInt / 2 ^ n)) 3 ∧
    SetsReg (.bnSrai rD rA H) s rD (BitVec.ofInt 32 (a.toInt / 2 ^ H.toNat)) 3

/-- Rotations and byte swap as permutations of the bits (R216, R217, R222); `BitReversal` states the third. The
amount of the rotations, five bits of x[rB] or the field H (R209), is the spec's decision D47 (log 10). -/
def Obligations.BitPermutations : Prop :=
  ∀ (s : State) (rD rA rB : RegNum) (H : BitVec 5),
    let a := fun k => (s.reg rA).getLsbD k
    SetsBits (.bnRor rD rA rB) s rD (fun k => a ((k + (s.reg rB).toNat) % 32)) 3 ∧
    SetsBits (.bnRori rD rA H) s rD (fun k => a ((k + H.toNat) % 32)) 3 ∧
    SetsBits (.bnSwab rD rA) s rD (fun k => a (8 * (3 - k / 8) + k % 8)) 3

/-- Bit reversal (R218): bit k of rD is bit 31 - k of rA, and a palindrome maps to itself. -/
def Obligations.BitReversal : Prop :=
  ∀ (s : State) (rD rA : RegNum),
    let a := fun k => (s.reg rA).getLsbD k
    SetsBits (.bnBitrev rD rA) s rD (fun k => a (31 - k)) 3 ∧
    ((∀ k, k < 32 → a k = a (31 - k)) → SetsReg (.bnBitrev rD rA) s rD (s.reg rA) 3)

/-- Searches: leading zeros counted from bit 31, first one from bit 0 numbered from 1, first equal byte
from the top; -1, 0 and -1 where there is none (R219, R220, R221). -/
def Obligations.BitSearches : Prop :=
  ∀ (s : State) (rD rA rB : RegNum),
    let a := s.reg rA
    let b := s.reg rB
    let sameByte := fun k : Nat => a.toNat / 256 ^ k % 256 = b.toNat / 256 ^ k % 256
    (a = 0 → SetsReg (.bnClz rD rA) s rD 0xFFFFFFFF#32 3 ∧ SetsReg (.bnFf1 rD rA) s rD 0 3) ∧
    (∀ k, k < 32 → a.getLsbD (31 - k) = true → (∀ j, j < k → a.getLsbD (31 - j) = false) →
      SetsReg (.bnClz rD rA) s rD (BitVec.ofNat 32 k) 3) ∧
    (∀ k, k < 32 → a.getLsbD k = true → (∀ j, j < k → a.getLsbD j = false) →
      SetsReg (.bnFf1 rD rA) s rD (BitVec.ofNat 32 (k + 1)) 3) ∧
    (∀ k, k < 4 → sameByte k → (∀ j, k < j → j < 4 → ¬ sameByte j) →
      SetsReg (.bnFlb rD rA rB) s rD (BitVec.ofNat 32 k) 3) ∧
    ((∀ k, k < 4 → ¬ sameByte k) → SetsReg (.bnFlb rD rA rB) s rD 0xFFFFFFFF#32 3)

/-- Extensions of the low byte and half word (R223 to R226). -/
def Obligations.Extensions : Prop :=
  ∀ (s : State) (rD rA : RegNum),
    let byte := (s.reg rA).toNat % 256
    let half := (s.reg rA).toNat % 65536
    SetsReg (.bnExtbs rD rA) s rD (BitVec.ofInt 32 (if byte < 128 then byte else byte - 256)) 3 ∧
    SetsReg (.bnExtbz rD rA) s rD (BitVec.ofNat 32 byte) 3 ∧
    SetsReg (.bnExths rD rA) s rD (BitVec.ofInt 32 (if half < 32768 then half else half - 65536)) 3 ∧
    SetsReg (.bnExthz rD rA) s rD (BitVec.ofNat 32 half) 3

/-- The short immediate move: rD is the sign-extended 4-bit immediate, from -8 to 7 (R230). -/
def Obligations.MoveImmediate : Prop :=
  ∀ (s : State) (rD : RegNum) (G : BitVec 4),
    SetsReg (.btMovi rD G) s rD (BitVec.ofInt 32 G.toInt) 2 ∧ -8 ≤ G.toInt ∧ G.toInt ≤ 7

/-- Moves (R227, R228; R230 is `MoveImmediate`), and the no-operation that changes nothing but pc whatever its
immediate: that
`bt.nop` writes no flag (R231) is the spec's decision D54 (log 10). With rD = r0, `bt.mov` is a term that no
word stands for (log 29). -/
def Obligations.Moves : Prop :=
  ∀ (s : State) (rD rA rB : RegNum) (G : BitVec 4),
    (s.flagF = true → SetsReg (.bnCmov rD rA rB) s rD (s.reg rA) 3) ∧
    (s.flagF = false → SetsReg (.bnCmov rD rA rB) s rD (s.reg rB) 3) ∧
    SetsReg (.btMov rD rA) s rD (s.reg rA) 2 ∧
    GoesTo (.btNop G) s (s.pc + 2)

/-! ### Compares -/

/-- Register compares: SR.F is the relation, signed or unsigned (R250, R251, R253, R255, R257, R259, R261,
R263, R265). The operand order of the aliases `b.sflts` and `b.sfltu` (R267, R269) is the spec's decision D46
(logs 10 and 28); the length of four forms is the open parameter LEN_OF (log 14). -/
def Obligations.RegisterCompares : Prop :=
  ∀ (s : State) (rA rB : RegNum),
    let a := s.reg rA
    let b := s.reg rB
    let len := s.params.lenOf
    SetsF (.bnSfeq rA rB) s (a = b) 3 ∧
    SetsF (.bnSfne rA rB) s (a ≠ b) 3 ∧
    SetsF (.bSfges rA rB) s (b.toInt ≤ a.toInt) len.sfges.bytes ∧
    SetsF (.bSfgeu rA rB) s (b.toNat ≤ a.toNat) len.sfgeu.bytes ∧
    SetsF (.bnSfgts rA rB) s (b.toInt < a.toInt) 3 ∧
    SetsF (.bnSfgtu rA rB) s (b.toNat < a.toNat) 3 ∧
    SetsF (.bSfles rA rB) s (a.toInt ≤ b.toInt) len.sfles.bytes ∧
    SetsF (.bSfleu rA rB) s (a.toNat ≤ b.toNat) len.sfleu.bytes ∧
    SetsF (.bSflts rA rB) s (a.toInt < b.toInt) 3 ∧
    SetsF (.bSfltu rA rB) s (a.toNat < b.toNat) 3

/-- Immediate compares: the 8-bit immediate is sign-extended for the unsigned relations too, the 32-bit
one is taken as it is (R250, R252, R254, R256, R258, R260, R262, R264, R266, R268, R270). The 6 bytes of the `bw.`
forms (R90) are the spec's decision D2 (log 10). -/
def Obligations.ImmediateCompares : Prop :=
  ∀ (s : State) (rA : RegNum) (O : BitVec 8) (g : BitVec 32),
    let a := s.reg rA
    let ext := O.toInt
    let uns := (O.toInt % 4294967296).toNat
    (SetsF (.bnSfeqi rA O) s (a.toInt = ext) 3 ∧ SetsF (.bwSfeqi rA g) s (a = g) 6) ∧
    (SetsF (.bnSfnei rA O) s (a.toInt ≠ ext) 3 ∧ SetsF (.bwSfnei rA g) s (a ≠ g) 6) ∧
    (SetsF (.bnSfgesi rA O) s (ext ≤ a.toInt) 3 ∧ SetsF (.bwSfgesi rA g) s (g.toInt ≤ a.toInt) 6) ∧
    (SetsF (.bnSfgeui rA O) s (uns ≤ a.toNat) 3 ∧ SetsF (.bwSfgeui rA g) s (g.toNat ≤ a.toNat) 6) ∧
    (SetsF (.bnSfgtsi rA O) s (ext < a.toInt) 3 ∧ SetsF (.bwSfgtsi rA g) s (g.toInt < a.toInt) 6) ∧
    (SetsF (.bnSfgtui rA O) s (uns < a.toNat) 3 ∧ SetsF (.bwSfgtui rA g) s (g.toNat < a.toNat) 6) ∧
    (SetsF (.bnSflesi rA O) s (a.toInt ≤ ext) 3 ∧ SetsF (.bwSflesi rA g) s (a.toInt ≤ g.toInt) 6) ∧
    (SetsF (.bnSfleui rA O) s (a.toNat ≤ uns) 3 ∧ SetsF (.bwSfleui rA g) s (a.toNat ≤ g.toNat) 6) ∧
    (SetsF (.bnSfltsi rA O) s (a.toInt < ext) 3 ∧ SetsF (.bwSfltsi rA g) s (a.toInt < g.toInt) 6) ∧
    (SetsF (.bnSfltui rA O) s (a.toNat < uns) 3 ∧ SetsF (.bwSfltui rA g) s (a.toNat < g.toNat) 6)

/-! ### Branches -/

/-- Branches on F, CY and OV change pc alone (R280, R282 to R286). That `bn.bc` and `bn.bnc` (R284, R285) run in
every state, carry being implemented (R29), is the spec's decision D16 (log 25). -/
def Obligations.FlagBranches : Prop :=
  ∀ (s : State) (S : BitVec 12) (t : BitVec 24) (z : BitVec 32),
    Branches (.bnBf S) s (s.flagF = true) (BitVec.ofInt 32 S.toInt) 3 ∧
    Branches (.bgBf t) s (s.flagF = true) (BitVec.ofInt 32 t.toInt) 4 ∧
    Branches (.bwBf z) s (s.flagF = true) z 6 ∧
    Branches (.bnBnf S) s (s.flagF = false) (BitVec.ofInt 32 S.toInt) 3 ∧
    Branches (.bgBnf t) s (s.flagF = false) (BitVec.ofInt 32 t.toInt) 4 ∧
    Branches (.bwBnf z) s (s.flagF = false) z 6 ∧
    Branches (.bnBc S) s (s.flagCy = true) (BitVec.ofInt 32 S.toInt) 3 ∧
    Branches (.bnBnc S) s (s.flagCy = false) (BitVec.ofInt 32 S.toInt) 3 ∧
    Branches (.bnBo S) s (s.flagOv = true) (BitVec.ofInt 32 S.toInt) 3

/-- `bn.bno` branches where OV is 0 and clears OV as BNO_CLEARS_OV says: by default exactly for S = 3,
which is `b.cov` and always goes on at pc + 3 (R287, R288; the parameter is the spec's decision D17). R288 has
`b.cov` clear OV; that it leaves OV as it was under the two other values, as `bn.bno 3` does, is the model's
choice (log 13). -/
def Obligations.BranchIfNoOverflow : Prop :=
  ∀ (s : State) (S : BitVec 12),
    let clears := fun S : BitVec 12 => match s.params.bnoClearsOv with
      | .onlySEq3 => S = 3
      | .never => False
      | .alwaysWhenTaken => s.flagOv = false
    (Completes (.bnBno S) s fun t =>
      t.pc = (if s.flagOv = false then s.pc + BitVec.ofInt 32 S.toInt else s.pc + 3) ∧
      (t.flagOv = true ↔ s.flagOv = true ∧ ¬ clears S) ∧ Keeps { sr := [s.params.srBit.ov] } s t) ∧
    (Completes .bCov s fun t =>
      t.pc = s.pc + 3 ∧ (t.flagOv = true ↔ s.flagOv = true ∧ ¬ clears 3) ∧
        Keeps { sr := [s.params.srBit.ov] } s t)

/-- Register compare branches in both offset widths (R280, R289 to R294), with the aliases that exchange the
registers, whose operand order (R295 to R298) is the spec's decision D46 (logs 10 and 28). -/
def Obligations.RegisterCompareBranches : Prop :=
  ∀ (s : State) (rA rB : RegNum) (U : BitVec 12) (u : BitVec 28),
    let a := s.reg rA
    let b := s.reg rB
    let near := fun (i : Instr) (cond : Prop) => Branches i s cond (BitVec.ofInt 32 U.toInt) 4
    let far := fun (i : Instr) (cond : Prop) => Branches i s cond (BitVec.ofInt 32 u.toInt) 6
    (near (.bgBeq rA rB U) (a = b) ∧ far (.bwBeq rA rB u) (a = b)) ∧
    (near (.bgBne rA rB U) (a ≠ b) ∧ far (.bwBne rA rB u) (a ≠ b)) ∧
    (near (.bgBges rA rB U) (b.toInt ≤ a.toInt) ∧ far (.bwBges rA rB u) (b.toInt ≤ a.toInt)) ∧
    (near (.bgBgeu rA rB U) (b.toNat ≤ a.toNat) ∧ far (.bwBgeu rA rB u) (b.toNat ≤ a.toNat)) ∧
    (near (.bgBgts rA rB U) (b.toInt < a.toInt) ∧ far (.bwBgts rA rB u) (b.toInt < a.toInt)) ∧
    (near (.bgBgtu rA rB U) (b.toNat < a.toNat) ∧ far (.bwBgtu rA rB u) (b.toNat < a.toNat)) ∧
    (near (.bBles rA rB (.bg U)) (a.toInt ≤ b.toInt) ∧ far (.bBles rA rB (.bw u)) (a.toInt ≤ b.toInt)) ∧
    (near (.bBleu rA rB (.bg U)) (a.toNat ≤ b.toNat) ∧ far (.bBleu rA rB (.bw u)) (a.toNat ≤ b.toNat)) ∧
    (near (.bBlts rA rB (.bg U)) (a.toInt < b.toInt) ∧ far (.bBlts rA rB (.bw u)) (a.toInt < b.toInt)) ∧
    (near (.bBltu rA rB (.bg U)) (a.toNat < b.toNat) ∧ far (.bBltu rA rB (.bw u)) (a.toNat < b.toNat))

/-- Immediate compare branches of the `bn.` forms: the compare value is zero-extended (R281, R299 to
R304). -/
def Obligations.ShortImmediateBranches : Prop :=
  ∀ (s : State) (rB : RegNum) (E : BitVec 5) (P : BitVec 8),
    let b := (s.reg rB).toInt
    let v : Int := E.toNat
    let off := BitVec.ofInt 32 P.toInt
    Branches (.bnBeqi rB E P) s (b = v) off 3 ∧
    Branches (.bnBnei rB E P) s (b ≠ v) off 3 ∧
    Branches (.bnBgesi rB E P) s (v ≤ b) off 3 ∧
    Branches (.bnBgtsi rB E P) s (v < b) off 3 ∧
    Branches (.bnBlesi rB E P) s (b ≤ v) off 3 ∧
    Branches (.bnBltsi rB E P) s (b < v) off 3

/-- Immediate compare branches of the `bg.` and `bw.` forms: the compare value is sign-extended, for the
unsigned relations too (R280, R281, R299 to R308). The 4 and 6 bytes of the two forms (R90) are the spec's decision
D2 (log 10). -/
def Obligations.WideImmediateBranches : Prop :=
  ∀ (s : State) (rB : RegNum) (I : BitVec 5) (U : BitVec 12) (u : BitVec 28),
    let b := (s.reg rB).toInt
    let v := I.toInt
    let bu := (s.reg rB).toNat
    let vu := (I.toInt % 4294967296).toNat
    let both := fun (near far : Instr) (cond : Prop) =>
      Branches near s cond (BitVec.ofInt 32 U.toInt) 4 ∧ Branches far s cond (BitVec.ofInt 32 u.toInt) 6
    both (.bgBeqi rB I U) (.bwBeqi rB I u) (b = v) ∧
    both (.bgBnei rB I U) (.bwBnei rB I u) (b ≠ v) ∧
    both (.bgBgesi rB I U) (.bwBgesi rB I u) (v ≤ b) ∧
    both (.bgBgtsi rB I U) (.bwBgtsi rB I u) (v < b) ∧
    both (.bgBlesi rB I U) (.bwBlesi rB I u) (b ≤ v) ∧
    both (.bgBltsi rB I U) (.bwBltsi rB I u) (b < v) ∧
    both (.bgBgeui rB I U) (.bwBgeui rB I u) (vu ≤ bu) ∧
    both (.bgBgtui rB I U) (.bwBgtui rB I u) (vu < bu) ∧
    both (.bgBleui rB I U) (.bwBleui rB I u) (bu ≤ vu) ∧
    both (.bgBltui rB I U) (.bwBltui rB I u) (bu < vu)

/-! ### Jumps, calls, frames -/

/-- Jumps change pc alone (R330, R331, R332, R335, R336). -/
def Obligations.JumpsChangePcAlone : Prop :=
  ∀ (s : State) (rA : RegNum) (T : BitVec 10) (Z : BitVec 16) (t : BitVec 24) (z g : BitVec 32),
    GoesTo (.btJ T) s (s.pc + BitVec.ofInt 32 T.toInt) ∧
    GoesTo (.bnJ Z) s (s.pc + BitVec.ofInt 32 Z.toInt) ∧
    GoesTo (.bgJ t) s (s.pc + BitVec.ofInt 32 t.toInt) ∧
    GoesTo (.bwJ z) s (s.pc + z) ∧
    GoesTo (.bwJa g) s g ∧
    GoesTo (.bnJr rA) s (s.reg rA) ∧
    GoesTo .bnReturn s (s.reg 9)

/-- Calls write the address after themselves to x[9] (R330, R333, R334). That `b.jalr r9` goes to the old x[9] is
the spec's decision D49 (log 10); the length of `b.jalr` is the open parameter LEN_OF (log 14). -/
def Obligations.CallsLinkR9 : Prop :=
  ∀ (s : State) (rA : RegNum) (sOff : BitVec 18) (t : BitVec 24) (z : BitVec 32),
    let calls := fun (i : Instr) (target : Word) (n : Nat) =>
      Completes i s fun u =>
        u.pc = target ∧ Holds u 9 (s.pc + BitVec.ofNat 32 n) ∧ Keeps { regs := [9] } s u
    calls (.bnJal sOff) (s.pc + BitVec.ofInt 32 sOff.toInt) 3 ∧
    calls (.bgJal t) (s.pc + BitVec.ofInt 32 t.toInt) 4 ∧
    calls (.bwJal z) (s.pc + z) 6 ∧
    calls (.bJalr rA) (s.reg rA) s.params.lenOf.jalr.bytes

/-- Jumps through memory: rD receives the pointer's address, pc the word there, and `b.jmal` links; with
rD = r9 it is refused (R337, R338). -/
def Obligations.JumpsThroughMemory : Prop :=
  ∀ (s : State) (rD : RegNum) (z : BitVec 32),
    exec (.bwJmal 9 z) s = .refused .doubleWrite ∧
    (Accessible s (s.pc + z) 4 →
      (Completes (.bwJma rD z) s fun t =>
        Holds t rD (s.pc + z) ∧ t.pc = wordAt s (s.pc + z) ∧ Keeps { regs := [rD] } s t) ∧
      (rD ≠ 9 → Completes (.bwJmal rD z) s fun t =>
        Holds t rD (s.pc + z) ∧ Holds t 9 (s.pc + 6) ∧ t.pc = wordAt s (s.pc + z) ∧
          Keeps { regs := [rD, 9] } s t))

/-- The prologue stores r(9+i) at S - 4(i+1) and lowers x[1] by 4(I+J) (R339, R342). -/
def Obligations.PrologueBuildsFrame : Prop :=
  ∀ (s : State) (F : BitVec 18) (N : BitVec 8),
    let slot := fun i : Nat => s.reg 1 - BitVec.ofNat 32 (4 * (i + 1))
    F.toNat ≤ 23 → (∀ i, i < F.toNat → Writable s (slot i) 4) →
    Completes (.bnEntri F N) s fun t =>
      Holds t 1 (s.reg 1 - BitVec.ofNat 32 (4 * (F.toNat + N.toNat))) ∧
      (∀ i, i < F.toNat → StoredAt t (slot i) 4 (s.reg (9 + BitVec.ofNat 5 i))) ∧
      Advanced s t 3 ∧
      Keeps { regs := [1], mem := (List.range F.toNat).flatMap fun i => addrsFrom (slot i) 4 } s t

/-- The epilogues load r(9+i) from S + 4(I-i-1+J) and raise x[1] by 4(I+J); `b.reti` goes on at the
restored x[9] (R340, R341). -/
def Obligations.EpilogueRestoresFrame : Prop :=
  ∀ (s : State) (F : BitVec 18) (N : BitVec 8),
    let slot := fun i : Nat => s.reg 1 + BitVec.ofNat 32 (4 * (F.toNat - i - 1 + N.toNat))
    let restores := fun t : State =>
      Holds t 1 (s.reg 1 + BitVec.ofNat 32 (4 * (F.toNat + N.toNat))) ∧
      (∀ i, i < F.toNat → Holds t (9 + BitVec.ofNat 5 i) (wordAt s (slot i))) ∧
      Keeps { regs := 1 :: regsFrom 9 F.toNat } s t
    F.toNat ≤ 23 → (∀ i, i < F.toNat → Accessible s (slot i) 4) →
    (Completes (.bnReti F N) s fun t => restores t ∧ t.pc = t.reg 9) ∧
    (Completes (.bnRtnei F N) s fun t => restores t ∧ Advanced s t 3)

/-- An epilogue with the prologue's operands undoes it: whatever the code between did to the other
registers and pc, the saved registers and the stack pointer come back (R342). -/
def Obligations.EpilogueUndoesPrologue : Prop :=
  ∀ (s t u : State) (F : BitVec 18) (N : BitVec 8), F.toNat ≤ 23 →
    (∀ i, i < F.toNat → Writable s (s.reg 1 - BitVec.ofNat 32 (4 * (i + 1))) 4) →
    exec (.bnEntri F N) s = .next t →
    u.mem = t.mem → u.params = t.params → u.reg 1 = t.reg 1 →
    (Completes (.bnRtnei F N) u fun v =>
      v.reg 1 = s.reg 1 ∧ ∀ i, i < F.toNat → v.reg (9 + BitVec.ofNat 5 i) = s.reg (9 + BitVec.ofNat 5 i)) ∧
    (Completes (.bnReti F N) u fun v =>
      v.reg 1 = s.reg 1 ∧ (∀ i, i < F.toNat → v.reg (9 + BitVec.ofNat 5 i) = s.reg (9 + BitVec.ofNat 5 i)) ∧
      (1 ≤ F.toNat → v.pc = s.reg 9))

/-! ### Loads and stores -/

/-- Loads: x[rD] is the number in memory at x[rA] plus the scaled offset (R62, R360 to R364). -/
def Obligations.LoadsReadMemory : Prop :=
  ∀ (s : State) (rD rA : RegNum) (N : BitVec 8) (M : BitVec 7) (K : BitVec 6) (Y : BitVec 16)
    (X : BitVec 15) (W : BitVec 14) (h : BitVec 32) (i : BitVec 31) (w : BitVec 30),
    let ea := fun off : Int => s.reg rA + BitVec.ofInt 32 off
    (Loads (.bnLbz rD N rA) s rD (ea N.toNat) 1 3 ∧ Loads (.bgLbz rD Y rA) s rD (ea Y.toInt) 1 4 ∧
      Loads (.bwLbz rD h rA) s rD (ea h.toInt) 1 6) ∧
    (Loads (.bnLhz rD M rA) s rD (ea (M.toNat * 2)) 2 3 ∧
      Loads (.bgLhz rD X rA) s rD (ea (X.toInt * 2)) 2 4 ∧
      Loads (.bwLhz rD i rA) s rD (ea (i.toInt * 2)) 2 6) ∧
    (Loads (.bnLwz rD K rA) s rD (ea (K.toNat * 4)) 4 3 ∧
      Loads (.bgLwz rD W rA) s rD (ea (W.toInt * 4)) 4 4 ∧
      Loads (.bwLwz rD w rA) s rD (ea (w.toInt * 4)) 4 6) ∧
    (Loads (.bnLws rD K rA) s rD (ea (K.toNat * 4)) 4 3 ∧
      Loads (.bgLws rD W rA) s rD (ea (W.toInt * 4)) 4 4 ∧
      Loads (.bwLws rD w rA) s rD (ea (w.toInt * 4)) 4 6)

/-- Stores: the low bytes of x[rB] at x[rA] plus the scaled offset, and no other byte (R63, R360, R366,
R367, R368); to read-only memory nothing is stored (R455; log 33). -/
def Obligations.StoresWriteMemory : Prop :=
  ∀ (s : State) (rA rB : RegNum) (N : BitVec 8) (M : BitVec 7) (K : BitVec 6) (Y : BitVec 16)
    (X : BitVec 15) (W : BitVec 14) (h : BitVec 32) (i : BitVec 31) (w : BitVec 30),
    let ea := fun off : Int => s.reg rA + BitVec.ofInt 32 off
    (Stores (.bnSb N rA rB) s (ea N.toNat) 1 (s.reg rB) 3 ∧
      Stores (.bgSb Y rA rB) s (ea Y.toInt) 1 (s.reg rB) 4 ∧
      Stores (.bwSb h rA rB) s (ea h.toInt) 1 (s.reg rB) 6) ∧
    (Stores (.bnSh M rA rB) s (ea (M.toNat * 2)) 2 (s.reg rB) 3 ∧
      Stores (.bgSh X rA rB) s (ea (X.toInt * 2)) 2 (s.reg rB) 4 ∧
      Stores (.bwSh i rA rB) s (ea (i.toInt * 2)) 2 (s.reg rB) 6) ∧
    (Stores (.bnSw K rA rB) s (ea (K.toNat * 4)) 4 (s.reg rB) 3 ∧
      Stores (.bgSw W rA rB) s (ea (W.toInt * 4)) 4 (s.reg rB) 4 ∧
      Stores (.bwSw w rA rB) s (ea (w.toInt * 4)) 4 (s.reg rB) 6)

/-- `b.mlwz` loads 2, 3, 4 or 8 words into consecutive registers (R370, R374). -/
def Obligations.MultipleLoad : Prop :=
  ∀ (s : State) (rD rA : RegNum) (K : BitVec 6) (C : BitVec 2),
    let n := [2, 3, 4, 8].getD C.toNat 0
    let word := fun i : Nat => s.reg rA + BitVec.ofNat 32 (4 * K.toNat + 4 * i)
    rD.toNat + n ≤ 32 → (rA.toNat < rD.toNat ∨ rD.toNat + n ≤ rA.toNat) →
    (∀ i, i < n → Accessible s (word i) 4) →
    Completes (.bnMlwz rD K rA C) s fun t =>
      (∀ i, i < n → Holds t (rD + BitVec.ofNat 5 i) (wordAt s (word i))) ∧ Advanced s t 3 ∧
        Keeps { regs := regsFrom rD n } s t

/-- `b.msw` stores 2, 3, 4 or 8 consecutive registers (R371, R374). -/
def Obligations.MultipleStore : Prop :=
  ∀ (s : State) (rA rB : RegNum) (K : BitVec 6) (C : BitVec 2),
    let n := [2, 3, 4, 8].getD C.toNat 0
    let word := fun i : Nat => s.reg rA + BitVec.ofNat 32 (4 * K.toNat + 4 * i)
    rB.toNat + n ≤ 32 → (∀ i, i < n → Writable s (word i) 4) →
    Completes (.bnMsw K rA rB C) s fun t =>
      (∀ i, i < n → StoredAt t (word i) 4 (s.reg (rB + BitVec.ofNat 5 i))) ∧ Advanced s t 3 ∧
        Keeps { mem := (List.range n).flatMap fun i => addrsFrom (word i) 4 } s t

/-- Transfers through the pointer at pc + I (R69, R372, R373). -/
def Obligations.PointerTransfers : Prop :=
  ∀ (s : State) (r : RegNum) (z : BitVec 32),
    let target := wordAt s (s.pc + z)
    Accessible s (s.pc + z) 4 →
    (Accessible s target 4 → SetsReg (.bwLma r z) s r (wordAt s target) 6) ∧
    (Writable s target 4 → Completes (.bwSma r z) s fun t =>
      StoredAt t target 4 (s.reg r) ∧ Advanced s t 6 ∧ Keeps { mem := addrsFrom target 4 } s t)

/-- Atomics: the sum goes to memory and rD; the exchange writes memory in both cases, F = 0 where it
happened, and rD receives what memory then holds (R67, R376). The polarity of F and the write in both cases
(R377) are the spec's decisions D22 and D23, the reads before any write (R375) its decision D49 (log 10). -/
def Obligations.Atomics : Prop :=
  ∀ (s : State) (rD rA rB : RegNum),
    let a := s.reg rB
    let old := wordAt s a
    Writable s a 4 →
    (Completes (.bnAadd rD rA rB) s fun t =>
      StoredAt t a 4 (old + s.reg rA) ∧ Holds t rD (old + s.reg rA) ∧ Advanced s t 3 ∧
        Keeps { regs := [rD], mem := addrsFrom a 4 } s t) ∧
    (Completes (.bnCmpxchg rD rA rB) s fun t =>
      let new := if old = s.reg rD then s.reg rA else old
      StoredAt t a 4 new ∧ Holds t rD new ∧ (t.flagF = true ↔ old ≠ s.reg rD) ∧ Advanced s t 3 ∧
        Keeps { regs := [rD], sr := [s.params.srBit.f], mem := addrsFrom a 4 } s t)

/-- The doubleword loads and stores have no meaning on a 32-bit core and are refused (R365, R369). -/
def Obligations.DoublewordAccessesAreRefused : Prop :=
  ∀ (s : State) (r rA : RegNum) (J : BitVec 5) (V : BitVec 13) (v : BitVec 29),
    exec (.bnLd r J rA) s = .refused .not32bit ∧ exec (.bgLd r V rA) s = .refused .not32bit ∧
    exec (.bwLd r v rA) s = .refused .not32bit ∧ exec (.bnSd J rA r) s = .refused .not32bit ∧
    exec (.bgSd V rA r) s = .refused .not32bit ∧ exec (.bwSd v rA r) s = .refused .not32bit

/-- Single loads and stores at misaligned addresses: refused, or the platform's alignment exception, as
MISALIGNED_POLICY says (R64, R455; the exception's vector and EPCR rule are the platform's, log 12). Outside the map,
and for stores in read-only memory too: refused (R72, R455; the name of the latter refusal and how such memory is
described are the model's choice, log 33). -/
def Obligations.AccessesStopAsThePolicySays : Prop :=
  ∀ (s : State) (r rA : RegNum) (N : BitVec 8) (M : BitVec 7) (K : BitVec 6) (Y : BitVec 16)
    (X : BitVec 15) (W : BitVec 14) (h : BitVec 32) (i : BitVec 31) (w : BitVec 30),
    let ea := fun off : Int => s.reg rA + BitVec.ofInt 32 off
    let reads := fun i a n len => StopsAt .read i s a n len
    let writes := fun i a n len => StopsAt .write i s a n len
    (reads (.bnLbz r N rA) (ea N.toNat) 1 3 ∧ reads (.bgLbz r Y rA) (ea Y.toInt) 1 4 ∧
      reads (.bwLbz r h rA) (ea h.toInt) 1 6) ∧
    (reads (.bnLhz r M rA) (ea (M.toNat * 2)) 2 3 ∧ reads (.bgLhz r X rA) (ea (X.toInt * 2)) 2 4 ∧
      reads (.bwLhz r i rA) (ea (i.toInt * 2)) 2 6) ∧
    (reads (.bnLwz r K rA) (ea (K.toNat * 4)) 4 3 ∧ reads (.bgLwz r W rA) (ea (W.toInt * 4)) 4 4 ∧
      reads (.bwLwz r w rA) (ea (w.toInt * 4)) 4 6) ∧
    (reads (.bnLws r K rA) (ea (K.toNat * 4)) 4 3 ∧ reads (.bgLws r W rA) (ea (W.toInt * 4)) 4 4 ∧
      reads (.bwLws r w rA) (ea (w.toInt * 4)) 4 6) ∧
    (writes (.bnSb N rA r) (ea N.toNat) 1 3 ∧ writes (.bgSb Y rA r) (ea Y.toInt) 1 4 ∧
      writes (.bwSb h rA r) (ea h.toInt) 1 6) ∧
    (writes (.bnSh M rA r) (ea (M.toNat * 2)) 2 3 ∧ writes (.bgSh X rA r) (ea (X.toInt * 2)) 2 4 ∧
      writes (.bwSh i rA r) (ea (i.toInt * 2)) 2 6) ∧
    (writes (.bnSw K rA r) (ea (K.toNat * 4)) 4 3 ∧ writes (.bgSw W rA r) (ea (W.toInt * 4)) 4 4 ∧
      writes (.bwSw w rA r) (ea (w.toInt * 4)) 4 6)

/-- An instruction of several accesses that stops at one keeps no partial effect: it is refused, or
enters the alignment exception with every register and byte as before, whichever access is the first to stop
(R64, R68, R72, R455; the spec's decisions D9, D58, D59; log 12; log 33 for writes to read-only memory). -/
def Obligations.MultiAccessStopsAsAWhole : Prop :=
  ∀ (s : State) (rD rA rB : RegNum) (K : BitVec 6) (C : BitVec 2) (F : BitVec 18) (N : BitVec 8)
    (z : BitVec 32) (k : Nat),
    let n := [2, 3, 4, 8].getD C.toNat 0
    let word := fun i : Nat => s.reg rA + BitVec.ofNat 32 (4 * K.toNat + 4 * i)
    let saved := fun i : Nat => s.reg 1 - BitVec.ofNat 32 (4 * (i + 1))
    let restored := fun i : Nat => s.reg 1 + BitVec.ofNat 32 (4 * (F.toNat - i - 1 + N.toNat))
    let readsBefore := fun slot : Nat → Word => ∀ j, j < k → Accessible s (slot j) 4
    let writesBefore := fun slot : Nat → Word => ∀ j, j < k → Writable s (slot j) 4
    StopsAt .write (.bnAadd rD rA rB) s (s.reg rB) 4 3 ∧
    StopsAt .write (.bnCmpxchg rD rA rB) s (s.reg rB) 4 3 ∧
    StopsAt .read (.bwJma rD z) s (s.pc + z) 4 6 ∧
    (rD ≠ 9 → StopsAt .read (.bwJmal rD z) s (s.pc + z) 4 6) ∧
    StopsAt .read (.bwLma rD z) s (s.pc + z) 4 6 ∧
    StopsAt .read (.bwSma rB z) s (s.pc + z) 4 6 ∧
    (Accessible s (s.pc + z) 4 →
      StopsAt .read (.bwLma rD z) s (wordAt s (s.pc + z)) 4 6 ∧
      StopsAt .write (.bwSma rB z) s (wordAt s (s.pc + z)) 4 6) ∧
    (rD.toNat + n ≤ 32 → (rA.toNat < rD.toNat ∨ rD.toNat + n ≤ rA.toNat) → k < n → readsBefore word →
      StopsAt .read (.bnMlwz rD K rA C) s (word k) 4 3) ∧
    (rB.toNat + n ≤ 32 → k < n → writesBefore word → StopsAt .write (.bnMsw K rA rB C) s (word k) 4 3) ∧
    (F.toNat ≤ 23 → k < F.toNat →
      (writesBefore saved → StopsAt .write (.bnEntri F N) s (saved k) 4 3) ∧
      (readsBefore restored →
        StopsAt .read (.bnReti F N) s (restored k) 4 3 ∧ StopsAt .read (.bnRtnei F N) s (restored k) 4 3))

/-- Register lists past r31 are refused, whatever memory holds, and so is a `b.mlwz` whose base register
is in its list (R342, R374). -/
def Obligations.RegisterListRefusals : Prop :=
  ∀ (s : State) (rD rA rB : RegNum) (K : BitVec 6) (C : BitVec 2) (F : BitVec 18) (N : BitVec 8),
    let n := [2, 3, 4, 8].getD C.toNat 0
    (32 < rD.toNat + n → exec (.bnMlwz rD K rA C) s = .refused .registerRange) ∧
    (rD.toNat + n ≤ 32 → rD.toNat ≤ rA.toNat → rA.toNat < rD.toNat + n →
      exec (.bnMlwz rD K rA C) s = .refused .baseInList) ∧
    (32 < rB.toNat + n → exec (.bnMsw K rA rB C) s = .refused .registerRange) ∧
    (31 < 9 + F.toNat - 1 →
      exec (.bnEntri F N) s = .refused .registerRange ∧
      exec (.bnReti F N) s = .refused .registerRange ∧
      exec (.bnRtnei F N) s = .refused .registerRange)

/-! ### System -/

/-- `b.sys` always, and `b.trap` where the tested bit of SR is 1, take their exception: SR is saved in
ESR, the address EPCR_ON_SYS or EPCR_ON_TRAP names in EPCR, SR becomes SR_ON_ENTRY(SR), pc the vector,
and nothing else changes. A `b.trap` whose bit is 0 only advances pc by 2 (R400, R401, R452 to R454,
R456, R457). -/
def Obligations.SystemCallAndTrap : Prop :=
  ∀ (s : State) (imm : Option Word) (G : BitVec 4),
    EntersException (.bSys imm) s s.params.vecSyscall
      (savedPc s.params.epcrOnSys s s.params.lenOf.sys.bytes) ∧
    (s.sr.getLsbD G.toNat = true →
      EntersException (.btTrap G) s s.params.vecTrap (savedPc s.params.epcrOnTrap s 2)) ∧
    (s.sr.getLsbD G.toNat = false → GoesTo (.btTrap G) s (s.pc + 2))

/-- `b.rfe` restores pc from EPCR and all of SR from ESR and changes nothing else; right after an entry
it gives back the SR from before it (R402, R454, R459). -/
def Obligations.ReturnFromException : Prop :=
  ∀ s : State,
    (Completes .btRfe s fun t => t.pc = s.epcr ∧ t.sr = s.esr ∧ Keeps { sr := allBits } s t) ∧
    (∀ imm t, exec (.bSys imm) s = .next t →
      Completes .btRfe t fun u =>
        u.sr = s.sr ∧ u.pc = savedPc s.params.epcrOnSys s s.params.lenOf.sys.bytes ∧
          Keeps { exc := true } s u)

/-- `b.ei` sets, `b.di` clears IEE and TEE and no other bit; after `b.di` no interrupt is taken (R403,
R404, R408). -/
def Obligations.InterruptEnables : Prop :=
  ∀ s : State,
    let enables := [s.params.srBit.iee, s.params.srBit.tee]
    (Completes .btEi s fun t =>
      t.flagIee = true ∧ t.flagTee = true ∧ Advanced s t 2 ∧ Keeps { sr := enables } s t) ∧
    (Completes .btDi s fun t =>
      t.flagIee = false ∧ t.flagTee = false ∧ Quiet t ∧ Advanced s t 2 ∧ Keeps { sr := enables } s t)

/-- Special-purpose register moves by number x[rA] OR I: a read gives the register, a write replaces all
32 bits of it alone, for the six named ones and the platform's own; a number outside the map is refused
(R40, R41, R405, R406). -/
def Obligations.SpecialRegisterMoves : Prop :=
  ∀ (s : State) (rD rA rB : RegNum) (o : BitVec 32), StateWf s →
    let n := s.reg rA ||| o
    let a := s.params.sprAddr
    let x := s.reg rB
    let moves := fun (num : Option Word) (value : Word) (after : State → Word) (f : Frame) =>
      num = some n →
        SetsReg (.bwMfspr rD rA o) s rD value 6 ∧
        (Completes (.bwMtspr rA rB o) s fun t => after t = x ∧ Advanced s t 6 ∧ Keeps f s t)
    moves a.sr s.sr State.sr { sr := allBits } ∧
    moves a.esr s.esr State.esr { exc := true } ∧
    (a.esr = some n → Completes (.bwMtspr rA rB o) s fun t => t.epcr = s.epcr) ∧
    moves a.epcr s.epcr State.epcr { exc := true } ∧
    (a.epcr = some n → Completes (.bwMtspr rA rB o) s fun t => t.esr = s.esr) ∧
    moves a.machi s.machi State.machi { mac := true } ∧
    (a.machi = some n → Completes (.bwMtspr rA rB o) s fun t => t.maclo = s.maclo) ∧
    moves a.maclo s.maclo State.maclo { mac := true } ∧
    (a.maclo = some n → Completes (.bwMtspr rA rB o) s fun t => t.machi = s.machi) ∧
    moves a.ur s.ur State.ur { ur := allBits } ∧
    (∀ v, (n, v) ∈ s.extraSpr →
      SetsReg (.bwMfspr rD rA o) s rD v 6 ∧
      (Completes (.bwMtspr rA rB o) s fun t =>
        t.extraSpr = s.extraSpr.map (fun e => if e.1 = n then (n, x) else e) ∧ Advanced s t 6 ∧
          Keeps { extra := true } s t)) ∧
    (n ∉ sprNumbers a s.extraSpr →
      exec (.bwMfspr rD rA o) s = .refused .unknownSpr ∧
      exec (.bwMtspr rA rB o) s = .refused .unknownSpr)

/-! ### Floating point -/

/-- The arithmetic and conversions: the result and the six flags of UR that FP gives, FDZ written by the
division alone, no bit of SR (R421 to R428). -/
def Obligations.FloatArithmetic : Prop :=
  ∀ (s : State) (rD rA rB : RegNum), ParamsWf s.params →
    let fp := s.params.fp
    let a := s.reg rA
    let b := s.reg rB
    SetsFloat (.fnAddS rD rA rB) s rD (fpAdd fp a b) ∧
    SetsFloat (.fnSubS rD rA rB) s rD (fpSub fp a b) ∧
    SetsFloat (.fnMulS rD rA rB) s rD (fpMul fp a b) ∧
    SetsFloat (.fnFtoiS rD rA) s rD (fpToInt fp a) ∧
    SetsFloat (.fnItofS rD rA) s rD (fpOfInt fp a) ∧
    (Completes (.fnDivS rD rA rB) s fun t =>
      Holds t rD (fpDiv fp a b).1 ∧ HoldsFpFlags t (fpDiv fp a b).2.1 ∧
      bitAt t.ur s.params.urBit.fdz = (fpDiv fp a b).2.2 ∧ Advanced s t 3 ∧
      Keeps { regs := [rD], ur := s.params.urBit.fdz :: fpFlagBits s.params.urBit } s t)

/-- The floating-point branches and their register-exchanging aliases, on the predicates of FP, in both
offset widths (R430 to R436). -/
def Obligations.FloatBranches : Prop :=
  ∀ (s : State) (rA rB : RegNum) (U : BitVec 12) (u : BitVec 28),
    let fp := s.params.fp
    let a := s.reg rA
    let b := s.reg rB
    let both := fun (near far : Instr) (cond : Bool) =>
      Branches near s (cond = true) (BitVec.ofInt 32 U.toInt) 4 ∧
      Branches far s (cond = true) (BitVec.ofInt 32 u.toInt) 6
    both (.fgBeqS rA rB U) (.fwBeqS rA rB u) (fpEq fp a b) ∧
    both (.fgBneS rA rB U) (.fwBneS rA rB u) (!fpEq fp a b) ∧
    both (.fgBgeS rA rB U) (.fwBgeS rA rB u) (fpLe fp b a) ∧
    both (.fgBgtS rA rB U) (.fwBgtS rA rB u) (fpLt fp b a) ∧
    both (.fBleS rA rB (.bg U)) (.fBleS rA rB (.bw u)) (fpLe fp a b) ∧
    both (.fBltS rA rB (.bg U)) (.fBltS rA rB (.bw u)) (fpLt fp a b)

/-! ### The whole machine -/

/-- Over all instructions: only exception entry and `b.mtspr` write ESR and EPCR (R30, R31), only the
multiply-accumulates and `b.mtspr` write MACHI and MACLO (R32), only those and the six floating-point
operations write UR (R33). Entry includes the platform's alignment exception, which only the forms with an
access of two or four bytes raise, under the policy `fault` alone (R64, R455; its vector is the model's
parameter, log 12). -/
def Obligations.WritersOfSpecialRegisters : Prop :=
  ∀ (i : Instr) (s t : State), exec i s = .next t →
    (t.esr ≠ s.esr ∨ t.epcr ≠ s.epcr →
      (∃ imm, i = .bSys imm) ∨ (∃ G, i = .btTrap G) ∨ (∃ rA rB o, i = .bwMtspr rA rB o) ∨
        RaisedAlignment i s t) ∧
    (t.machi ≠ s.machi ∨ t.maclo ≠ s.maclo →
      (∃ rA rB, i = .bMac rA rB) ∨ (∃ rA rB, i = .bMacs rA rB) ∨ (∃ rA rB o, i = .bwMtspr rA rB o)) ∧
    (t.ur ≠ s.ur →
      (∃ rA rB, i = .bMac rA rB) ∨ (∃ rA rB, i = .bMacs rA rB) ∨ (∃ rA rB o, i = .bwMtspr rA rB o) ∨
      (∃ rD rA rB, i = .fnAddS rD rA rB) ∨ (∃ rD rA rB, i = .fnSubS rD rA rB) ∨
      (∃ rD rA rB, i = .fnMulS rD rA rB) ∨ (∃ rD rA rB, i = .fnDivS rD rA rB) ∨
      (∃ rD rA, i = .fnFtoiS rD rA) ∨ (∃ rD rA, i = .fnItofS rD rA))

/-- Over all instructions: SR.F is changed by the compares and `b.cmpxchg` alone, IEE and TEE by `b.ei` and
`b.di`, CY by the sixteen arithmetic instructions, OV by those, `bn.bno` and `b.cov`, and any bit of SR
besides by those that write SR as a whole: `b.sys`, `b.trap`, `b.rfe`, `b.mtspr`, and the platform's alignment
exception (R26, R28, R461 and the introduction of file 42; the positions are the parameter SR_BIT of the
spec's decision D36; that `bn.bno` may clear OV is its decision D17, log 13; log 12 for the exception). -/
def Obligations.WritersOfStatusBits : Prop :=
  ∀ (i : Instr) (s t : State), ParamsWf s.params → exec i s = .next t →
    let whole := WritesWholeSr i ∨ RaisedAlignment i s t
    (t.flagF ≠ s.flagF → WritesF i ∨ whole) ∧
    (t.flagIee ≠ s.flagIee ∨ t.flagTee ≠ s.flagTee → i = .btEi ∨ i = .btDi ∨ whole) ∧
    (t.flagCy ≠ s.flagCy → WritesOvCy i ∨ whole) ∧
    (t.flagOv ≠ s.flagOv → WritesOvCy i ∨ (∃ S, i = .bnBno S) ∨ i = .bCov ∨ whole) ∧
    (∀ b, b ∉ srPositions s.params.srBit → bitAt t.sr b ≠ bitAt s.sr b → whole)
end

