-- ==== Sys2Proof/Laws/State.lean ====
section
/-! SUPPORT. One simp lemma per field per update of State, so that no proof unfolds a record update; what
reading a register gives after writing one; what reading a bit gives after writing one. -/

namespace Sys2Proof.Machine

/-! ### setPc -/

@[simp] theorem State.setPc_gpr (s : State) (v : Word) : (s.setPc v).gpr = s.gpr := rfl
@[simp] theorem State.setPc_pc (s : State) (v : Word) : (s.setPc v).pc = v := rfl
@[simp] theorem State.setPc_sr (s : State) (v : Word) : (s.setPc v).sr = s.sr := rfl
@[simp] theorem State.setPc_esr (s : State) (v : Word) : (s.setPc v).esr = s.esr := rfl
@[simp] theorem State.setPc_epcr (s : State) (v : Word) : (s.setPc v).epcr = s.epcr := rfl
@[simp] theorem State.setPc_machi (s : State) (v : Word) : (s.setPc v).machi = s.machi := rfl
@[simp] theorem State.setPc_maclo (s : State) (v : Word) : (s.setPc v).maclo = s.maclo := rfl
@[simp] theorem State.setPc_ur (s : State) (v : Word) : (s.setPc v).ur = s.ur := rfl
@[simp] theorem State.setPc_extraSpr (s : State) (v : Word) : (s.setPc v).extraSpr = s.extraSpr := rfl
@[simp] theorem State.setPc_mem (s : State) (v : Word) : (s.setPc v).mem = s.mem := rfl
@[simp] theorem State.setPc_stored (s : State) (v : Word) : (s.setPc v).stored = s.stored := rfl
@[simp] theorem State.setPc_asm (s : State) (v : Word) : (s.setPc v).asm = s.asm := rfl
@[simp] theorem State.setPc_params (s : State) (v : Word) : (s.setPc v).params = s.params := rfl
@[simp] theorem State.setPc_irq (s : State) (v : Word) : (s.setPc v).irq = s.irq := rfl
@[simp] theorem State.setPc_draws (s : State) (v : Word) : (s.setPc v).draws = s.draws := rfl
@[simp] theorem State.setPc_reg (s : State) (v : Word) (r : RegNum) : (s.setPc v).reg r = s.reg r := rfl
@[simp] theorem State.setPc_readByte (s : State) (v : Word) (x : Word) : (s.setPc v).readByte x = s.readByte x := rfl

/-! ### setSr -/

@[simp] theorem State.setSr_gpr (s : State) (v : Word) : (s.setSr v).gpr = s.gpr := rfl
@[simp] theorem State.setSr_pc (s : State) (v : Word) : (s.setSr v).pc = s.pc := rfl
@[simp] theorem State.setSr_sr (s : State) (v : Word) : (s.setSr v).sr = v := rfl
@[simp] theorem State.setSr_esr (s : State) (v : Word) : (s.setSr v).esr = s.esr := rfl
@[simp] theorem State.setSr_epcr (s : State) (v : Word) : (s.setSr v).epcr = s.epcr := rfl
@[simp] theorem State.setSr_machi (s : State) (v : Word) : (s.setSr v).machi = s.machi := rfl
@[simp] theorem State.setSr_maclo (s : State) (v : Word) : (s.setSr v).maclo = s.maclo := rfl
@[simp] theorem State.setSr_ur (s : State) (v : Word) : (s.setSr v).ur = s.ur := rfl
@[simp] theorem State.setSr_extraSpr (s : State) (v : Word) : (s.setSr v).extraSpr = s.extraSpr := rfl
@[simp] theorem State.setSr_mem (s : State) (v : Word) : (s.setSr v).mem = s.mem := rfl
@[simp] theorem State.setSr_stored (s : State) (v : Word) : (s.setSr v).stored = s.stored := rfl
@[simp] theorem State.setSr_asm (s : State) (v : Word) : (s.setSr v).asm = s.asm := rfl
@[simp] theorem State.setSr_params (s : State) (v : Word) : (s.setSr v).params = s.params := rfl
@[simp] theorem State.setSr_irq (s : State) (v : Word) : (s.setSr v).irq = s.irq := rfl
@[simp] theorem State.setSr_draws (s : State) (v : Word) : (s.setSr v).draws = s.draws := rfl
@[simp] theorem State.setSr_reg (s : State) (v : Word) (r : RegNum) : (s.setSr v).reg r = s.reg r := rfl
@[simp] theorem State.setSr_readByte (s : State) (v : Word) (x : Word) : (s.setSr v).readByte x = s.readByte x := rfl

/-! ### setUr -/

@[simp] theorem State.setUr_gpr (s : State) (v : Word) : (s.setUr v).gpr = s.gpr := rfl
@[simp] theorem State.setUr_pc (s : State) (v : Word) : (s.setUr v).pc = s.pc := rfl
@[simp] theorem State.setUr_sr (s : State) (v : Word) : (s.setUr v).sr = s.sr := rfl
@[simp] theorem State.setUr_esr (s : State) (v : Word) : (s.setUr v).esr = s.esr := rfl
@[simp] theorem State.setUr_epcr (s : State) (v : Word) : (s.setUr v).epcr = s.epcr := rfl
@[simp] theorem State.setUr_machi (s : State) (v : Word) : (s.setUr v).machi = s.machi := rfl
@[simp] theorem State.setUr_maclo (s : State) (v : Word) : (s.setUr v).maclo = s.maclo := rfl
@[simp] theorem State.setUr_ur (s : State) (v : Word) : (s.setUr v).ur = v := rfl
@[simp] theorem State.setUr_extraSpr (s : State) (v : Word) : (s.setUr v).extraSpr = s.extraSpr := rfl
@[simp] theorem State.setUr_mem (s : State) (v : Word) : (s.setUr v).mem = s.mem := rfl
@[simp] theorem State.setUr_stored (s : State) (v : Word) : (s.setUr v).stored = s.stored := rfl
@[simp] theorem State.setUr_asm (s : State) (v : Word) : (s.setUr v).asm = s.asm := rfl
@[simp] theorem State.setUr_params (s : State) (v : Word) : (s.setUr v).params = s.params := rfl
@[simp] theorem State.setUr_irq (s : State) (v : Word) : (s.setUr v).irq = s.irq := rfl
@[simp] theorem State.setUr_draws (s : State) (v : Word) : (s.setUr v).draws = s.draws := rfl
@[simp] theorem State.setUr_reg (s : State) (v : Word) (r : RegNum) : (s.setUr v).reg r = s.reg r := rfl
@[simp] theorem State.setUr_readByte (s : State) (v : Word) (x : Word) : (s.setUr v).readByte x = s.readByte x := rfl

/-! ### setEsr -/

@[simp] theorem State.setEsr_gpr (s : State) (v : Word) : (s.setEsr v).gpr = s.gpr := rfl
@[simp] theorem State.setEsr_pc (s : State) (v : Word) : (s.setEsr v).pc = s.pc := rfl
@[simp] theorem State.setEsr_sr (s : State) (v : Word) : (s.setEsr v).sr = s.sr := rfl
@[simp] theorem State.setEsr_esr (s : State) (v : Word) : (s.setEsr v).esr = v := rfl
@[simp] theorem State.setEsr_epcr (s : State) (v : Word) : (s.setEsr v).epcr = s.epcr := rfl
@[simp] theorem State.setEsr_machi (s : State) (v : Word) : (s.setEsr v).machi = s.machi := rfl
@[simp] theorem State.setEsr_maclo (s : State) (v : Word) : (s.setEsr v).maclo = s.maclo := rfl
@[simp] theorem State.setEsr_ur (s : State) (v : Word) : (s.setEsr v).ur = s.ur := rfl
@[simp] theorem State.setEsr_extraSpr (s : State) (v : Word) : (s.setEsr v).extraSpr = s.extraSpr := rfl
@[simp] theorem State.setEsr_mem (s : State) (v : Word) : (s.setEsr v).mem = s.mem := rfl
@[simp] theorem State.setEsr_stored (s : State) (v : Word) : (s.setEsr v).stored = s.stored := rfl
@[simp] theorem State.setEsr_asm (s : State) (v : Word) : (s.setEsr v).asm = s.asm := rfl
@[simp] theorem State.setEsr_params (s : State) (v : Word) : (s.setEsr v).params = s.params := rfl
@[simp] theorem State.setEsr_irq (s : State) (v : Word) : (s.setEsr v).irq = s.irq := rfl
@[simp] theorem State.setEsr_draws (s : State) (v : Word) : (s.setEsr v).draws = s.draws := rfl
@[simp] theorem State.setEsr_reg (s : State) (v : Word) (r : RegNum) : (s.setEsr v).reg r = s.reg r := rfl
@[simp] theorem State.setEsr_readByte (s : State) (v : Word) (x : Word) : (s.setEsr v).readByte x = s.readByte x := rfl

/-! ### setEpcr -/

@[simp] theorem State.setEpcr_gpr (s : State) (v : Word) : (s.setEpcr v).gpr = s.gpr := rfl
@[simp] theorem State.setEpcr_pc (s : State) (v : Word) : (s.setEpcr v).pc = s.pc := rfl
@[simp] theorem State.setEpcr_sr (s : State) (v : Word) : (s.setEpcr v).sr = s.sr := rfl
@[simp] theorem State.setEpcr_esr (s : State) (v : Word) : (s.setEpcr v).esr = s.esr := rfl
@[simp] theorem State.setEpcr_epcr (s : State) (v : Word) : (s.setEpcr v).epcr = v := rfl
@[simp] theorem State.setEpcr_machi (s : State) (v : Word) : (s.setEpcr v).machi = s.machi := rfl
@[simp] theorem State.setEpcr_maclo (s : State) (v : Word) : (s.setEpcr v).maclo = s.maclo := rfl
@[simp] theorem State.setEpcr_ur (s : State) (v : Word) : (s.setEpcr v).ur = s.ur := rfl
@[simp] theorem State.setEpcr_extraSpr (s : State) (v : Word) : (s.setEpcr v).extraSpr = s.extraSpr := rfl
@[simp] theorem State.setEpcr_mem (s : State) (v : Word) : (s.setEpcr v).mem = s.mem := rfl
@[simp] theorem State.setEpcr_stored (s : State) (v : Word) : (s.setEpcr v).stored = s.stored := rfl
@[simp] theorem State.setEpcr_asm (s : State) (v : Word) : (s.setEpcr v).asm = s.asm := rfl
@[simp] theorem State.setEpcr_params (s : State) (v : Word) : (s.setEpcr v).params = s.params := rfl
@[simp] theorem State.setEpcr_irq (s : State) (v : Word) : (s.setEpcr v).irq = s.irq := rfl
@[simp] theorem State.setEpcr_draws (s : State) (v : Word) : (s.setEpcr v).draws = s.draws := rfl
@[simp] theorem State.setEpcr_reg (s : State) (v : Word) (r : RegNum) : (s.setEpcr v).reg r = s.reg r := rfl
@[simp] theorem State.setEpcr_readByte (s : State) (v : Word) (x : Word) : (s.setEpcr v).readByte x = s.readByte x := rfl

/-! ### setMachi -/

@[simp] theorem State.setMachi_gpr (s : State) (v : Word) : (s.setMachi v).gpr = s.gpr := rfl
@[simp] theorem State.setMachi_pc (s : State) (v : Word) : (s.setMachi v).pc = s.pc := rfl
@[simp] theorem State.setMachi_sr (s : State) (v : Word) : (s.setMachi v).sr = s.sr := rfl
@[simp] theorem State.setMachi_esr (s : State) (v : Word) : (s.setMachi v).esr = s.esr := rfl
@[simp] theorem State.setMachi_epcr (s : State) (v : Word) : (s.setMachi v).epcr = s.epcr := rfl
@[simp] theorem State.setMachi_machi (s : State) (v : Word) : (s.setMachi v).machi = v := rfl
@[simp] theorem State.setMachi_maclo (s : State) (v : Word) : (s.setMachi v).maclo = s.maclo := rfl
@[simp] theorem State.setMachi_ur (s : State) (v : Word) : (s.setMachi v).ur = s.ur := rfl
@[simp] theorem State.setMachi_extraSpr (s : State) (v : Word) : (s.setMachi v).extraSpr = s.extraSpr := rfl
@[simp] theorem State.setMachi_mem (s : State) (v : Word) : (s.setMachi v).mem = s.mem := rfl
@[simp] theorem State.setMachi_stored (s : State) (v : Word) : (s.setMachi v).stored = s.stored := rfl
@[simp] theorem State.setMachi_asm (s : State) (v : Word) : (s.setMachi v).asm = s.asm := rfl
@[simp] theorem State.setMachi_params (s : State) (v : Word) : (s.setMachi v).params = s.params := rfl
@[simp] theorem State.setMachi_irq (s : State) (v : Word) : (s.setMachi v).irq = s.irq := rfl
@[simp] theorem State.setMachi_draws (s : State) (v : Word) : (s.setMachi v).draws = s.draws := rfl
@[simp] theorem State.setMachi_reg (s : State) (v : Word) (r : RegNum) : (s.setMachi v).reg r = s.reg r := rfl
@[simp] theorem State.setMachi_readByte (s : State) (v : Word) (x : Word) : (s.setMachi v).readByte x = s.readByte x := rfl

/-! ### setMaclo -/

@[simp] theorem State.setMaclo_gpr (s : State) (v : Word) : (s.setMaclo v).gpr = s.gpr := rfl
@[simp] theorem State.setMaclo_pc (s : State) (v : Word) : (s.setMaclo v).pc = s.pc := rfl
@[simp] theorem State.setMaclo_sr (s : State) (v : Word) : (s.setMaclo v).sr = s.sr := rfl
@[simp] theorem State.setMaclo_esr (s : State) (v : Word) : (s.setMaclo v).esr = s.esr := rfl
@[simp] theorem State.setMaclo_epcr (s : State) (v : Word) : (s.setMaclo v).epcr = s.epcr := rfl
@[simp] theorem State.setMaclo_machi (s : State) (v : Word) : (s.setMaclo v).machi = s.machi := rfl
@[simp] theorem State.setMaclo_maclo (s : State) (v : Word) : (s.setMaclo v).maclo = v := rfl
@[simp] theorem State.setMaclo_ur (s : State) (v : Word) : (s.setMaclo v).ur = s.ur := rfl
@[simp] theorem State.setMaclo_extraSpr (s : State) (v : Word) : (s.setMaclo v).extraSpr = s.extraSpr := rfl
@[simp] theorem State.setMaclo_mem (s : State) (v : Word) : (s.setMaclo v).mem = s.mem := rfl
@[simp] theorem State.setMaclo_stored (s : State) (v : Word) : (s.setMaclo v).stored = s.stored := rfl
@[simp] theorem State.setMaclo_asm (s : State) (v : Word) : (s.setMaclo v).asm = s.asm := rfl
@[simp] theorem State.setMaclo_params (s : State) (v : Word) : (s.setMaclo v).params = s.params := rfl
@[simp] theorem State.setMaclo_irq (s : State) (v : Word) : (s.setMaclo v).irq = s.irq := rfl
@[simp] theorem State.setMaclo_draws (s : State) (v : Word) : (s.setMaclo v).draws = s.draws := rfl
@[simp] theorem State.setMaclo_reg (s : State) (v : Word) (r : RegNum) : (s.setMaclo v).reg r = s.reg r := rfl
@[simp] theorem State.setMaclo_readByte (s : State) (v : Word) (x : Word) : (s.setMaclo v).readByte x = s.readByte x := rfl

/-! ### setExtraSpr -/

@[simp] theorem State.setExtraSpr_gpr (s : State) (v : List (Word × Word)) : (s.setExtraSpr v).gpr = s.gpr := rfl
@[simp] theorem State.setExtraSpr_pc (s : State) (v : List (Word × Word)) : (s.setExtraSpr v).pc = s.pc := rfl
@[simp] theorem State.setExtraSpr_sr (s : State) (v : List (Word × Word)) : (s.setExtraSpr v).sr = s.sr := rfl
@[simp] theorem State.setExtraSpr_esr (s : State) (v : List (Word × Word)) : (s.setExtraSpr v).esr = s.esr := rfl
@[simp] theorem State.setExtraSpr_epcr (s : State) (v : List (Word × Word)) : (s.setExtraSpr v).epcr = s.epcr := rfl
@[simp] theorem State.setExtraSpr_machi (s : State) (v : List (Word × Word)) : (s.setExtraSpr v).machi = s.machi := rfl
@[simp] theorem State.setExtraSpr_maclo (s : State) (v : List (Word × Word)) : (s.setExtraSpr v).maclo = s.maclo := rfl
@[simp] theorem State.setExtraSpr_ur (s : State) (v : List (Word × Word)) : (s.setExtraSpr v).ur = s.ur := rfl
@[simp] theorem State.setExtraSpr_extraSpr (s : State) (v : List (Word × Word)) : (s.setExtraSpr v).extraSpr = v := rfl
@[simp] theorem State.setExtraSpr_mem (s : State) (v : List (Word × Word)) : (s.setExtraSpr v).mem = s.mem := rfl
@[simp] theorem State.setExtraSpr_stored (s : State) (v : List (Word × Word)) : (s.setExtraSpr v).stored = s.stored := rfl
@[simp] theorem State.setExtraSpr_asm (s : State) (v : List (Word × Word)) : (s.setExtraSpr v).asm = s.asm := rfl
@[simp] theorem State.setExtraSpr_params (s : State) (v : List (Word × Word)) : (s.setExtraSpr v).params = s.params := rfl
@[simp] theorem State.setExtraSpr_irq (s : State) (v : List (Word × Word)) : (s.setExtraSpr v).irq = s.irq := rfl
@[simp] theorem State.setExtraSpr_draws (s : State) (v : List (Word × Word)) : (s.setExtraSpr v).draws = s.draws := rfl
@[simp] theorem State.setExtraSpr_reg (s : State) (v : List (Word × Word)) (r : RegNum) : (s.setExtraSpr v).reg r = s.reg r := rfl
@[simp] theorem State.setExtraSpr_readByte (s : State) (v : List (Word × Word)) (x : Word) : (s.setExtraSpr v).readByte x = s.readByte x := rfl

/-! ### drawn -/

@[simp] theorem State.drawn_gpr (s : State) : s.drawn.gpr = s.gpr := rfl
@[simp] theorem State.drawn_pc (s : State) : s.drawn.pc = s.pc := rfl
@[simp] theorem State.drawn_sr (s : State) : s.drawn.sr = s.sr := rfl
@[simp] theorem State.drawn_esr (s : State) : s.drawn.esr = s.esr := rfl
@[simp] theorem State.drawn_epcr (s : State) : s.drawn.epcr = s.epcr := rfl
@[simp] theorem State.drawn_machi (s : State) : s.drawn.machi = s.machi := rfl
@[simp] theorem State.drawn_maclo (s : State) : s.drawn.maclo = s.maclo := rfl
@[simp] theorem State.drawn_ur (s : State) : s.drawn.ur = s.ur := rfl
@[simp] theorem State.drawn_extraSpr (s : State) : s.drawn.extraSpr = s.extraSpr := rfl
@[simp] theorem State.drawn_mem (s : State) : s.drawn.mem = s.mem := rfl
@[simp] theorem State.drawn_stored (s : State) : s.drawn.stored = s.stored := rfl
@[simp] theorem State.drawn_asm (s : State) : s.drawn.asm = s.asm := rfl
@[simp] theorem State.drawn_params (s : State) : s.drawn.params = s.params := rfl
@[simp] theorem State.drawn_irq (s : State) : s.drawn.irq = s.irq := rfl
@[simp] theorem State.drawn_draws (s : State) : s.drawn.draws = s.draws + 1 := rfl
@[simp] theorem State.drawn_reg (s : State) (r : RegNum) : s.drawn.reg r = s.reg r := rfl
@[simp] theorem State.drawn_readByte (s : State) (x : Word) : s.drawn.readByte x = s.readByte x := rfl

/-! ### storeByte -/

@[simp] theorem State.storeByte_gpr (s : State) (a : Word) (b : Byte) : (s.storeByte a b).gpr = s.gpr := rfl
@[simp] theorem State.storeByte_pc (s : State) (a : Word) (b : Byte) : (s.storeByte a b).pc = s.pc := rfl
@[simp] theorem State.storeByte_sr (s : State) (a : Word) (b : Byte) : (s.storeByte a b).sr = s.sr := rfl
@[simp] theorem State.storeByte_esr (s : State) (a : Word) (b : Byte) : (s.storeByte a b).esr = s.esr := rfl
@[simp] theorem State.storeByte_epcr (s : State) (a : Word) (b : Byte) : (s.storeByte a b).epcr = s.epcr := rfl
@[simp] theorem State.storeByte_machi (s : State) (a : Word) (b : Byte) : (s.storeByte a b).machi = s.machi := rfl
@[simp] theorem State.storeByte_maclo (s : State) (a : Word) (b : Byte) : (s.storeByte a b).maclo = s.maclo := rfl
@[simp] theorem State.storeByte_ur (s : State) (a : Word) (b : Byte) : (s.storeByte a b).ur = s.ur := rfl
@[simp] theorem State.storeByte_extraSpr (s : State) (a : Word) (b : Byte) : (s.storeByte a b).extraSpr = s.extraSpr := rfl
@[simp] theorem State.storeByte_mem (s : State) (a : Word) (b : Byte) : (s.storeByte a b).mem = s.mem.insert a.toNat b := rfl
@[simp] theorem State.storeByte_stored (s : State) (a : Word) (b : Byte) : (s.storeByte a b).stored = insertAddr s.stored a.toNat := rfl
@[simp] theorem State.storeByte_asm (s : State) (a : Word) (b : Byte) : (s.storeByte a b).asm = s.asm := rfl
@[simp] theorem State.storeByte_params (s : State) (a : Word) (b : Byte) : (s.storeByte a b).params = s.params := rfl
@[simp] theorem State.storeByte_irq (s : State) (a : Word) (b : Byte) : (s.storeByte a b).irq = s.irq := rfl
@[simp] theorem State.storeByte_draws (s : State) (a : Word) (b : Byte) : (s.storeByte a b).draws = s.draws := rfl
@[simp] theorem State.storeByte_reg (s : State) (a : Word) (b : Byte) (r : RegNum) :
    (s.storeByte a b).reg r = s.reg r := rfl

/-! ### setReg -/

@[simp] theorem State.setReg_pc (s : State) (r : RegNum) (v : Word) : (s.setReg r v).pc = s.pc := by
  unfold State.setReg; split <;> rfl
@[simp] theorem State.setReg_sr (s : State) (r : RegNum) (v : Word) : (s.setReg r v).sr = s.sr := by
  unfold State.setReg; split <;> rfl
@[simp] theorem State.setReg_esr (s : State) (r : RegNum) (v : Word) : (s.setReg r v).esr = s.esr := by
  unfold State.setReg; split <;> rfl
@[simp] theorem State.setReg_epcr (s : State) (r : RegNum) (v : Word) : (s.setReg r v).epcr = s.epcr := by
  unfold State.setReg; split <;> rfl
@[simp] theorem State.setReg_machi (s : State) (r : RegNum) (v : Word) : (s.setReg r v).machi = s.machi := by
  unfold State.setReg; split <;> rfl
@[simp] theorem State.setReg_maclo (s : State) (r : RegNum) (v : Word) : (s.setReg r v).maclo = s.maclo := by
  unfold State.setReg; split <;> rfl
@[simp] theorem State.setReg_ur (s : State) (r : RegNum) (v : Word) : (s.setReg r v).ur = s.ur := by
  unfold State.setReg; split <;> rfl
@[simp] theorem State.setReg_extraSpr (s : State) (r : RegNum) (v : Word) : (s.setReg r v).extraSpr = s.extraSpr := by
  unfold State.setReg; split <;> rfl
@[simp] theorem State.setReg_mem (s : State) (r : RegNum) (v : Word) : (s.setReg r v).mem = s.mem := by
  unfold State.setReg; split <;> rfl
@[simp] theorem State.setReg_stored (s : State) (r : RegNum) (v : Word) : (s.setReg r v).stored = s.stored := by
  unfold State.setReg; split <;> rfl
@[simp] theorem State.setReg_asm (s : State) (r : RegNum) (v : Word) : (s.setReg r v).asm = s.asm := by
  unfold State.setReg; split <;> rfl
@[simp] theorem State.setReg_params (s : State) (r : RegNum) (v : Word) : (s.setReg r v).params = s.params := by
  unfold State.setReg; split <;> rfl
@[simp] theorem State.setReg_irq (s : State) (r : RegNum) (v : Word) : (s.setReg r v).irq = s.irq := by
  unfold State.setReg; split <;> rfl
@[simp] theorem State.setReg_draws (s : State) (r : RegNum) (v : Word) : (s.setReg r v).draws = s.draws := by
  unfold State.setReg; split <;> rfl
@[simp] theorem State.setReg_readByte (s : State) (r : RegNum) (v : Word) (x : Word) :
    (s.setReg r v).readByte x = s.readByte x := by simp [State.readByte]

/-- x[0] reads as 0 (`spec/10_state.md` R21). -/
@[simp] theorem State.reg_zero (s : State) : s.reg 0#5 = 0#32 := rfl

/-- A write to x[0] is discarded (`spec/10_state.md` R21). -/
@[simp] theorem State.setReg_zero (s : State) (v : Word) : s.setReg 0#5 v = s := rfl

/-- What a register reads as after a register is written. -/
theorem State.reg_setReg (s : State) (r q : RegNum) (v : Word) :
    (s.setReg r v).reg q = if q = r then (if r = 0 then 0 else v) else s.reg q := by
  by_cases hr : r = 0#5
  · subst hr
    by_cases hq : q = 0#5
    · subst hq; rfl
    · rw [State.setReg_zero, if_neg hq]
  · by_cases hq : q = 0#5
    · subst hq
      rw [State.reg_zero, State.reg_zero, if_neg (Ne.symm hr)]
    · have hr' : r.toNat ≠ 0 := fun h => hr (BitVec.eq_of_toNat_eq h)
      have hq' : q.toNat ≠ 0 := fun h => hq (BitVec.eq_of_toNat_eq h)
      have hq31 : q.toNat - 1 < 31 := by have := q.isLt; omega
      have hr31 : r.toNat - 1 < 31 := by have := r.isLt; omega
      have write : s.setReg r v = { s with gpr := s.gpr.set (r.toNat - 1) v hr31 } := if_neg hr
      have read : ∀ t : State, t.reg q = t.gpr[q.toNat - 1]'hq31 := fun t => if_neg hq
      have hr0 : ¬ r = 0 := hr
      rw [write, read, read, if_neg hr0]
      by_cases h : q = r
      · subst h; simp
      · have hne : r.toNat - 1 ≠ q.toNat - 1 :=
          fun e => h (BitVec.eq_of_toNat_eq (by omega))
        rw [if_neg h]
        exact Vector.getElem_set_ne hr31 hq31 hne

@[simp] theorem State.reg_setReg_self (s : State) (r : RegNum) (v : Word) :
    (s.setReg r v).reg r = if r = 0 then 0 else v := by rw [State.reg_setReg, if_pos rfl]

theorem State.reg_setReg_of_ne (s : State) {r q : RegNum} (v : Word) (h : q ≠ r) :
    (s.setReg r v).reg q = s.reg q := by rw [State.reg_setReg, if_neg h]

/-! ### Derived updates -/

@[simp] theorem State.advance_gpr (s : State) (c : LenClass) : (s.advance c).gpr = s.gpr := rfl
@[simp] theorem State.advance_pc (s : State) (c : LenClass) : (s.advance c).pc = s.nextPc c := rfl
@[simp] theorem State.advance_sr (s : State) (c : LenClass) : (s.advance c).sr = s.sr := rfl
@[simp] theorem State.advance_esr (s : State) (c : LenClass) : (s.advance c).esr = s.esr := rfl
@[simp] theorem State.advance_epcr (s : State) (c : LenClass) : (s.advance c).epcr = s.epcr := rfl
@[simp] theorem State.advance_machi (s : State) (c : LenClass) : (s.advance c).machi = s.machi := rfl
@[simp] theorem State.advance_maclo (s : State) (c : LenClass) : (s.advance c).maclo = s.maclo := rfl
@[simp] theorem State.advance_ur (s : State) (c : LenClass) : (s.advance c).ur = s.ur := rfl
@[simp] theorem State.advance_extraSpr (s : State) (c : LenClass) : (s.advance c).extraSpr = s.extraSpr := rfl
@[simp] theorem State.advance_mem (s : State) (c : LenClass) : (s.advance c).mem = s.mem := rfl
@[simp] theorem State.advance_stored (s : State) (c : LenClass) : (s.advance c).stored = s.stored := rfl
@[simp] theorem State.advance_asm (s : State) (c : LenClass) : (s.advance c).asm = s.asm := rfl
@[simp] theorem State.advance_params (s : State) (c : LenClass) : (s.advance c).params = s.params := rfl
@[simp] theorem State.advance_irq (s : State) (c : LenClass) : (s.advance c).irq = s.irq := rfl
@[simp] theorem State.advance_draws (s : State) (c : LenClass) : (s.advance c).draws = s.draws := rfl
@[simp] theorem State.advance_reg (s : State) (c : LenClass) (r : RegNum) : (s.advance c).reg r = s.reg r := rfl
@[simp] theorem State.advance_readByte (s : State) (c : LenClass) (x : Word) :
    (s.advance c).readByte x = s.readByte x := rfl

@[simp] theorem State.setF_gpr (s : State) (b : Bool) : (s.setF b).gpr = s.gpr := rfl
@[simp] theorem State.setF_pc (s : State) (b : Bool) : (s.setF b).pc = s.pc := rfl
@[simp] theorem State.setF_sr (s : State) (b : Bool) : (s.setF b).sr = withBit s.sr s.params.srBit.f b := rfl
@[simp] theorem State.setF_esr (s : State) (b : Bool) : (s.setF b).esr = s.esr := rfl
@[simp] theorem State.setF_epcr (s : State) (b : Bool) : (s.setF b).epcr = s.epcr := rfl
@[simp] theorem State.setF_machi (s : State) (b : Bool) : (s.setF b).machi = s.machi := rfl
@[simp] theorem State.setF_maclo (s : State) (b : Bool) : (s.setF b).maclo = s.maclo := rfl
@[simp] theorem State.setF_ur (s : State) (b : Bool) : (s.setF b).ur = s.ur := rfl
@[simp] theorem State.setF_extraSpr (s : State) (b : Bool) : (s.setF b).extraSpr = s.extraSpr := rfl
@[simp] theorem State.setF_mem (s : State) (b : Bool) : (s.setF b).mem = s.mem := rfl
@[simp] theorem State.setF_stored (s : State) (b : Bool) : (s.setF b).stored = s.stored := rfl
@[simp] theorem State.setF_asm (s : State) (b : Bool) : (s.setF b).asm = s.asm := rfl
@[simp] theorem State.setF_params (s : State) (b : Bool) : (s.setF b).params = s.params := rfl
@[simp] theorem State.setF_irq (s : State) (b : Bool) : (s.setF b).irq = s.irq := rfl
@[simp] theorem State.setF_draws (s : State) (b : Bool) : (s.setF b).draws = s.draws := rfl
@[simp] theorem State.setF_reg (s : State) (b : Bool) (r : RegNum) : (s.setF b).reg r = s.reg r := rfl
@[simp] theorem State.setF_readByte (s : State) (b : Bool) (x : Word) : (s.setF b).readByte x = s.readByte x := rfl

@[simp] theorem State.setCy_gpr (s : State) (b : Bool) : (s.setCy b).gpr = s.gpr := rfl
@[simp] theorem State.setCy_pc (s : State) (b : Bool) : (s.setCy b).pc = s.pc := rfl
@[simp] theorem State.setCy_sr (s : State) (b : Bool) : (s.setCy b).sr = withBit s.sr s.params.srBit.cy b := rfl
@[simp] theorem State.setCy_esr (s : State) (b : Bool) : (s.setCy b).esr = s.esr := rfl
@[simp] theorem State.setCy_epcr (s : State) (b : Bool) : (s.setCy b).epcr = s.epcr := rfl
@[simp] theorem State.setCy_machi (s : State) (b : Bool) : (s.setCy b).machi = s.machi := rfl
@[simp] theorem State.setCy_maclo (s : State) (b : Bool) : (s.setCy b).maclo = s.maclo := rfl
@[simp] theorem State.setCy_ur (s : State) (b : Bool) : (s.setCy b).ur = s.ur := rfl
@[simp] theorem State.setCy_extraSpr (s : State) (b : Bool) : (s.setCy b).extraSpr = s.extraSpr := rfl
@[simp] theorem State.setCy_mem (s : State) (b : Bool) : (s.setCy b).mem = s.mem := rfl
@[simp] theorem State.setCy_stored (s : State) (b : Bool) : (s.setCy b).stored = s.stored := rfl
@[simp] theorem State.setCy_asm (s : State) (b : Bool) : (s.setCy b).asm = s.asm := rfl
@[simp] theorem State.setCy_params (s : State) (b : Bool) : (s.setCy b).params = s.params := rfl
@[simp] theorem State.setCy_irq (s : State) (b : Bool) : (s.setCy b).irq = s.irq := rfl
@[simp] theorem State.setCy_draws (s : State) (b : Bool) : (s.setCy b).draws = s.draws := rfl
@[simp] theorem State.setCy_reg (s : State) (b : Bool) (r : RegNum) : (s.setCy b).reg r = s.reg r := rfl
@[simp] theorem State.setCy_readByte (s : State) (b : Bool) (x : Word) : (s.setCy b).readByte x = s.readByte x := rfl

@[simp] theorem State.setOv_gpr (s : State) (b : Bool) : (s.setOv b).gpr = s.gpr := rfl
@[simp] theorem State.setOv_pc (s : State) (b : Bool) : (s.setOv b).pc = s.pc := rfl
@[simp] theorem State.setOv_sr (s : State) (b : Bool) : (s.setOv b).sr = withBit s.sr s.params.srBit.ov b := rfl
@[simp] theorem State.setOv_esr (s : State) (b : Bool) : (s.setOv b).esr = s.esr := rfl
@[simp] theorem State.setOv_epcr (s : State) (b : Bool) : (s.setOv b).epcr = s.epcr := rfl
@[simp] theorem State.setOv_machi (s : State) (b : Bool) : (s.setOv b).machi = s.machi := rfl
@[simp] theorem State.setOv_maclo (s : State) (b : Bool) : (s.setOv b).maclo = s.maclo := rfl
@[simp] theorem State.setOv_ur (s : State) (b : Bool) : (s.setOv b).ur = s.ur := rfl
@[simp] theorem State.setOv_extraSpr (s : State) (b : Bool) : (s.setOv b).extraSpr = s.extraSpr := rfl
@[simp] theorem State.setOv_mem (s : State) (b : Bool) : (s.setOv b).mem = s.mem := rfl
@[simp] theorem State.setOv_stored (s : State) (b : Bool) : (s.setOv b).stored = s.stored := rfl
@[simp] theorem State.setOv_asm (s : State) (b : Bool) : (s.setOv b).asm = s.asm := rfl
@[simp] theorem State.setOv_params (s : State) (b : Bool) : (s.setOv b).params = s.params := rfl
@[simp] theorem State.setOv_irq (s : State) (b : Bool) : (s.setOv b).irq = s.irq := rfl
@[simp] theorem State.setOv_draws (s : State) (b : Bool) : (s.setOv b).draws = s.draws := rfl
@[simp] theorem State.setOv_reg (s : State) (b : Bool) (r : RegNum) : (s.setOv b).reg r = s.reg r := rfl
@[simp] theorem State.setOv_readByte (s : State) (b : Bool) (x : Word) : (s.setOv b).readByte x = s.readByte x := rfl

@[simp] theorem State.setUrBit_gpr (s : State) (i : BitPos) (b : Bool) : (s.setUrBit i b).gpr = s.gpr := rfl
@[simp] theorem State.setUrBit_pc (s : State) (i : BitPos) (b : Bool) : (s.setUrBit i b).pc = s.pc := rfl
@[simp] theorem State.setUrBit_sr (s : State) (i : BitPos) (b : Bool) : (s.setUrBit i b).sr = s.sr := rfl
@[simp] theorem State.setUrBit_esr (s : State) (i : BitPos) (b : Bool) : (s.setUrBit i b).esr = s.esr := rfl
@[simp] theorem State.setUrBit_epcr (s : State) (i : BitPos) (b : Bool) : (s.setUrBit i b).epcr = s.epcr := rfl
@[simp] theorem State.setUrBit_machi (s : State) (i : BitPos) (b : Bool) : (s.setUrBit i b).machi = s.machi := rfl
@[simp] theorem State.setUrBit_maclo (s : State) (i : BitPos) (b : Bool) : (s.setUrBit i b).maclo = s.maclo := rfl
@[simp] theorem State.setUrBit_ur (s : State) (i : BitPos) (b : Bool) : (s.setUrBit i b).ur = withBit s.ur i b := rfl
@[simp] theorem State.setUrBit_extraSpr (s : State) (i : BitPos) (b : Bool) : (s.setUrBit i b).extraSpr = s.extraSpr := rfl
@[simp] theorem State.setUrBit_mem (s : State) (i : BitPos) (b : Bool) : (s.setUrBit i b).mem = s.mem := rfl
@[simp] theorem State.setUrBit_stored (s : State) (i : BitPos) (b : Bool) : (s.setUrBit i b).stored = s.stored := rfl
@[simp] theorem State.setUrBit_asm (s : State) (i : BitPos) (b : Bool) : (s.setUrBit i b).asm = s.asm := rfl
@[simp] theorem State.setUrBit_params (s : State) (i : BitPos) (b : Bool) : (s.setUrBit i b).params = s.params := rfl
@[simp] theorem State.setUrBit_irq (s : State) (i : BitPos) (b : Bool) : (s.setUrBit i b).irq = s.irq := rfl
@[simp] theorem State.setUrBit_draws (s : State) (i : BitPos) (b : Bool) : (s.setUrBit i b).draws = s.draws := rfl
@[simp] theorem State.setUrBit_reg (s : State) (i : BitPos) (b : Bool) (r : RegNum) :
    (s.setUrBit i b).reg r = s.reg r := rfl
@[simp] theorem State.setUrBit_readByte (s : State) (i : BitPos) (b : Bool) (x : Word) :
    (s.setUrBit i b).readByte x = s.readByte x := rfl

@[simp] theorem State.setMac_gpr (s : State) (v : BitVec 64) : (s.setMac v).gpr = s.gpr := rfl
@[simp] theorem State.setMac_pc (s : State) (v : BitVec 64) : (s.setMac v).pc = s.pc := rfl
@[simp] theorem State.setMac_sr (s : State) (v : BitVec 64) : (s.setMac v).sr = s.sr := rfl
@[simp] theorem State.setMac_esr (s : State) (v : BitVec 64) : (s.setMac v).esr = s.esr := rfl
@[simp] theorem State.setMac_epcr (s : State) (v : BitVec 64) : (s.setMac v).epcr = s.epcr := rfl
@[simp] theorem State.setMac_machi (s : State) (v : BitVec 64) : (s.setMac v).machi = v.extractLsb' 32 32 := rfl
@[simp] theorem State.setMac_maclo (s : State) (v : BitVec 64) : (s.setMac v).maclo = v.extractLsb' 0 32 := rfl
@[simp] theorem State.setMac_ur (s : State) (v : BitVec 64) : (s.setMac v).ur = s.ur := rfl
@[simp] theorem State.setMac_extraSpr (s : State) (v : BitVec 64) : (s.setMac v).extraSpr = s.extraSpr := rfl
@[simp] theorem State.setMac_mem (s : State) (v : BitVec 64) : (s.setMac v).mem = s.mem := rfl
@[simp] theorem State.setMac_stored (s : State) (v : BitVec 64) : (s.setMac v).stored = s.stored := rfl
@[simp] theorem State.setMac_asm (s : State) (v : BitVec 64) : (s.setMac v).asm = s.asm := rfl
@[simp] theorem State.setMac_params (s : State) (v : BitVec 64) : (s.setMac v).params = s.params := rfl
@[simp] theorem State.setMac_irq (s : State) (v : BitVec 64) : (s.setMac v).irq = s.irq := rfl
@[simp] theorem State.setMac_draws (s : State) (v : BitVec 64) : (s.setMac v).draws = s.draws := rfl
@[simp] theorem State.setMac_reg (s : State) (v : BitVec 64) (r : RegNum) : (s.setMac v).reg r = s.reg r := rfl
@[simp] theorem State.setMac_readByte (s : State) (v : BitVec 64) (x : Word) :
    (s.setMac v).readByte x = s.readByte x := rfl

/-! ### Bits -/

/-- What a bit reads as after a bit is written. -/
theorem bitAt_withBit (v : Word) (i j : BitPos) (b : Bool) :
    bitAt (withBit v i b) j = if j = i then b else bitAt v j := by
  have hj : j.toNat < 32 := j.isLt
  have hij : decide (i.toNat = j.toNat) = decide (j = i) := by
    rw [decide_eq_decide]
    exact ⟨fun h => (BitVec.eq_of_toNat_eq h).symm, fun h => by rw [h]⟩
  unfold bitAt withBit
  cases b
  · rw [if_neg Bool.false_ne_true, BitVec.getLsbD_and, BitVec.getLsbD_not, BitVec.getLsbD_twoPow]
    by_cases h : j = i <;> simp [hj, hij, h]
  · rw [if_pos rfl, BitVec.getLsbD_or, BitVec.getLsbD_twoPow]
    by_cases h : j = i
    · subst h; simp [hj]
    · simp [hj, hij, h]

@[simp] theorem bitAt_withBit_self (v : Word) (i : BitPos) (b : Bool) : bitAt (withBit v i b) i = b := by
  rw [bitAt_withBit, if_pos rfl]

theorem bitAt_withBit_of_ne (v : Word) {i j : BitPos} (b : Bool) (h : j ≠ i) :
    bitAt (withBit v i b) j = bitAt v j := by rw [bitAt_withBit, if_neg h]

/-- What a bit of SR reads as after both enables are written. -/
theorem bitAt_withEnables (p : Params) (v : Word) (b : Bool) (j : BitPos) :
    bitAt (withEnables p v b) j =
      if j = p.srBit.tee ∨ j = p.srBit.iee then b else bitAt v j := by
  unfold withEnables
  by_cases h : j = p.srBit.tee
  · rw [bitAt_withBit, if_pos h, if_pos (Or.inl h)]
  · by_cases h' : j = p.srBit.iee <;> simp [bitAt_withBit, h, h']

/-- Two words with the same 32 bits are equal. -/
theorem eq_of_bitAt {v w : Word} (h : ∀ i, bitAt v i = bitAt w i) : v = w := by
  apply BitVec.eq_of_getLsbD_eq
  intro k hk
  have := h (BitVec.ofNat 5 k)
  simpa [bitAt, Nat.mod_eq_of_lt hk] using this

end Sys2Proof.Machine
end

