-- ==== Sys2Proof/Laws/Memory.lean ====
section
/-! SUPPORT. What the operations on memory and on the marked addresses do: reading after writing, and the
canonical form that every one of them keeps. -/

namespace Sys2Proof.Machine

/-! ### The list of listed bytes -/

/-- Looking up after an insertion. -/
theorem Memory.lookup_insert (m : Memory) (a c : Nat) (b : Byte) :
    (Memory.insert m a b).lookup c = if a = c then some b else m.lookup c := by
  induction m with
  | nil => simp [Memory.insert, Memory.lookup]
  | cons e m ih =>
    obtain ⟨k, v⟩ := e
    unfold Memory.insert
    split
    · simp [Memory.lookup]
    · split
      · rename_i h; subst h
        by_cases hc : a = c <;> simp [Memory.lookup, hc]
      · rename_i h₁ h₂
        by_cases hc : k = c
        · have : ¬ a = c := fun h => h₂ (h.trans hc.symm)
          simp [Memory.lookup, hc, this]
        · simp [Memory.lookup, hc, ih]

/-- Reading after an insertion. -/
theorem Memory.read_insert (m : Memory) (a c : Nat) (b : Byte) :
    (Memory.insert m a b).read c = if a = c then b else m.read c := by
  unfold Memory.read
  rw [Memory.lookup_insert]
  split <;> simp_all

/-- A rising list rises from any lower start. -/
theorem risingFrom_mono {lo lo' : Nat} (h : lo' ≤ lo) {l : List Nat} (hl : risingFrom lo l = true) :
    risingFrom lo' l = true := by
  cases l with
  | nil => rfl
  | cons a l =>
    simp only [risingFrom, Bool.and_eq_true, decide_eq_true_eq] at hl ⊢
    exact ⟨⟨by omega, hl.1.2⟩, hl.2⟩

/-- The addresses after an insertion are those of the memory with the address inserted. -/
theorem Memory.insert_keys (m : Memory) (a : Nat) (b : Byte) :
    (Memory.insert m a b).map Prod.fst = insertAddr (m.map Prod.fst) a := by
  induction m with
  | nil => rfl
  | cons e m ih =>
    obtain ⟨k, v⟩ := e
    unfold Memory.insert
    simp only [List.map_cons, insertAddr]
    split
    · rfl
    · split
      · rename_i h; simp [h]
      · simp [ih]

/-- Inserting an address keeps a list rising. -/
theorem risingFrom_insertAddr {l : List Nat} {lo a : Nat} (hl : risingFrom lo l = true) (ha : lo ≤ a)
    (hs : a < addressSpace) : risingFrom lo (insertAddr l a) = true := by
  induction l generalizing lo with
  | nil => simp [insertAddr, risingFrom, ha, hs]
  | cons k l ih =>
    simp only [risingFrom, Bool.and_eq_true, decide_eq_true_eq] at hl
    obtain ⟨⟨h₁, h₂⟩, h₃⟩ := hl
    unfold insertAddr
    split
    · rename_i h
      simp only [risingFrom, Bool.and_eq_true, decide_eq_true_eq]
      exact ⟨⟨ha, hs⟩, ⟨⟨h, h₂⟩, h₃⟩⟩
    · split
      · simp only [risingFrom, Bool.and_eq_true, decide_eq_true_eq]
        exact ⟨⟨h₁, h₂⟩, h₃⟩
      · simp only [risingFrom, Bool.and_eq_true, decide_eq_true_eq]
        exact ⟨⟨h₁, h₂⟩, ih h₃ (by omega)⟩

/-- What is in a list after an insertion. -/
@[simp] theorem mem_insertAddr (l : List Nat) (a x : Nat) : x ∈ insertAddr l a ↔ x = a ∨ x ∈ l := by
  induction l with
  | nil => simp [insertAddr]
  | cons k l ih =>
    unfold insertAddr
    split
    · simp
    · split
      · rename_i h; subst h; simp
      · simp only [List.mem_cons, ih]; tauto

/-- An insertion keeps the canonical form. -/
theorem Memory.wf_insert {m : Memory} {a : Nat} (b : Byte) (hm : m.wf = true) (ha : a < addressSpace) :
    (Memory.insert m a b).wf = true := by
  unfold Memory.wf at hm ⊢
  rw [Memory.insert_keys]
  exact risingFrom_insertAddr hm (Nat.zero_le a) ha

/-- Memory after reset is in canonical form. -/
theorem Memory.wf_reset : State.reset.mem.wf = true := rfl

/-- An address as a number is one of the address space. -/
theorem Memory.toNat_lt_space (a : Word) : a.toNat < addressSpace := a.isLt

/-! ### One stored byte -/

/-- Reading a byte after a store of one byte. -/
theorem State.readByte_storeByte (s : State) (a x : Word) (b : Byte) :
    (s.storeByte a b).readByte x = if x = a then b else s.readByte x := by
  simp only [State.readByte, State.storeByte_mem, Memory.read_insert]
  have : (a.toNat = x.toNat) = (x = a) :=
    propext ⟨fun h => (BitVec.eq_of_toNat_eq h).symm, fun h => by rw [h]⟩
  simp only [this]

/-! ### Consecutive stored bytes -/

/-- Stepping an address by one and then by k. -/
theorem addrAt_succ (a : Word) (k : Nat) : addrAt (a + 1) k = addrAt a (k + 1) := by
  unfold addrAt
  apply BitVec.eq_of_toNat_eq
  simp [BitVec.toNat_add]
  omega

@[simp] theorem addrAt_zero (a : Word) : addrAt a 0 = a := by simp [addrAt]

/-- Addresses less than 2^32 apart are distinct. -/
theorem addrAt_inj {a : Word} {j k : Nat} (hj : j < addressSpace) (hk : k < addressSpace)
    (h : addrAt a j = addrAt a k) : j = k := by
  have := congrArg BitVec.toNat h
  simp only [addrAt, BitVec.toNat_add, BitVec.toNat_ofNat, addressSpace] at this hj hk
  omega

/-- A store of bytes changes memory and marks, nothing else. -/
theorem State.storeBytes_frame (l : List Byte) (s : State) (a : Word) :
    (s.storeBytes a l) = { s with mem := (s.storeBytes a l).mem, stored := (s.storeBytes a l).stored } := by
  induction l generalizing s a with
  | nil => rfl
  | cons b l ih => exact ih (s.storeByte a b) (a + 1)

@[simp] theorem State.storeBytes_gpr (l : List Byte) (s : State) (a : Word) :
    (s.storeBytes a l).gpr = s.gpr := by rw [State.storeBytes_frame]
@[simp] theorem State.storeBytes_pc (l : List Byte) (s : State) (a : Word) :
    (s.storeBytes a l).pc = s.pc := by rw [State.storeBytes_frame]
@[simp] theorem State.storeBytes_sr (l : List Byte) (s : State) (a : Word) :
    (s.storeBytes a l).sr = s.sr := by rw [State.storeBytes_frame]
@[simp] theorem State.storeBytes_esr (l : List Byte) (s : State) (a : Word) :
    (s.storeBytes a l).esr = s.esr := by rw [State.storeBytes_frame]
@[simp] theorem State.storeBytes_epcr (l : List Byte) (s : State) (a : Word) :
    (s.storeBytes a l).epcr = s.epcr := by rw [State.storeBytes_frame]
@[simp] theorem State.storeBytes_machi (l : List Byte) (s : State) (a : Word) :
    (s.storeBytes a l).machi = s.machi := by rw [State.storeBytes_frame]
@[simp] theorem State.storeBytes_maclo (l : List Byte) (s : State) (a : Word) :
    (s.storeBytes a l).maclo = s.maclo := by rw [State.storeBytes_frame]
@[simp] theorem State.storeBytes_ur (l : List Byte) (s : State) (a : Word) :
    (s.storeBytes a l).ur = s.ur := by rw [State.storeBytes_frame]
@[simp] theorem State.storeBytes_extraSpr (l : List Byte) (s : State) (a : Word) :
    (s.storeBytes a l).extraSpr = s.extraSpr := by rw [State.storeBytes_frame]
@[simp] theorem State.storeBytes_asm (l : List Byte) (s : State) (a : Word) :
    (s.storeBytes a l).asm = s.asm := by rw [State.storeBytes_frame]
@[simp] theorem State.storeBytes_params (l : List Byte) (s : State) (a : Word) :
    (s.storeBytes a l).params = s.params := by rw [State.storeBytes_frame]
@[simp] theorem State.storeBytes_irq (l : List Byte) (s : State) (a : Word) :
    (s.storeBytes a l).irq = s.irq := by rw [State.storeBytes_frame]
@[simp] theorem State.storeBytes_draws (l : List Byte) (s : State) (a : Word) :
    (s.storeBytes a l).draws = s.draws := by rw [State.storeBytes_frame]
@[simp] theorem State.storeBytes_reg (l : List Byte) (s : State) (a : Word) (r : RegNum) :
    (s.storeBytes a l).reg r = s.reg r := by unfold State.reg; simp

/-- A byte outside the stored ones is unchanged. -/
theorem State.readByte_storeBytes_outside (l : List Byte) (s : State) (a x : Word)
    (h : ∀ k, k < l.length → x ≠ addrAt a k) : (s.storeBytes a l).readByte x = s.readByte x := by
  induction l generalizing s a with
  | nil => rfl
  | cons b l ih =>
    rw [State.storeBytes, ih]
    · rw [State.readByte_storeByte, if_neg]
      simpa using h 0 (by simp)
    · intro k hk
      rw [addrAt_succ]
      exact h (k + 1) (by simpa using hk)

/-- A stored byte reads as what was stored. -/
theorem State.readByte_storeBytes (l : List Byte) (s : State) (a : Word) (hl : l.length ≤ addressSpace)
    (k : Nat) (hk : k < l.length) : (s.storeBytes a l).readByte (addrAt a k) = l[k] := by
  induction l generalizing s a k with
  | nil => simp at hk
  | cons b l ih =>
    have hl' : l.length + 1 ≤ addressSpace := by simpa using hl
    cases k with
    | zero =>
      rw [State.storeBytes, State.readByte_storeBytes_outside]
      · simp [State.readByte_storeByte]
      · intro k hk' h
        rw [addrAt_succ] at h
        have := addrAt_inj (by unfold addressSpace; omega) (by omega) h
        omega
    | succ k =>
      rw [State.storeBytes, ← addrAt_succ]
      simpa using ih (s.storeByte a b) (a + 1) (by omega) k (by simpa using hk)

/-- The marked addresses after a store of bytes. -/
theorem State.mem_storeBytes_stored (l : List Byte) (s : State) (a : Word) (n : Nat) :
    n ∈ (s.storeBytes a l).stored ↔ n ∈ s.stored ∨ ∃ k, k < l.length ∧ (addrAt a k).toNat = n := by
  induction l generalizing s a with
  | nil => simp [State.storeBytes]
  | cons b l ih =>
    rw [State.storeBytes, ih, State.storeByte_stored, mem_insertAddr]
    constructor
    · rintro ((h | h) | ⟨k, hk, h⟩)
      · exact .inr ⟨0, by simp, by simp [h]⟩
      · exact .inl h
      · exact .inr ⟨k + 1, by simpa using hk, by rw [← addrAt_succ]; exact h⟩
    · rintro (h | ⟨k, hk, h⟩)
      · exact .inl (.inr h)
      · cases k with
        | zero => exact .inl (.inl (by simpa using h.symm))
        | succ k => exact .inr ⟨k, by simpa using hk, by rw [addrAt_succ]; exact h⟩

/-- A store of bytes keeps memory and marks in canonical form. -/
theorem State.storeBytes_canonical (l : List Byte) (s : State) (a : Word) (hm : s.mem.wf = true)
    (hs : risingFrom 0 s.stored = true) :
    (s.storeBytes a l).mem.wf = true ∧ risingFrom 0 (s.storeBytes a l).stored = true := by
  induction l generalizing s a with
  | nil => exact ⟨hm, hs⟩
  | cons b l ih =>
    exact ih (s.storeByte a b) (a + 1) (Memory.wf_insert b hm a.isLt)
      (risingFrom_insertAddr hs (Nat.zero_le _) a.isLt)

/-- A loader's write keeps memory in canonical form. -/
theorem Memory.wf_load (l : List Byte) (m : Memory) (a : Word) (hm : m.wf = true) :
    (m.load a l).wf = true := by
  induction l generalizing m a with
  | nil => exact hm
  | cons b l ih => exact ih (m.insert a.toNat b) (a + 1) (Memory.wf_insert b hm a.isLt)

end Sys2Proof.Machine
end

