-- ==== Sys2Proof/Laws/Ops.lean ====
section
/-! SUPPORT. One lemma per shared operation that says everything it can do: accesses, multi-word accesses,
register lists, exception entry and return, special-purpose registers. -/

namespace Sys2Proof.Machine

/-! ### Accesses -/

theorem Access.bind_eq_ok {α β : Type} {x : Access α} {f : α → Access β} {v : β} :
    x.bind f = .ok v ↔ ∃ u, x = .ok u ∧ f u = .ok v := by
  cases x <;> simp [Access.bind]

@[simp] theorem Access.bind_ok {α β : Type} (u : α) (f : α → Access β) : (Access.ok u).bind f = f u := rfl
@[simp] theorem Access.bind_refuse {α β : Type} (r : Refusal) (f : α → Access β) :
    (Access.refuse r).bind f = .refuse r := rfl
@[simp] theorem Access.bind_alignment {α β : Type} (f : α → Access β) :
    (Access.alignmentException : Access α).bind f = .alignmentException := rfl

/-- An instruction that answers a next state either made all its accesses or took the alignment
exception. -/
theorem Access.finish_eq_next {c : LenClass} {s t : State} {x : Access State} :
    x.finish c s = .next t ↔ x = .ok t ∨ (x = .alignmentException ∧ t = raiseAlignment c s) := by
  cases x <;> simp [Access.finish, eq_comm]

@[simp] theorem permits_read (p : Params) (a : Word) : permits p .read a = mapped p a := rfl
@[simp] theorem permits_write (p : Params) (a : Word) : permits p .write a = (mapped p a && !isReadOnly p a) := rfl

theorem permitsAll_eq_true {p : Params} {kind : AccessKind} {a : Word} {n : Nat} :
    permitsAll p kind a n = true ↔ ∀ k, k < n → permits p kind (addrAt a k) = true := by
  simp [permitsAll]

/-- An access passes its checks where it is aligned or split and all its bytes may be accessed. -/
theorem accessCheck_eq_ok {p : Params} {kind : AccessKind} {a : Word} {n : Nat} :
    accessCheck p kind a n = .ok () ↔
      (a.toNat % n = 0 ∨ p.misaligned = .split) ∧ ∀ k, k < n → permits p kind (addrAt a k) = true := by
  unfold accessCheck isAligned
  rw [← permitsAll_eq_true]
  cases hm : permitsAll p kind a n <;> cases hp : p.misaligned <;> by_cases ha : a.toNat % n = 0 <;>
    simp [ha]

/-- A misaligned access under the policy `refuse` is refused. -/
theorem accessCheck_refuse {p : Params} {kind : AccessKind} {a : Word} {n : Nat} (h : a.toNat % n ≠ 0)
    (hp : p.misaligned = .refuse) : accessCheck p kind a n = .refuse .misaligned := by
  simp [accessCheck, isAligned, h, hp]

/-- A misaligned access under the policy `fault` raises the platform's alignment exception. -/
theorem accessCheck_fault {p : Params} {kind : AccessKind} {a : Word} {n : Nat} (h : a.toNat % n ≠ 0)
    (hp : p.misaligned = .fault) : accessCheck p kind a n = .alignmentException := by
  simp [accessCheck, isAligned, h, hp]

/-- An access of a byte that may not be accessed is refused once its alignment is settled. -/
theorem accessCheck_unmapped {p : Params} {kind : AccessKind} {a : Word} {n : Nat}
    (h : a.toNat % n = 0 ∨ p.misaligned = .split) (hm : ∃ k, k < n ∧ permits p kind (addrAt a k) = false) :
    accessCheck p kind a n = .refuse .unmapped := by
  have hm' : permitsAll p kind a n = false := by
    rw [← Bool.not_eq_true, permitsAll_eq_true]
    obtain ⟨k, hk, hk'⟩ := hm
    intro h
    simp [h k hk] at hk'
  rcases h with h | h <;> simp [accessCheck, isAligned, h, hm']

theorem accessCheck_cases (p : Params) (kind : AccessKind) (a : Word) (n : Nat) :
    accessCheck p kind a n = .ok () ∨ accessCheck p kind a n = .refuse .unmapped ∨
      accessCheck p kind a n = .refuse .misaligned ∨
      (accessCheck p kind a n = .alignmentException ∧ p.misaligned = .fault) := by
  unfold accessCheck
  cases hp : p.misaligned <;> split <;> simp_all <;> split <;> simp

/-- A write passes the checks of a read first: it stops wherever the read does, and in the same way. -/
theorem accessCheck_write_eq (p : Params) (a : Word) (n : Nat) :
    accessCheck p .write a n = (accessCheck p .read a n).bind fun _ => accessCheck p .write a n := by
  have h : permitsAll p .read a n = false → permitsAll p .write a n = false := by
    simp only [← Bool.not_eq_true, permitsAll_eq_true]
    exact fun hr hw => hr fun k hk => by simpa using (Bool.and_eq_true _ _ ▸ hw k hk).1
  unfold accessCheck
  split
  · cases hr : permitsAll p .read a n
    · simp [h hr]
    · simp
  · split <;> rfl

theorem memRead_eq_ok {s : State} {a : Word} {n : Nat} {v : Word} :
    memRead s a n = .ok v ↔ accessCheck s.params .read a n = .ok () ∧ v = s.readValue a n := by
  rw [memRead, Access.bind_eq_ok]
  exact ⟨fun ⟨_, h, e⟩ => ⟨h, (Access.ok.inj e).symm⟩, fun ⟨h, e⟩ => ⟨(), h, by rw [e]⟩⟩

theorem memRead_of_check {s : State} {a : Word} {n : Nat} (h : accessCheck s.params .read a n = .ok ()) :
    memRead s a n = .ok (s.readValue a n) := memRead_eq_ok.mpr ⟨h, rfl⟩

theorem memWrite_eq_ok {s t : State} {a v : Word} {n : Nat} :
    memWrite s a n v = .ok t ↔ accessCheck s.params .write a n = .ok () ∧ t = s.writeValue a n v := by
  rw [memWrite, Access.bind_eq_ok]
  exact ⟨fun ⟨_, h, e⟩ => ⟨h, (Access.ok.inj e).symm⟩, fun ⟨h, e⟩ => ⟨(), h, by rw [e]⟩⟩

theorem memWrite_of_check {s : State} {a v : Word} {n : Nat} (h : accessCheck s.params .write a n = .ok ()) :
    memWrite s a n v = .ok (s.writeValue a n v) := memWrite_eq_ok.mpr ⟨h, rfl⟩

/-! ### The store of a value -/

/-- A store of a value changes memory and marks, nothing else. -/
theorem State.writeValue_frame (s : State) (a : Word) (n : Nat) (v : Word) :
    s.writeValue a n v =
      { s with mem := (s.writeValue a n v).mem, stored := (s.writeValue a n v).stored } :=
  State.storeBytes_frame _ s a

@[simp] theorem State.writeValue_gpr (s : State) (a : Word) (n : Nat) (v : Word) :
    (s.writeValue a n v).gpr = s.gpr := State.storeBytes_gpr ..
@[simp] theorem State.writeValue_pc (s : State) (a : Word) (n : Nat) (v : Word) :
    (s.writeValue a n v).pc = s.pc := State.storeBytes_pc ..
@[simp] theorem State.writeValue_sr (s : State) (a : Word) (n : Nat) (v : Word) :
    (s.writeValue a n v).sr = s.sr := State.storeBytes_sr ..
@[simp] theorem State.writeValue_esr (s : State) (a : Word) (n : Nat) (v : Word) :
    (s.writeValue a n v).esr = s.esr := State.storeBytes_esr ..
@[simp] theorem State.writeValue_epcr (s : State) (a : Word) (n : Nat) (v : Word) :
    (s.writeValue a n v).epcr = s.epcr := State.storeBytes_epcr ..
@[simp] theorem State.writeValue_machi (s : State) (a : Word) (n : Nat) (v : Word) :
    (s.writeValue a n v).machi = s.machi := State.storeBytes_machi ..
@[simp] theorem State.writeValue_maclo (s : State) (a : Word) (n : Nat) (v : Word) :
    (s.writeValue a n v).maclo = s.maclo := State.storeBytes_maclo ..
@[simp] theorem State.writeValue_ur (s : State) (a : Word) (n : Nat) (v : Word) :
    (s.writeValue a n v).ur = s.ur := State.storeBytes_ur ..
@[simp] theorem State.writeValue_extraSpr (s : State) (a : Word) (n : Nat) (v : Word) :
    (s.writeValue a n v).extraSpr = s.extraSpr := State.storeBytes_extraSpr ..
@[simp] theorem State.writeValue_asm (s : State) (a : Word) (n : Nat) (v : Word) :
    (s.writeValue a n v).asm = s.asm := State.storeBytes_asm ..
@[simp] theorem State.writeValue_params (s : State) (a : Word) (n : Nat) (v : Word) :
    (s.writeValue a n v).params = s.params := State.storeBytes_params ..
@[simp] theorem State.writeValue_irq (s : State) (a : Word) (n : Nat) (v : Word) :
    (s.writeValue a n v).irq = s.irq := State.storeBytes_irq ..
@[simp] theorem State.writeValue_draws (s : State) (a : Word) (n : Nat) (v : Word) :
    (s.writeValue a n v).draws = s.draws := State.storeBytes_draws ..
@[simp] theorem State.writeValue_reg (s : State) (a : Word) (n : Nat) (v : Word) (r : RegNum) :
    (s.writeValue a n v).reg r = s.reg r := State.storeBytes_reg ..

/-- The byte at offset k of a stored value. -/
theorem State.readByte_writeValue (s : State) (a : Word) (n : Nat) (v : Word) (hn : n ≤ addressSpace)
    (k : Nat) (hk : k < n) :
    (s.writeValue a n v).readByte (addrAt a k) = byteOf s.params.endian n v k := by
  unfold State.writeValue
  rw [State.readByte_storeBytes] <;> simp [hn, hk]

/-- A byte outside a stored value is unchanged. -/
theorem State.readByte_writeValue_outside (s : State) (a : Word) (n : Nat) (v x : Word)
    (h : ∀ k, k < n → x ≠ addrAt a k) : (s.writeValue a n v).readByte x = s.readByte x := by
  unfold State.writeValue
  exact State.readByte_storeBytes_outside _ s a x (by simpa using h)

/-- The marks after a store of a value. -/
theorem State.mem_writeValue_stored (s : State) (a : Word) (n : Nat) (v : Word) (m : Nat) :
    m ∈ (s.writeValue a n v).stored ↔ m ∈ s.stored ∨ ∃ k, k < n ∧ (addrAt a k).toNat = m := by
  unfold State.writeValue
  rw [State.mem_storeBytes_stored]; simp

/-- A store of a value keeps memory and marks in canonical form. -/
theorem State.writeValue_canonical (s : State) (a : Word) (n : Nat) (v : Word) (hm : s.mem.wf = true)
    (hs : risingFrom 0 s.stored = true) :
    (s.writeValue a n v).mem.wf = true ∧ risingFrom 0 (s.writeValue a n v).stored = true :=
  State.storeBytes_canonical _ s a hm hs

/-- A value depends on the bytes read alone. -/
theorem State.readValue_congr {s t : State} {a : Word} {n : Nat} (hp : t.params.endian = s.params.endian)
    (h : ∀ k, k < n → t.readByte (addrAt a k) = s.readByte (addrAt a k)) :
    t.readValue a n = s.readValue a n := by
  unfold State.readValue State.bytesAt
  rw [hp]
  congr 1
  apply List.map_congr_left
  intro k hk
  exact h k (by simpa using hk)

/-! ### Several words -/

/-- The loads of a list of words that pass their checks. -/
theorem loadWords_of_check {s : State} {l : List Word} (h : ∀ a ∈ l, accessCheck s.params .read a 4 = .ok ()) :
    loadWords s l = .ok (l.map fun a => s.readValue a 4) := by
  induction l with
  | nil => rfl
  | cons a l ih =>
    rw [loadWords, memRead_of_check (h a (by simp)), Access.bind_ok,
      ih fun b hb => h b (List.mem_cons_of_mem _ hb)]
    rfl

/-- Loads that answer have passed their checks. -/
theorem loadWords_eq_ok {s : State} {l : List Word} {vs : List Word} (h : loadWords s l = .ok vs) :
    (∀ a ∈ l, accessCheck s.params .read a 4 = .ok ()) ∧ vs = l.map fun a => s.readValue a 4 := by
  induction l generalizing vs with
  | nil => simp [loadWords] at h; simp [h]
  | cons a l ih =>
    rw [loadWords, Access.bind_eq_ok] at h
    obtain ⟨v, hv, h⟩ := h
    rw [Access.bind_eq_ok] at h
    obtain ⟨vs', hvs, h⟩ := h
    obtain ⟨hc, rfl⟩ := ih hvs
    obtain ⟨hca, rfl⟩ := memRead_eq_ok.mp hv
    simp only [Access.ok.injEq] at h
    exact ⟨by simpa [hca] using hc, by simp [← h]⟩

/-- The stores of a list of words that pass their checks, one after another. -/
theorem storeWords_of_check {l : List (Word × Word)} {s : State}
    (h : ∀ e ∈ l, accessCheck s.params .write e.1 4 = .ok ()) :
    storeWords l s = .ok (l.foldl (fun u e => u.writeValue e.1 4 e.2) s) := by
  induction l generalizing s with
  | nil => rfl
  | cons e l ih =>
    obtain ⟨a, v⟩ := e
    rw [storeWords, memWrite_of_check (h (a, v) (by simp)), Access.bind_ok, List.foldl_cons]
    exact ih fun e he => by simpa using h e (List.mem_cons_of_mem _ he)

/-- Stores that answer have passed their checks. -/
theorem storeWords_eq_ok {l : List (Word × Word)} {s t : State} (h : storeWords l s = .ok t) :
    (∀ e ∈ l, accessCheck s.params .write e.1 4 = .ok ()) ∧
      t = l.foldl (fun u e => u.writeValue e.1 4 e.2) s := by
  induction l generalizing s with
  | nil => simp [storeWords] at h; simp [h]
  | cons e l ih =>
    obtain ⟨a, v⟩ := e
    rw [storeWords, Access.bind_eq_ok] at h
    obtain ⟨u, hu, h⟩ := h
    obtain ⟨hc, rfl⟩ := memWrite_eq_ok.mp hu
    obtain ⟨hl, rfl⟩ := ih h
    exact ⟨by simpa [hc] using hl, rfl⟩

/-- Several word stores change memory and marks, nothing else. -/
theorem foldl_writeValue_frame (l : List (Word × Word)) (s : State) :
    l.foldl (fun u e => u.writeValue e.1 4 e.2) s =
      { s with
        mem := (l.foldl (fun u e => u.writeValue e.1 4 e.2) s).mem
        stored := (l.foldl (fun u e => u.writeValue e.1 4 e.2) s).stored } := by
  induction l generalizing s with
  | nil => rfl
  | cons e l ih =>
    rw [List.foldl_cons, ih, State.writeValue_frame]

/-- A byte outside all of several stored words is unchanged. -/
theorem readByte_foldl_writeValue_outside (l : List (Word × Word)) (s : State) (x : Word)
    (h : ∀ e ∈ l, ∀ k, k < 4 → x ≠ addrAt e.1 k) :
    (l.foldl (fun u e => u.writeValue e.1 4 e.2) s).readByte x = s.readByte x := by
  induction l generalizing s with
  | nil => rfl
  | cons e l ih =>
    rw [List.foldl_cons, ih _ fun e he => h e (List.mem_cons_of_mem _ he)]
    exact State.readByte_writeValue_outside s e.1 4 e.2 x (h e (by simp))

/-- A byte of one of several stored words that no later one overlaps. -/
theorem readByte_foldl_writeValue (l : List (Word × Word)) (s : State) (i : Nat) (hi : i < l.length)
    (hd : ∀ j, i < j → (hj : j < l.length) → ∀ m k, m < 4 → k < 4 → addrAt l[i].1 k ≠ addrAt l[j].1 m)
    (k : Nat) (hk : k < 4) :
    (l.foldl (fun u e => u.writeValue e.1 4 e.2) s).readByte (addrAt l[i].1 k) =
      byteOf s.params.endian 4 l[i].2 k := by
  induction l generalizing s i with
  | nil => simp at hi
  | cons e l ih =>
    rw [List.foldl_cons]
    cases i with
    | zero =>
      rw [readByte_foldl_writeValue_outside]
      · exact State.readByte_writeValue s e.1 4 e.2 (by decide) k hk
      · intro e' he' m hm
        obtain ⟨j, hj, rfl⟩ := List.getElem_of_mem he'
        exact hd (j + 1) (by omega) (by simpa using hj) m k hm hk
    | succ i =>
      have := ih (s.writeValue e.1 4 e.2) i (by simpa using hi) fun j hij hj m k hm hk =>
        hd (j + 1) (by omega) (by simpa using hj) m k hm hk
      simpa using this

/-- The marks after several word stores. -/
theorem mem_foldl_writeValue_stored (l : List (Word × Word)) (s : State) (n : Nat) :
    n ∈ (l.foldl (fun u e => u.writeValue e.1 4 e.2) s).stored ↔
      n ∈ s.stored ∨ ∃ e ∈ l, ∃ k, k < 4 ∧ (addrAt e.1 k).toNat = n := by
  induction l generalizing s with
  | nil => simp
  | cons e l ih =>
    rw [List.foldl_cons, ih, State.mem_writeValue_stored]
    simp only [List.mem_cons, exists_eq_or_imp, or_assoc]

/-- Several word stores keep memory and marks in canonical form. -/
theorem foldl_writeValue_canonical (l : List (Word × Word)) (s : State) (hm : s.mem.wf = true)
    (hs : risingFrom 0 s.stored = true) :
    (l.foldl (fun u e => u.writeValue e.1 4 e.2) s).mem.wf = true ∧
      risingFrom 0 (l.foldl (fun u e => u.writeValue e.1 4 e.2) s).stored = true := by
  induction l generalizing s with
  | nil => exact ⟨hm, hs⟩
  | cons e l ih =>
    obtain ⟨h₁, h₂⟩ := State.writeValue_canonical s e.1 4 e.2 hm hs
    exact ih _ h₁ h₂

/-! ### Register lists -/

/-- Writing registers changes the registers, nothing else. -/
theorem setRegs_frame (vs : List Word) (r : RegNum) (s : State) :
    setRegs vs r s = { s with gpr := (setRegs vs r s).gpr } := by
  induction vs generalizing r s with
  | nil => rfl
  | cons v vs ih =>
    rw [setRegs, ih]
    unfold State.setReg
    split <;> rfl

/-- The register after the next k. -/
theorem regNum_succ (r : RegNum) (k : Nat) : r + BitVec.ofNat 5 (k + 1) = r + 1 + BitVec.ofNat 5 k := by
  have h1 : (1 : RegNum).toNat = 1 := rfl
  apply BitVec.eq_of_toNat_eq
  simp only [BitVec.toNat_add, BitVec.toNat_ofNat, h1]
  omega

/-- A register outside the list is unchanged. -/
theorem setRegs_reg_outside (vs : List Word) (r q : RegNum) (s : State)
    (h : ∀ k, k < vs.length → q ≠ r + BitVec.ofNat 5 k) : (setRegs vs r s).reg q = s.reg q := by
  induction vs generalizing r s with
  | nil => rfl
  | cons v vs ih =>
    rw [setRegs, ih]
    · exact State.reg_setReg_of_ne s v (by simpa using h 0 (by simp))
    · intro k hk
      rw [← regNum_succ]
      exact h (k + 1) (by simpa using hk)

/-- A register of a list of at most 32 registers reads as its value. -/
theorem setRegs_reg (vs : List Word) (r : RegNum) (s : State) (hl : vs.length ≤ 32) (k : Nat)
    (hk : k < vs.length) :
    (setRegs vs r s).reg (r + BitVec.ofNat 5 k) = if r + BitVec.ofNat 5 k = 0 then 0 else vs[k] := by
  induction vs generalizing r s k with
  | nil => simp at hk
  | cons v vs ih =>
    have hl' : vs.length + 1 ≤ 32 := by simpa using hl
    cases k with
    | zero =>
      rw [setRegs, setRegs_reg_outside]
      · simp
      · intro k hk' h
        have := congrArg BitVec.toNat h
        have h1 : (1 : RegNum).toNat = 1 := rfl
        simp only [BitVec.toNat_add, BitVec.toNat_ofNat, h1] at this
        omega
    | succ k =>
      rw [setRegs, regNum_succ]
      simpa using ih (r + 1) (s.setReg r v) (by omega) k (by simpa using hk)

/-! ### Exceptions -/

@[simp] theorem enterException_reg (vec epc : Word) (s : State) (r : RegNum) :
    (enterException vec epc s).reg r = s.reg r := rfl
@[simp] theorem enterException_readByte (vec epc : Word) (s : State) (a : Word) :
    (enterException vec epc s).readByte a = s.readByte a := rfl

/-- Everything exception entry does. -/
theorem enterException_eq (vec epc : Word) (s : State) :
    enterException vec epc s =
      { s with esr := s.sr, epcr := epc, sr := srAfterEntry s.params s.sr, pc := vec } := rfl

/-- Everything the return from an exception does. -/
theorem returnFromException_eq (s : State) :
    returnFromException s = { s with pc := s.epcr, sr := s.esr } := rfl

/-! ### Special-purpose registers -/

/-- The numbers of the platform's registers survive a write. -/
@[simp] theorem extraWrite_keys (l : List (Word × Word)) (n v : Word) :
    (extraWrite l n v).map Prod.fst = l.map Prod.fst := by
  induction l with
  | nil => rfl
  | cons e l ih =>
    obtain ⟨k, x⟩ := e
    unfold extraWrite
    split <;> simp [ih]

/-- A write of a special-purpose register keeps everything but the seven registers it may be. -/
theorem writeSpr_frame (s : State) (r : SprName) (v : Word) :
    writeSpr s r v =
      { s with
        sr := (writeSpr s r v).sr, esr := (writeSpr s r v).esr, epcr := (writeSpr s r v).epcr
        machi := (writeSpr s r v).machi, maclo := (writeSpr s r v).maclo, ur := (writeSpr s r v).ur
        extraSpr := (writeSpr s r v).extraSpr } := by
  cases r <;> rfl

/-- Reading a special-purpose register that is mapped, after writing it. -/
theorem readSpr_writeSpr (s : State) (r : SprName) (v : Word)
    (h : ∀ n, r = .platform n → (s.extraSpr.any fun e => e.1 == n) = true) :
    readSpr (writeSpr s r v) r = v := by
  cases r with
  | platform n =>
    have := h n rfl
    simp only [readSpr, writeSpr, State.setExtraSpr_extraSpr]
    clear h
    generalize s.extraSpr = l at this
    induction l with
    | nil => simp at this
    | cons e l ih =>
      obtain ⟨k, x⟩ := e
      unfold extraWrite
      by_cases hk : k = n
      · simp [hk, extraRead]
      · simp only [List.any_cons, beq_iff_eq, hk, Bool.or_eq_true, false_or] at this
        simp [hk, extraRead, ih this]
  | _ => rfl

/-- The numbers of the platform's registers survive a write of any special-purpose register. -/
theorem writeSpr_extraSpr_keys (s : State) (r : SprName) (v : Word) :
    (writeSpr s r v).extraSpr.map Prod.fst = s.extraSpr.map Prod.fst := by
  cases r <;> simp [writeSpr]

end Sys2Proof.Machine
end

