-- ==== Sys2Proof/Laws/Effects.lean ====
section
/-! SUPPORT. What no shared operation touches, one lemma per operation, and what a step can do: the
parameters, the placed program and the requests stay, memory and marks keep their canonical form, stored
bytes stay marked; ESR, EPCR, MAC, UR and the bits of SR outside a stated list stay, unless an access of two
or four bytes raises the alignment exception. -/

namespace Sys2Proof.Machine

/-- What every instruction keeps of the machine. -/
structure KeepsPlatform (s t : State) : Prop where
  params : t.params = s.params
  asm : t.asm = s.asm
  irq : t.irq = s.irq
  stored : ∀ a, a ∈ s.stored → a ∈ t.stored
  sprKeys : t.extraSpr.map Prod.fst = s.extraSpr.map Prod.fst
  canonical : s.mem.wf = true → risingFrom 0 s.stored = true → t.mem.wf = true ∧ risingFrom 0 t.stored = true
  readOnly : ∀ a, isReadOnly s.params a = true → t.readByte a = s.readByte a

/-- What an operation that writes the bits `l` of SR keeps besides. -/
structure KeepsSpecial (l : List BitPos) (s t : State) : Prop extends KeepsPlatform s t where
  exc : t.esr = s.esr ∧ t.epcr = s.epcr
  mac : t.machi = s.machi ∧ t.maclo = s.maclo
  ur : t.ur = s.ur
  sr : ∀ b, b ∉ l → bitAt t.sr b = bitAt s.sr b

/-- The platform's alignment exception, which exists under the policy `fault` only. -/
def EntersAlignment (s t : State) : Prop := s.params.misaligned = .fault ∧ ∃ c, t = raiseAlignment c s

/-- What an operation with accesses does to the special registers. -/
def KeepsOrEnters (l : List BitPos) (s t : State) : Prop := KeepsSpecial l s t ∨ EntersAlignment s t

theorem EntersAlignment.keepsPlatform {s t : State} : EntersAlignment s t → KeepsPlatform s t
  | ⟨_, _, e⟩ => e ▸ ⟨rfl, rfl, rfl, fun _ h => h, rfl, fun a b => ⟨a, b⟩, fun _ _ => rfl⟩

theorem KeepsOrEnters.keepsPlatform {l : List BitPos} {s t : State} : KeepsOrEnters l s t → KeepsPlatform s t
  | .inl h => h.toKeepsPlatform
  | .inr h => h.keepsPlatform

/-- A state that differs in general registers, pc, the draws and bits of SR alone. -/
theorem KeepsSpecial.of_eq {l : List BitPos} {s t : State}
    (h : t = { s with gpr := t.gpr, pc := t.pc, sr := t.sr, draws := t.draws })
    (hs : ∀ b, b ∉ l → bitAt t.sr b = bitAt s.sr b) : KeepsSpecial l s t := by
  rw [h] at hs ⊢
  exact ⟨⟨rfl, rfl, rfl, fun _ h => h, rfl, fun a b => ⟨a, b⟩, fun _ _ => rfl⟩, ⟨rfl, rfl⟩, ⟨rfl, rfl⟩, rfl, hs⟩

/-- A state that differs in general registers, pc and the draws alone. -/
theorem KeepsSpecial.of_regs {s t : State} (h : t = { s with gpr := t.gpr, pc := t.pc, draws := t.draws }) :
    KeepsSpecial [] s t :=
  .of_eq (by rw [h]) fun b _ => by rw [h]

/-- The same after a state that keeps. -/
theorem KeepsSpecial.then_eq {l : List BitPos} {s t u : State} (h : KeepsSpecial [] s t)
    (e : u = { t with gpr := u.gpr, pc := u.pc, sr := u.sr, draws := u.draws })
    (hs : ∀ b, b ∉ l → bitAt u.sr b = bitAt t.sr b) : KeepsSpecial l s u := by
  rw [e] at hs ⊢
  exact ⟨⟨h.params, h.asm, h.irq, h.stored, h.sprKeys, h.canonical, h.readOnly⟩, h.exc, h.mac, h.ur,
    fun b hb => (hs b hb).trans (h.sr b (List.not_mem_nil))⟩

theorem State.setReg_frame (s : State) (r : RegNum) (v : Word) :
    s.setReg r v = { s with gpr := (s.setReg r v).gpr } := by
  unfold State.setReg; split <;> rfl

/-! ### Operations without an access -/

theorem keepsSpecial_writeBack {c : LenClass} {r : RegNum} {v : Word} {s t : State}
    (h : writeBack c r v s = .next t) : KeepsSpecial [] s t := by
  cases Host.Outcome.next.inj h
  exact .of_regs (by rw [State.setReg_frame]; rfl)

theorem keepsSpecial_setFlag {c : LenClass} {r : Rel} {a b : Word} {s t : State}
    (h : setFlag c r a b s = .next t) : KeepsSpecial [s.params.srBit.f] s t := by
  cases Host.Outcome.next.inj h
  exact .of_eq rfl fun b hb => by simp_all [bitAt_withBit]

theorem keepsSpecial_branchIf {c : LenClass} {b : Bool} {off : Word} {s t : State}
    (h : branchIf c b off s = .next t) : KeepsSpecial [] s t := by
  cases Host.Outcome.next.inj h
  exact .of_regs (by split <;> rfl)

theorem keepsSpecial_branchNoOverflow {S : BitVec 12} {s t : State} (h : branchNoOverflow S s = .next t) :
    KeepsSpecial [s.params.srBit.ov] s t := by
  cases Host.Outcome.next.inj h
  refine .of_eq (by split <;> split <;> rfl) fun b hb => ?_
  split <;> split <;> simp_all [bitAt_withBit]

theorem keepsSpecial_jumpTo {a : Word} {s t : State} (h : jumpTo a s = .next t) : KeepsSpecial [] s t := by
  cases Host.Outcome.next.inj h
  exact .of_regs rfl

theorem keepsSpecial_jumpLink {c : LenClass} {a : Word} {s t : State} (h : jumpLink c a s = .next t) :
    KeepsSpecial [] s t := by
  cases Host.Outcome.next.inj h
  exact .of_regs (by rw [State.setReg_frame]; rfl)

/-- A register with OV and CY. -/
theorem keepsSpecial_setOvCy (s : State) (r : RegNum) (v : Word) (ov cy : Bool) :
    KeepsSpecial [s.params.srBit.ov, s.params.srBit.cy] s ((s.setReg r v).setOvCy ov cy) :=
  .of_eq (by rw [State.setReg_frame]; rfl) fun b hb => by simp_all [State.setOvCy, bitAt_withBit]

theorem KeepsSpecial.advance {l : List BitPos} {s t : State} (h : KeepsSpecial l s t) (c : LenClass) :
    KeepsSpecial l s (t.advance c) :=
  ⟨⟨h.params, h.asm, h.irq, h.stored, h.sprKeys, h.canonical, h.readOnly⟩, h.exc, h.mac, h.ur, h.sr⟩

theorem KeepsSpecial.drawn {l : List BitPos} {s t : State} (h : KeepsSpecial l s t) :
    KeepsSpecial l s t.drawn :=
  ⟨⟨h.params, h.asm, h.irq, h.stored, h.sprKeys, h.canonical, h.readOnly⟩, h.exc, h.mac, h.ur, h.sr⟩

theorem keepsSpecial_addFlags {c : LenClass} {r : RegNum} {a b : Word} {d : Bool} {s t : State}
    (h : addFlags c r a b d s = .next t) : KeepsSpecial [s.params.srBit.ov, s.params.srBit.cy] s t := by
  cases Host.Outcome.next.inj h
  exact (keepsSpecial_setOvCy ..).advance c

theorem keepsSpecial_subFlags {c : LenClass} {r : RegNum} {a b : Word} {d : Bool} {s t : State}
    (h : subFlags c r a b d s = .next t) : KeepsSpecial [s.params.srBit.ov, s.params.srBit.cy] s t := by
  cases Host.Outcome.next.inj h
  exact (keepsSpecial_setOvCy ..).advance c

theorem keepsSpecial_addSat {c : LenClass} {r : RegNum} {a b : Word} {s t : State}
    (h : addSat c r a b s = .next t) : KeepsSpecial [s.params.srBit.ov, s.params.srBit.cy] s t := by
  cases Host.Outcome.next.inj h
  exact (keepsSpecial_setOvCy ..).advance c

theorem keepsSpecial_subSat {c : LenClass} {r : RegNum} {a b : Word} {s t : State}
    (h : subSat c r a b s = .next t) : KeepsSpecial [s.params.srBit.ov, s.params.srBit.cy] s t := by
  cases Host.Outcome.next.inj h
  exact (keepsSpecial_setOvCy ..).advance c

theorem keepsSpecial_mulFlags {c : LenClass} {r : RegNum} {a b : Word} {s t : State}
    (h : mulFlags c r a b s = .next t) : KeepsSpecial [s.params.srBit.ov, s.params.srBit.cy] s t := by
  cases Host.Outcome.next.inj h
  exact (keepsSpecial_setOvCy ..).drawn.advance c

theorem keepsSpecial_divUndefined {c : LenClass} {r : RegNum} {cy : Bool} {s t : State}
    (h : divUndefined c r cy s = .next t) : KeepsSpecial [s.params.srBit.ov, s.params.srBit.cy] s t := by
  cases Host.Outcome.next.inj h
  exact (keepsSpecial_setOvCy ..).drawn.advance c

theorem keepsSpecial_divDefined {c : LenClass} {r : RegNum} {v : Word} {s t : State}
    (h : divDefined c r v s = .next t) : KeepsSpecial [s.params.srBit.ov, s.params.srBit.cy] s t := by
  cases Host.Outcome.next.inj h
  exact (keepsSpecial_setOvCy ..).advance c

theorem keepsSpecial_modUndefined {c : LenClass} {r : RegNum} {s t : State}
    (h : modUndefined c r s = .next t) : KeepsSpecial [] s t := by
  cases Host.Outcome.next.inj h
  exact .of_regs (by rw [State.setReg_frame]; rfl)

theorem keepsSpecial_divSigned {c : LenClass} {r : RegNum} {a b : Word} {s t : State}
    (h : divSigned c r a b s = .next t) : KeepsSpecial [s.params.srBit.ov, s.params.srBit.cy] s t := by
  unfold divSigned at h
  split at h
  · exact keepsSpecial_divUndefined h
  · split at h
    · exact keepsSpecial_divUndefined h
    · exact keepsSpecial_divDefined h

theorem keepsSpecial_divUnsigned {c : LenClass} {r : RegNum} {a b : Word} {s t : State}
    (h : divUnsigned c r a b s = .next t) : KeepsSpecial [s.params.srBit.ov, s.params.srBit.cy] s t := by
  unfold divUnsigned at h
  split at h
  · exact keepsSpecial_divUndefined h
  · exact keepsSpecial_divDefined h

theorem keepsSpecial_modSigned {c : LenClass} {r : RegNum} {a b : Word} {s t : State}
    (h : modSigned c r a b s = .next t) : KeepsSpecial [] s t := by
  unfold modSigned at h
  split at h
  · exact keepsSpecial_modUndefined h
  · exact keepsSpecial_writeBack h

theorem keepsSpecial_modUnsigned {c : LenClass} {r : RegNum} {a b : Word} {s t : State}
    (h : modUnsigned c r a b s = .next t) : KeepsSpecial [] s t := by
  unfold modUnsigned at h
  split at h
  · exact keepsSpecial_modUndefined h
  · exact keepsSpecial_writeBack h

theorem keepsSpecial_withCarry {l : List BitPos} {s t : State} {r : Result} (hr : r = .next t → KeepsSpecial l s t)
    (h : withCarry r = .next t) : KeepsSpecial l s t := by
  unfold withCarry at h
  split at h
  · exact hr h
  · cases h

theorem keepsSpecial_moveFromSpr {r : RegNum} {n : Word} {s t : State} (h : moveFromSpr r n s = .next t) :
    KeepsSpecial [] s t := by
  unfold moveFromSpr at h
  split at h
  · exact keepsSpecial_writeBack h
  · cases h

/-! ### Accesses: only the policy `fault` raises the alignment exception, and no byte is misaligned -/

theorem Access.bind_eq_alignment {α β : Type} {x : Access α} {f : α → Access β}
    (h : x.bind f = .alignmentException) : x = .alignmentException ∨ ∃ v, x = .ok v ∧ f v = .alignmentException := by
  cases x <;> simp_all [Access.bind]

theorem accessCheck_alignment {p : Params} {a : Word} {n : Nat} {kind : AccessKind}
    (h : accessCheck p kind a n = .alignmentException) :
    n ≠ 1 ∧ p.misaligned = .fault := by
  rcases accessCheck_cases p kind a n with e | e | e | ⟨_, e⟩
  · rw [h] at e; cases e
  · rw [h] at e; cases e
  · rw [h] at e; cases e
  · refine ⟨fun e1 => ?_, e⟩
    rw [accessCheck, if_pos (by simp [e1, isAligned, Nat.mod_one])] at h
    split at h <;> cases h

theorem memRead_alignment {s : State} {a : Word} {n : Nat} (h : memRead s a n = .alignmentException) :
    n ≠ 1 ∧ s.params.misaligned = .fault := by
  rcases Access.bind_eq_alignment h with h | ⟨_, _, h⟩
  · exact accessCheck_alignment h
  · cases h

theorem memWrite_alignment {s : State} {a v : Word} {n : Nat} (h : memWrite s a n v = .alignmentException) :
    n ≠ 1 ∧ s.params.misaligned = .fault := by
  rcases Access.bind_eq_alignment h with h | ⟨_, _, h⟩
  · exact accessCheck_alignment h
  · cases h

theorem loadWords_alignment {s : State} {l : List Word} (h : loadWords s l = .alignmentException) :
    s.params.misaligned = .fault := by
  induction l with
  | nil => cases h
  | cons a l ih =>
    rcases Access.bind_eq_alignment h with h | ⟨_, _, h⟩
    · exact (memRead_alignment h).2
    · rcases Access.bind_eq_alignment h with h | ⟨_, _, h⟩
      · exact ih h
      · cases h

theorem storeWords_alignment {s : State} {l : List (Word × Word)} (h : storeWords l s = .alignmentException) :
    s.params.misaligned = .fault := by
  induction l generalizing s with
  | nil => cases h
  | cons a l ih =>
    rcases Access.bind_eq_alignment h with h | ⟨_, hv, h⟩
    · exact (memWrite_alignment h).2
    · have := ih h
      obtain ⟨_, rfl⟩ := memWrite_eq_ok.mp hv
      simpa using this

/-- The end of an instruction with accesses. -/
theorem finish_keeps {c : LenClass} {l : List BitPos} {s t : State} {x : Access State}
    (h : x.finish c s = .next t) (hok : ∀ t, x = .ok t → KeepsSpecial l s t) :
    KeepsSpecial l s t ∨ (x = .alignmentException ∧ t = raiseAlignment c s) := by
  rcases Access.finish_eq_next.mp h with e | e
  · exact .inl (hok _ e)
  · exact .inr e

/-- The same where an alignment exception shows the policy. -/
theorem keepsOrEnters_finish {c : LenClass} {l : List BitPos} {s t : State} {x : Access State}
    (h : x.finish c s = .next t) (hok : ∀ t, x = .ok t → KeepsSpecial l s t)
    (hal : x = .alignmentException → s.params.misaligned = .fault) : KeepsOrEnters l s t :=
  (finish_keeps h hok).imp_right fun ⟨hx, e⟩ => ⟨hal hx, c, e⟩

theorem keepsSpecial_writeValue {s : State} {a v : Word} {n : Nat}
    (h : accessCheck s.params .write a n = .ok ()) : KeepsSpecial [] s (s.writeValue a n v) where
  params := by simp
  asm := by simp
  irq := by simp
  stored := fun x hx => (State.mem_writeValue_stored ..).mpr (.inl hx)
  sprKeys := by simp
  canonical := State.writeValue_canonical s a n v
  readOnly := fun x hx => State.readByte_writeValue_outside s a n v x fun k hk e => by
    have := (accessCheck_eq_ok.mp h).2 k hk
    simp [← e, hx] at this
  exc := by simp
  mac := by simp
  ur := by simp
  sr := by simp

theorem keepsSpecial_writeValues {l : List (Word × Word)} {s : State}
    (h : ∀ e ∈ l, accessCheck s.params .write e.1 4 = .ok ()) :
    KeepsSpecial [] s (l.foldl (fun u e => u.writeValue e.1 4 e.2) s) where
  params := by rw [foldl_writeValue_frame]
  asm := by rw [foldl_writeValue_frame]
  irq := by rw [foldl_writeValue_frame]
  stored := fun x hx => (mem_foldl_writeValue_stored ..).mpr (.inl hx)
  sprKeys := by rw [foldl_writeValue_frame]
  canonical := foldl_writeValue_canonical l s
  readOnly := fun x hx => readByte_foldl_writeValue_outside l s x fun w hw k hk e => by
    have := (accessCheck_eq_ok.mp (h w hw)).2 k hk
    simp [← e, hx] at this
  exc := by rw [foldl_writeValue_frame]; exact ⟨rfl, rfl⟩
  mac := by rw [foldl_writeValue_frame]; exact ⟨rfl, rfl⟩
  ur := by rw [foldl_writeValue_frame]
  sr := fun _ _ => by rw [foldl_writeValue_frame]

/-! ### Operations with accesses -/

theorem loadInto_keeps {c : LenClass} {r : RegNum} {a : Word} {n : Nat} {s t : State}
    (h : loadInto c r a n s = .next t) : KeepsSpecial [] s t ∨ (n ≠ 1 ∧ EntersAlignment s t) := by
  refine (finish_keeps h fun t h => ?_).imp_right fun ⟨h, e⟩ => ?_
  · obtain ⟨v, _, h⟩ := Access.bind_eq_ok.mp h
    cases Access.ok.inj h
    exact .of_regs (by rw [State.setReg_frame]; rfl)
  · rcases Access.bind_eq_alignment h with h | ⟨_, _, h⟩
    · exact ⟨(memRead_alignment h).1, (memRead_alignment h).2, c, e⟩
    · cases h

theorem storeFrom_keeps {c : LenClass} {a v : Word} {n : Nat} {s t : State}
    (h : storeFrom c a n v s = .next t) : KeepsSpecial [] s t ∨ (n ≠ 1 ∧ EntersAlignment s t) := by
  refine (finish_keeps h fun t h => ?_).imp_right fun ⟨h, e⟩ => ?_
  · obtain ⟨u, hu, h⟩ := Access.bind_eq_ok.mp h
    cases Access.ok.inj h
    obtain ⟨hc, rfl⟩ := memWrite_eq_ok.mp hu
    exact (keepsSpecial_writeValue hc).advance c
  · rcases Access.bind_eq_alignment h with h | ⟨_, _, h⟩
    · exact ⟨(memWrite_alignment h).1, (memWrite_alignment h).2, c, e⟩
    · cases h

theorem keepsOrEnters_loadInto {c : LenClass} {r : RegNum} {a : Word} {n : Nat} {s t : State}
    (h : loadInto c r a n s = .next t) : KeepsOrEnters [] s t := (loadInto_keeps h).imp_right And.right

theorem keepsOrEnters_storeFrom {c : LenClass} {a v : Word} {n : Nat} {s t : State}
    (h : storeFrom c a n v s = .next t) : KeepsOrEnters [] s t := (storeFrom_keeps h).imp_right And.right

theorem keepsSpecial_loadByte {c : LenClass} {r : RegNum} {a : Word} {s t : State}
    (h : loadInto c r a 1 s = .next t) : KeepsSpecial [] s t :=
  (loadInto_keeps h).resolve_right fun e => e.1 rfl

theorem keepsSpecial_storeByte {c : LenClass} {a v : Word} {s t : State}
    (h : storeFrom c a 1 v s = .next t) : KeepsSpecial [] s t :=
  (storeFrom_keeps h).resolve_right fun e => e.1 rfl

theorem keepsOrEnters_loadThrough {r : RegNum} {p : Word} {s t : State} (h : loadThrough r p s = .next t) :
    KeepsOrEnters [] s t := by
  refine keepsOrEnters_finish h (fun t h => ?_) fun h => ?_
  · obtain ⟨_, _, h⟩ := Access.bind_eq_ok.mp h
    obtain ⟨_, _, h⟩ := Access.bind_eq_ok.mp h
    cases Access.ok.inj h
    exact .of_regs (by rw [State.setReg_frame]; rfl)
  · rcases Access.bind_eq_alignment h with h | ⟨_, _, h⟩
    · exact (memRead_alignment h).2
    · rcases Access.bind_eq_alignment h with h | ⟨_, _, h⟩
      · exact (memRead_alignment h).2
      · cases h

/-- A read followed by a write, and then by changes of registers and SR. -/
theorem keepsOrEnters_readWrite {c : LenClass} {l : List BitPos} {a : Word} {s t : State} {f : Word → Word}
    {v : Word → Word} {g : Word → State → State}
    (h : ((memRead s a 4).bind fun w => (memWrite s (f w) 4 (v w)).bind fun u => .ok (g w u)).finish c s = .next t)
    (hg : ∀ w u, g w u = { u with gpr := (g w u).gpr, pc := (g w u).pc, sr := (g w u).sr, draws := (g w u).draws })
    (hs : ∀ w u, u.params = s.params → ∀ b, b ∉ l → bitAt (g w u).sr b = bitAt u.sr b) :
    KeepsOrEnters l s t := by
  refine keepsOrEnters_finish h (fun t h => ?_) fun h => ?_
  · obtain ⟨w, _, h⟩ := Access.bind_eq_ok.mp h
    obtain ⟨u, hu, h⟩ := Access.bind_eq_ok.mp h
    cases Access.ok.inj h
    obtain ⟨hc, rfl⟩ := memWrite_eq_ok.mp hu
    exact (keepsSpecial_writeValue hc).then_eq (hg _ _) (hs _ _ (by simp))
  · rcases Access.bind_eq_alignment h with h | ⟨_, _, h⟩
    · exact (memRead_alignment h).2
    · rcases Access.bind_eq_alignment h with h | ⟨_, _, h⟩
      · exact (memWrite_alignment h).2
      · cases h

theorem keepsOrEnters_storeThrough {r : RegNum} {p : Word} {s t : State} (h : storeThrough r p s = .next t) :
    KeepsOrEnters [] s t :=
  keepsOrEnters_readWrite (g := fun _ u => u.advance .bw) h (fun _ _ => rfl) fun _ _ _ _ _ => rfl

theorem keepsOrEnters_atomicAdd {rD rA rB : RegNum} {s t : State} (h : atomicAdd rD rA rB s = .next t) :
    KeepsOrEnters [] s t :=
  keepsOrEnters_readWrite (g := fun w u => (u.setReg rD (w + s.reg rA)).advance .bn) h
    (fun _ _ => by rw [State.setReg_frame]; rfl) fun _ _ _ _ _ => by simp

theorem keepsOrEnters_compareExchange {rD rA rB : RegNum} {s t : State}
    (h : compareExchange rD rA rB s = .next t) : KeepsOrEnters [s.params.srBit.f] s t :=
  keepsOrEnters_readWrite
    (g := fun w u => ((u.setF (!decide (w = s.reg rD))).setReg rD
      (if decide (w = s.reg rD) then s.reg rA else w)).advance .bn) h
    (fun _ _ => by rw [State.setReg_frame]; rfl) fun _ _ e b hb => by simp_all [bitAt_withBit]

theorem keepsOrEnters_loadMultiple {rD rA : RegNum} {off : Word} {n : Nat} {s t : State}
    (h : loadMultiple rD rA off n s = .next t) : KeepsOrEnters [] s t := by
  unfold loadMultiple at h
  split at h
  · cases h
  · split at h
    · cases h
    · refine keepsOrEnters_finish h (fun t h => ?_) fun h => ?_
      · obtain ⟨_, _, h⟩ := Access.bind_eq_ok.mp h
        cases Access.ok.inj h
        exact .of_regs (by rw [setRegs_frame]; rfl)
      · rcases Access.bind_eq_alignment h with h | ⟨_, _, h⟩
        · exact loadWords_alignment h
        · cases h

theorem keepsOrEnters_storeMultiple {rB rA : RegNum} {off : Word} {n : Nat} {s t : State}
    (h : storeMultiple rB rA off n s = .next t) : KeepsOrEnters [] s t := by
  unfold storeMultiple at h
  split at h
  · cases h
  · refine keepsOrEnters_finish h (fun t h => ?_) fun h => ?_
    · obtain ⟨_, hv, h⟩ := Access.bind_eq_ok.mp h
      cases Access.ok.inj h
      obtain ⟨hc, rfl⟩ := storeWords_eq_ok hv
      exact (keepsSpecial_writeValues hc).advance .bn
    · rcases Access.bind_eq_alignment h with h | ⟨_, _, h⟩
      · exact storeWords_alignment h
      · cases h

theorem keepsOrEnters_prologue {I J : Nat} {s t : State} (h : prologue I J s = .next t) : KeepsOrEnters [] s t := by
  unfold prologue at h
  split at h
  · cases h
  · refine keepsOrEnters_finish h (fun t h => ?_) fun h => ?_
    · obtain ⟨_, hv, h⟩ := Access.bind_eq_ok.mp h
      cases Access.ok.inj h
      obtain ⟨hc, rfl⟩ := storeWords_eq_ok hv
      exact (keepsSpecial_writeValues hc).then_eq (by rw [State.setReg_frame]; rfl) fun _ _ => by simp
    · rcases Access.bind_eq_alignment h with h | ⟨_, _, h⟩
      · exact storeWords_alignment h
      · cases h

theorem restored_frame {I J : Nat} {s t : State} (h : restored I J s = .ok t) : t = { s with gpr := t.gpr } := by
  obtain ⟨_, _, h⟩ := Access.bind_eq_ok.mp h
  cases Access.ok.inj h
  rw [State.setReg_frame, setRegs_frame]

theorem restored_alignment {I J : Nat} {s : State} (h : restored I J s = .alignmentException) :
    s.params.misaligned = .fault := by
  rcases Access.bind_eq_alignment h with h | ⟨_, _, h⟩
  · exact loadWords_alignment h
  · cases h

theorem keepsOrEnters_epilogue {I J : Nat} {s t : State} (h : epilogue I J s = .next t) : KeepsOrEnters [] s t := by
  unfold epilogue at h
  split at h
  · cases h
  · refine keepsOrEnters_finish h (fun t h => ?_) fun h => ?_
    · obtain ⟨_, hv, h⟩ := Access.bind_eq_ok.mp h
      cases Access.ok.inj h
      exact .of_regs (by rw [restored_frame hv]; rfl)
    · rcases Access.bind_eq_alignment h with h | ⟨_, _, h⟩
      · exact restored_alignment h
      · cases h

theorem keepsOrEnters_epilogueReturn {I J : Nat} {s t : State} (h : epilogueReturn I J s = .next t) :
    KeepsOrEnters [] s t := by
  unfold epilogueReturn at h
  split at h
  · cases h
  · refine keepsOrEnters_finish h (fun t h => ?_) fun h => ?_
    · obtain ⟨_, hv, h⟩ := Access.bind_eq_ok.mp h
      cases Access.ok.inj h
      exact .of_regs (by rw [restored_frame hv]; rfl)
    · rcases Access.bind_eq_alignment h with h | ⟨_, _, h⟩
      · exact restored_alignment h
      · cases h

theorem keepsOrEnters_jumpMemory {rD : RegNum} {p : Word} {s t : State} (h : jumpMemory rD p s = .next t) :
    KeepsOrEnters [] s t := by
  refine keepsOrEnters_finish h (fun t h => ?_) fun h => ?_
  · obtain ⟨_, _, h⟩ := Access.bind_eq_ok.mp h
    cases Access.ok.inj h
    exact .of_regs (by rw [State.setReg_frame]; rfl)
  · rcases Access.bind_eq_alignment h with h | ⟨_, _, h⟩
    · exact (memRead_alignment h).2
    · cases h

theorem keepsOrEnters_jumpMemoryLink {rD : RegNum} {p : Word} {s t : State} (h : jumpMemoryLink rD p s = .next t) :
    KeepsOrEnters [] s t := by
  unfold jumpMemoryLink at h
  split at h
  · cases h
  · refine keepsOrEnters_finish h (fun t h => ?_) fun h => ?_
    · obtain ⟨_, _, h⟩ := Access.bind_eq_ok.mp h
      cases Access.ok.inj h
      exact .of_regs (by rw [State.setReg_frame, State.setReg_frame s]; rfl)
    · rcases Access.bind_eq_alignment h with h | ⟨_, _, h⟩
      · exact (memRead_alignment h).2
      · cases h

/-! ### Steps -/

/-- Everything a step that answers a next state can have done. -/
theorem step_eq_next {s t : State} (h : step s = .next t) :
    ∃ u, t = platformTick u ∧
      ((∃ c, acceptedInterrupt s = some c ∧ u = takeInterrupt c s) ∨
        ∃ i, acceptedInterrupt s = none ∧ fetch s = .ok i ∧ exec i s = .next u) := by
  unfold step at h
  split at h
  · next c hc =>
    cases Host.Outcome.next.inj h
    exact ⟨_, rfl, .inl ⟨c, hc, rfl⟩⟩
  · next hq =>
    split at h
    · cases h
    · next i hi =>
      split at h
      · next u hu =>
        cases Host.Outcome.next.inj h
        exact ⟨u, rfl, .inr ⟨i, hq, hi, hu⟩⟩
      · cases h
      · cases h

/-- A quiet step is the fetched instruction and the platform's tick. -/
theorem step_of_fetch {s : State} {i : Instr} (hq : Quiet s) (h : fetch s = .ok i) :
    step s = thenTick (exec i s) := by
  unfold step
  rw [show acceptedInterrupt s = none from hq]
  simp only [h]
  cases exec i s <;> rfl

/-- A quiet step where the fetch refuses. -/
theorem step_of_fetch_error {s : State} {r : Refusal} (hq : Quiet s) (h : fetch s = .error r) :
    step s = .refused r := by
  unfold step
  rw [show acceptedInterrupt s = none from hq]
  simp only [h]

/-- Fetchable bytes do not stop the fetch. -/
theorem fetchStop_of_fetchable {s : State} {n : Nat} (h : Fetchable s n) : fetchStop s n = none := by
  unfold fetchStop
  rw [if_neg (by simpa [permitsAll_eq_true] using fun k hk => (h k hk).1),
    if_neg (by simpa using fun k hk => (h k hk).2)]

/-- A mapped instruction with a stored byte stops the fetch. -/
theorem fetchStop_of_stored {s : State} {n k : Nat} (hm : ∀ m, m < n → mapped s.params (addrAt s.pc m) = true)
    (hk : k < n) (hs : (addrAt s.pc k).toNat ∈ s.stored) : fetchStop s n = some .selfModifyingCode := by
  unfold fetchStop
  rw [if_neg (by simpa [permitsAll_eq_true] using hm), if_pos (by simpa using ⟨k, hk, hs⟩)]

/-- The platform's tick changes requests and draws alone. -/
theorem platformTick_frame (s : State) :
    platformTick s = { s with irq := (platformTick s).irq, draws := (platformTick s).draws } := by
  unfold platformTick; split <;> rfl

theorem refreshIrq_gates (n i : Nat) (l : List IrqClass) :
    (refreshIrq n i l).map (fun c => (c.gate, c.vec)) = l.map fun c => (c.gate, c.vec) := by
  induction l generalizing i with
  | nil => rfl
  | cons c l ih => simp [refreshIrq, ih]

/-- The tick keeps the gate and the vector of each class. -/
theorem platformTick_gates (s : State) :
    (platformTick s).irq.map (fun c => (c.gate, c.vec)) = s.irq.map fun c => (c.gate, c.vec) := by
  unfold platformTick
  split
  · rfl
  · exact refreshIrq_gates _ _ _

/-- A class that is taken is one of the platform's, pending and enabled. -/
theorem acceptedInterrupt_eq_some {s : State} {c : IrqClass} (h : acceptedInterrupt s = some c) :
    c ∈ s.irq ∧ c.pending = true ∧ gateOpen s c.gate = true := by
  unfold acceptedInterrupt at h
  split at h
  · cases h
  · have := List.mem_of_getElem? h
    simpa [acceptable] using this

end Sys2Proof.Machine
end

