-- ==== Sys2Proof/Laws/Encoding.lean ====
section
/-! SUPPORT. The fields of an encoded word: each format of `spec/30_encoding.md` R94 to R98 gives back the
fields it was built from, and decoding the bytes of a word is decoding the word. -/

namespace Sys2Proof

/-- A concatenation as a number. -/
theorem append_toNat {m n : Nat} (x : BitVec m) (y : BitVec n) : (x ++ y).toNat = x.toNat * 2 ^ n + y.toNat := by
  rw [BitVec.toNat_append, ← Nat.shiftLeft_add_eq_or_of_lt y.isLt, Nat.shiftLeft_eq]

/-- A field as a number. -/
theorem extract_toNat {w : Nat} (x : BitVec w) (lo n : Nat) : (x.extractLsb' lo n).toNat = x.toNat / 2 ^ lo % 2 ^ n := by
  simp [BitVec.extractLsb', Nat.shiftRight_eq_div_pow]

/-- The fields of format BN-R3. -/
theorem fields_R3 (op : BitVec 6) (D A B : RegNum) (sub : BitVec 3) :
    let w : BitVec 24 := op ++ D ++ A ++ B ++ sub
    w.extractLsb' 18 6 = op ∧ w.extractLsb' 13 5 = D ∧ w.extractLsb' 8 5 = A ∧ w.extractLsb' 3 5 = B ∧
      w.extractLsb' 0 3 = sub ∧ (w.extractLsb' 16 8).extractLsb' 2 6 = op := by
  have h1 := op.isLt; have h2 := D.isLt; have h3 := A.isLt; have h4 := B.isLt; have h5 := sub.isLt
  have e : (op ++ D ++ A ++ B ++ sub : BitVec 24).toNat =
      op.toNat * 262144 + D.toNat * 8192 + A.toNat * 256 + B.toNat * 8 + sub.toNat := by
    simp only [append_toNat]; omega
  intro w
  have e : w.toNat = _ := e
  refine ⟨?_, ?_, ?_, ?_, ?_, ?_⟩ <;> apply BitVec.eq_of_toNat_eq <;> simp only [extract_toNat, e] <;> omega

/-- The fields of format BN-SH. -/
theorem fields_Sh (op : BitVec 6) (D A : RegNum) (H : BitVec 5) (sub : BitVec 2) :
    let w : BitVec 24 := op ++ D ++ A ++ H ++ 0#1 ++ sub
    w.extractLsb' 18 6 = op ∧ w.extractLsb' 13 5 = D ∧ w.extractLsb' 8 5 = A ∧ w.extractLsb' 3 5 = H ∧
      w.extractLsb' 0 2 = sub ∧ (w.extractLsb' 16 8).extractLsb' 2 6 = op := by
  have h1 := op.isLt; have h2 := D.isLt; have h3 := A.isLt; have h4 := H.isLt; have h5 := sub.isLt
  have e : (op ++ D ++ A ++ H ++ 0#1 ++ sub : BitVec 24).toNat =
      op.toNat * 262144 + D.toNat * 8192 + A.toNat * 256 + H.toNat * 8 + sub.toNat := by
    simp only [append_toNat]; simp; omega
  intro w
  have e : w.toNat = _ := e
  refine ⟨?_, ?_, ?_, ?_, ?_, ?_⟩ <;> apply BitVec.eq_of_toNat_eq <;> simp only [extract_toNat, e] <;> omega

/-- The fields of format BN-R2. -/
theorem fields_R2 (op : BitVec 8) (A D : RegNum) (sub : BitVec 3) :
    let w : BitVec 24 := op ++ 0#3 ++ A ++ D ++ sub
    w.extractLsb' 18 6 = op.extractLsb' 2 6 ∧ w.extractLsb' 13 1 = 0#1 ∧ w.extractLsb' 16 8 = op ∧
      w.extractLsb' 3 5 = D ∧ w.extractLsb' 8 5 = A ∧ w.extractLsb' 0 3 = sub := by
  have h1 := op.isLt; have h2 := D.isLt; have h3 := A.isLt; have h5 := sub.isLt
  have e : (op ++ 0#3 ++ A ++ D ++ sub : BitVec 24).toNat =
      op.toNat * 65536 + A.toNat * 256 + D.toNat * 8 + sub.toNat := by
    simp only [append_toNat]; simp; omega
  intro w
  have e : w.toNat = _ := e
  refine ⟨?_, ?_, ?_, ?_, ?_, ?_⟩ <;> apply BitVec.eq_of_toNat_eq <;> simp only [extract_toNat, e] <;> simp <;> omega

/-- The fields of format BT-I. -/
theorem fields_BtI (op : BitVec 6) (D : RegNum) (s : BitVec 1) (G : BitVec 4) :
    let w : BitVec 16 := op ++ D ++ s ++ G
    w.extractLsb' 10 6 = op ∧ w.extractLsb' 5 5 = D ∧ w.extractLsb' 4 1 = s ∧ w.extractLsb' 0 4 = G ∧
      (w.extractLsb' 8 8).extractLsb' 2 6 = op := by
  have h1 := op.isLt; have h2 := D.isLt; have h3 := s.isLt; have h4 := G.isLt
  have e : (op ++ D ++ s ++ G : BitVec 16).toNat = op.toNat * 1024 + D.toNat * 32 + s.toNat * 16 + G.toNat := by
    simp only [append_toNat]; omega
  intro w
  have e : w.toNat = _ := e
  refine ⟨?_, ?_, ?_, ?_, ?_⟩ <;> apply BitVec.eq_of_toNat_eq <;> simp only [extract_toNat, e] <;> omega

/-- The fields of format BT-R. -/
theorem fields_BtR (op : BitVec 6) (D A : RegNum) :
    let w : BitVec 16 := op ++ D ++ A
    w.extractLsb' 10 6 = op ∧ w.extractLsb' 5 5 = D ∧ w.extractLsb' 0 5 = A ∧
      (w.extractLsb' 8 8).extractLsb' 2 6 = op := by
  have h1 := op.isLt; have h2 := D.isLt; have h3 := A.isLt
  have e : (op ++ D ++ A : BitVec 16).toNat = op.toNat * 1024 + D.toNat * 32 + A.toNat := by
    simp only [append_toNat]; omega
  intro w
  have e : w.toNat = _ := e
  refine ⟨?_, ?_, ?_, ?_⟩ <;> apply BitVec.eq_of_toNat_eq <;> simp only [extract_toNat, e] <;> omega

/-- Decoding the bytes of a 16-bit word is decoding the word. -/
theorem decode_bytes16 (w : BitVec 16) (rest : List Byte) (h : lengthClass (w.extractLsb' 8 8) = some .bt) :
    decode ((InsnWord.w16 w).bytes ++ rest) = (decodeBt w).map fun i => (i, rest) := by
  have e : w.extractLsb' 8 8 ++ w.extractLsb' 0 8 = w := by
    apply BitVec.eq_of_toNat_eq
    have := w.isLt
    rw [append_toNat, extract_toNat, extract_toNat]; omega
  simp only [InsnWord.bytes, List.cons_append, List.nil_append, decode, h, e]

/-- Decoding the bytes of a 24-bit word is decoding the word. -/
theorem decode_bytes24 (w : BitVec 24) (rest : List Byte) (h : lengthClass (w.extractLsb' 16 8) = some .bn) :
    decode ((InsnWord.w24 w).bytes ++ rest) = (decodeBn w).map fun i => (i, rest) := by
  have e : w.extractLsb' 16 8 ++ w.extractLsb' 8 8 ++ w.extractLsb' 0 8 = w := by
    apply BitVec.eq_of_toNat_eq
    have := w.isLt
    rw [append_toNat, append_toNat, extract_toNat, extract_toNat, extract_toNat]; omega
  simp only [InsnWord.bytes, List.cons_append, List.nil_append, decode, h, e]

/-- The length class of a byte by its six leading bits. -/
theorem lengthClass_of_opcode {b : Byte} {op : BitVec 6} (h : b.extractLsb' 2 6 = op) :
    lengthClass b = lengthClass (op ++ 0#2) := by
  have : (op ++ 0#2 : Byte).extractLsb' 2 6 = op := by
    apply BitVec.eq_of_toNat_eq
    have := op.isLt
    rw [extract_toNat, append_toNat]; simp; omega
  unfold lengthClass
  rw [h, this]

/-- Decoding a word of format BN-R3. -/
theorem decode_wordR3 {op : BitVec 6} {sub : BitVec 3} {form : RegNum → RegNum → RegNum → Instr}
    (hf : tableR3 op sub = some form) (hl : lengthClass (op ++ 0#2) = some .bn) (h1 : op ≠ 0b011011#6)
    (h2 : op ≠ 0b001111#6) (h3 : op ≠ 0b011111#6) (D A B : RegNum) (rest : List Byte) :
    decode ((InsnWord.w24 (op ++ D ++ A ++ B ++ sub)).bytes ++ rest) = .ok (form D A B, rest) := by
  obtain ⟨e1, e2, e3, e4, e5, e6⟩ := fields_R3 op D A B sub
  rw [decode_bytes24 _ _ (by rw [lengthClass_of_opcode e6, hl])]
  unfold decodeBn
  rw [e1, e5]
  split
  · exact absurd rfl h1
  · exact absurd rfl h2
  · exact absurd rfl h3
  · rw [hf, e2, e3, e4]; rfl

/-- Decoding a word of format BN-SH. -/
theorem decode_wordSh (sub : BitVec 2) (D A : RegNum) (H : BitVec 5) (rest : List Byte) :
    decode ((InsnWord.w24 (0b011011#6 ++ D ++ A ++ H ++ 0#1 ++ sub)).bytes ++ rest) =
      .ok (tableSh sub D A H, rest) := by
  obtain ⟨e1, e2, e3, e4, e5, e6⟩ := fields_Sh 0b011011#6 D A H sub
  rw [decode_bytes24 _ _ (by rw [lengthClass_of_opcode e6]; decide)]
  unfold decodeBn
  rw [e1, e2, e3, e4, e5]
  rfl

/-- Decoding a word of format BN-R2. -/
theorem decode_wordR2 {op : BitVec 8} {sub : BitVec 3} {form : RegNum → RegNum → Instr}
    (hf : tableR2 op sub = some form) (hop : op = 0b00111110#8 ∨ op = 0b01111110#8) (A D : RegNum)
    (rest : List Byte) :
    decode ((InsnWord.w24 (op ++ 0#3 ++ A ++ D ++ sub)).bytes ++ rest) = .ok (form D A, rest) := by
  obtain ⟨e1, e2, e3, e4, e5, e6⟩ := fields_R2 op A D sub
  rcases hop with rfl | rfl
  all_goals
    rw [decode_bytes24 _ _ (by rw [e3]; decide)]
    unfold decodeBn
    rw [e1, e2, e3, e4, e5, e6]
    simp only [hf]
    rfl

end Sys2Proof
end

