-- ==== Sys2Proof/Laws/PerInstr.lean ====
section
/-! SUPPORT. The family `EncodeLength`, one lemma per constructor of `Instr`: an encoding, where the spec
has one, is as long as the form's length class says (`spec/30_encoding.md` R90). -/

namespace Sys2Proof.Laws.EncodeLength

open Sys2Proof Sys2Proof.Machine

/-- The bytes of `i`, where it has an encoding, are as many as its length, whatever the parameters. -/
def Statement (i : Instr) : Prop :=
  ∀ (p : Params) (bytes : List Byte), encodeBytes i = some bytes → bytes.length = instrLen p i

/-- A form without an encoding has nothing to show. -/
theorem of_none {i : Instr} (h : encode i = none) : Statement i := by
  intro p bytes hb
  simp [encodeBytes, h] at hb

/-- A form with a word has the length of its class. -/
theorem of_word {i : Instr} {w : InsnWord} (h : encode i = some w)
    (hl : ∀ p, w.bytes.length = instrLen p i) : Statement i := by
  intro p bytes hb
  simp only [encodeBytes, h, Option.map_some, Option.some.injEq] at hb
  rw [← hb, hl p]

theorem bnOr (rD : RegNum) (rA : RegNum) (rB : RegNum) : Statement (.bnOr rD rA rB) := of_word rfl fun _ => rfl
theorem bnXor (rD : RegNum) (rA : RegNum) (rB : RegNum) : Statement (.bnXor rD rA rB) := of_word rfl fun _ => rfl
theorem bnNand (rD : RegNum) (rA : RegNum) (rB : RegNum) : Statement (.bnNand rD rA rB) := of_word rfl fun _ => rfl
theorem bnSub (rD : RegNum) (rA : RegNum) (rB : RegNum) : Statement (.bnSub rD rA rB) := of_word rfl fun _ => rfl
theorem bnSll (rD : RegNum) (rA : RegNum) (rB : RegNum) : Statement (.bnSll rD rA rB) := of_word rfl fun _ => rfl
theorem bnSrl (rD : RegNum) (rA : RegNum) (rB : RegNum) : Statement (.bnSrl rD rA rB) := of_word rfl fun _ => rfl
theorem bnSra (rD : RegNum) (rA : RegNum) (rB : RegNum) : Statement (.bnSra rD rA rB) := of_word rfl fun _ => rfl
theorem bnRor (rD : RegNum) (rA : RegNum) (rB : RegNum) : Statement (.bnRor rD rA rB) := of_word rfl fun _ => rfl
theorem bnCmov (rD : RegNum) (rA : RegNum) (rB : RegNum) : Statement (.bnCmov rD rA rB) := of_word rfl fun _ => rfl
theorem bnMul (rD : RegNum) (rA : RegNum) (rB : RegNum) : Statement (.bnMul rD rA rB) := of_word rfl fun _ => rfl
theorem bnDiv (rD : RegNum) (rA : RegNum) (rB : RegNum) : Statement (.bnDiv rD rA rB) := of_word rfl fun _ => rfl
theorem bnDivu (rD : RegNum) (rA : RegNum) (rB : RegNum) : Statement (.bnDivu rD rA rB) := of_word rfl fun _ => rfl
theorem bnAddc (rD : RegNum) (rA : RegNum) (rB : RegNum) : Statement (.bnAddc rD rA rB) := of_word rfl fun _ => rfl
theorem bnSubb (rD : RegNum) (rA : RegNum) (rB : RegNum) : Statement (.bnSubb rD rA rB) := of_word rfl fun _ => rfl
theorem bnFlb (rD : RegNum) (rA : RegNum) (rB : RegNum) : Statement (.bnFlb rD rA rB) := of_word rfl fun _ => rfl
theorem bnMulh (rD : RegNum) (rA : RegNum) (rB : RegNum) : Statement (.bnMulh rD rA rB) := of_word rfl fun _ => rfl
theorem bnMod (rD : RegNum) (rA : RegNum) (rB : RegNum) : Statement (.bnMod rD rA rB) := of_word rfl fun _ => rfl
theorem bnCmpxchg (rD : RegNum) (rA : RegNum) (rB : RegNum) : Statement (.bnCmpxchg rD rA rB) := of_word rfl fun _ => rfl
theorem fnAddS (rD : RegNum) (rA : RegNum) (rB : RegNum) : Statement (.fnAddS rD rA rB) := of_word rfl fun _ => rfl
theorem fnSubS (rD : RegNum) (rA : RegNum) (rB : RegNum) : Statement (.fnSubS rD rA rB) := of_word rfl fun _ => rfl
theorem fnMulS (rD : RegNum) (rA : RegNum) (rB : RegNum) : Statement (.fnMulS rD rA rB) := of_word rfl fun _ => rfl
theorem fnDivS (rD : RegNum) (rA : RegNum) (rB : RegNum) : Statement (.fnDivS rD rA rB) := of_word rfl fun _ => rfl
theorem bnAdds (rD : RegNum) (rA : RegNum) (rB : RegNum) : Statement (.bnAdds rD rA rB) := of_word rfl fun _ => rfl
theorem bnSlli (rD : RegNum) (rA : RegNum) (H : BitVec 5) : Statement (.bnSlli rD rA H) := of_word rfl fun _ => rfl
theorem bnSrli (rD : RegNum) (rA : RegNum) (H : BitVec 5) : Statement (.bnSrli rD rA H) := of_word rfl fun _ => rfl
theorem bnSrai (rD : RegNum) (rA : RegNum) (H : BitVec 5) : Statement (.bnSrai rD rA H) := of_word rfl fun _ => rfl
theorem bnRori (rD : RegNum) (rA : RegNum) (H : BitVec 5) : Statement (.bnRori rD rA H) := of_word rfl fun _ => rfl
theorem bnExtbz (rD : RegNum) (rA : RegNum) : Statement (.bnExtbz rD rA) := of_word rfl fun _ => rfl
theorem bnExtbs (rD : RegNum) (rA : RegNum) : Statement (.bnExtbs rD rA) := of_word rfl fun _ => rfl
theorem bnExthz (rD : RegNum) (rA : RegNum) : Statement (.bnExthz rD rA) := of_word rfl fun _ => rfl
theorem bnExths (rD : RegNum) (rA : RegNum) : Statement (.bnExths rD rA) := of_word rfl fun _ => rfl
theorem bnFf1 (rD : RegNum) (rA : RegNum) : Statement (.bnFf1 rD rA) := of_word rfl fun _ => rfl
theorem bnClz (rD : RegNum) (rA : RegNum) : Statement (.bnClz rD rA) := of_word rfl fun _ => rfl
theorem bnSwab (rD : RegNum) (rA : RegNum) : Statement (.bnSwab rD rA) := of_word rfl fun _ => rfl
theorem fnFtoiS (rD : RegNum) (rA : RegNum) : Statement (.fnFtoiS rD rA) := of_word rfl fun _ => rfl
theorem fnItofS (rD : RegNum) (rA : RegNum) : Statement (.fnItofS rD rA) := of_word rfl fun _ => rfl
theorem btAddi (rD : RegNum) (G : BitVec 4) : Statement (.btAddi rD G) := of_word rfl fun _ => rfl
theorem btNop (G : BitVec 4) : Statement (.btNop G) := of_word rfl fun _ => rfl
theorem btTrap (G : BitVec 4) : Statement (.btTrap G) := of_word rfl fun _ => rfl
theorem btMov (rD : RegNum) (rA : RegNum) : Statement (.btMov rD rA) := of_word rfl fun _ => rfl
theorem btRfe : Statement .btRfe := of_word rfl fun _ => rfl
theorem btEi : Statement .btEi := of_word rfl fun _ => rfl
theorem btDi : Statement .btDi := of_word rfl fun _ => rfl
theorem btAdd (rD : RegNum) (rA : RegNum) : Statement (.btAdd rD rA) := of_none rfl
theorem btMovi (rD : RegNum) (G : BitVec 4) : Statement (.btMovi rD G) := of_none rfl
theorem btJ (T : BitVec 10) : Statement (.btJ T) := of_none rfl
theorem bnAadd (rD : RegNum) (rA : RegNum) (rB : RegNum) : Statement (.bnAadd rD rA rB) := of_none rfl
theorem bnAdd (rD : RegNum) (rA : RegNum) (rB : RegNum) : Statement (.bnAdd rD rA rB) := of_none rfl
theorem bnAddi (rD : RegNum) (rA : RegNum) (O : BitVec 8) : Statement (.bnAddi rD rA O) := of_none rfl
theorem bnAnd (rD : RegNum) (rA : RegNum) (rB : RegNum) : Statement (.bnAnd rD rA rB) := of_none rfl
theorem bnAndi (rD : RegNum) (rA : RegNum) (N : BitVec 8) : Statement (.bnAndi rD rA N) := of_none rfl
theorem bnBc (S : BitVec 12) : Statement (.bnBc S) := of_none rfl
theorem bnBeqi (rB : RegNum) (E : BitVec 5) (P : BitVec 8) : Statement (.bnBeqi rB E P) := of_none rfl
theorem bnBf (S : BitVec 12) : Statement (.bnBf S) := of_none rfl
theorem bnBgesi (rB : RegNum) (E : BitVec 5) (P : BitVec 8) : Statement (.bnBgesi rB E P) := of_none rfl
theorem bnBgtsi (rB : RegNum) (E : BitVec 5) (P : BitVec 8) : Statement (.bnBgtsi rB E P) := of_none rfl
theorem bnBitrev (rD : RegNum) (rA : RegNum) : Statement (.bnBitrev rD rA) := of_none rfl
theorem bnBlesi (rB : RegNum) (E : BitVec 5) (P : BitVec 8) : Statement (.bnBlesi rB E P) := of_none rfl
theorem bnBltsi (rB : RegNum) (E : BitVec 5) (P : BitVec 8) : Statement (.bnBltsi rB E P) := of_none rfl
theorem bnBnc (S : BitVec 12) : Statement (.bnBnc S) := of_none rfl
theorem bnBnei (rB : RegNum) (E : BitVec 5) (P : BitVec 8) : Statement (.bnBnei rB E P) := of_none rfl
theorem bnBnf (S : BitVec 12) : Statement (.bnBnf S) := of_none rfl
theorem bnBno (S : BitVec 12) : Statement (.bnBno S) := of_none rfl
theorem bnBo (S : BitVec 12) : Statement (.bnBo S) := of_none rfl
theorem bnEntri (F : BitVec 18) (N : BitVec 8) : Statement (.bnEntri F N) := of_none rfl
theorem bnJ (Z : BitVec 16) : Statement (.bnJ Z) := of_none rfl
theorem bnJal (sOff : BitVec 18) : Statement (.bnJal sOff) := of_none rfl
theorem bnJr (rA : RegNum) : Statement (.bnJr rA) := of_none rfl
theorem bnLbz (rD : RegNum) (N : BitVec 8) (rA : RegNum) : Statement (.bnLbz rD N rA) := of_none rfl
theorem bnLd (rD : RegNum) (J : BitVec 5) (rA : RegNum) : Statement (.bnLd rD J rA) := of_none rfl
theorem bnLhz (rD : RegNum) (M : BitVec 7) (rA : RegNum) : Statement (.bnLhz rD M rA) := of_none rfl
theorem bnLws (rD : RegNum) (K : BitVec 6) (rA : RegNum) : Statement (.bnLws rD K rA) := of_none rfl
theorem bnLwz (rD : RegNum) (K : BitVec 6) (rA : RegNum) : Statement (.bnLwz rD K rA) := of_none rfl
theorem bnMlwz (rD : RegNum) (K : BitVec 6) (rA : RegNum) (C : BitVec 2) : Statement (.bnMlwz rD K rA C) := of_none rfl
theorem bnModu (rD : RegNum) (rA : RegNum) (rB : RegNum) : Statement (.bnModu rD rA rB) := of_none rfl
theorem bnMsw (K : BitVec 6) (rA : RegNum) (rB : RegNum) (C : BitVec 2) : Statement (.bnMsw K rA rB C) := of_none rfl
theorem bnOri (rD : RegNum) (rA : RegNum) (N : BitVec 8) : Statement (.bnOri rD rA N) := of_none rfl
theorem bnReti (F : BitVec 18) (N : BitVec 8) : Statement (.bnReti F N) := of_none rfl
theorem bnReturn : Statement .bnReturn := of_none rfl
theorem bnRtnei (F : BitVec 18) (N : BitVec 8) : Statement (.bnRtnei F N) := of_none rfl
theorem bnSb (N : BitVec 8) (rA : RegNum) (rB : RegNum) : Statement (.bnSb N rA rB) := of_none rfl
theorem bnSd (J : BitVec 5) (rA : RegNum) (rB : RegNum) : Statement (.bnSd J rA rB) := of_none rfl
theorem bnSfeq (rA : RegNum) (rB : RegNum) : Statement (.bnSfeq rA rB) := of_none rfl
theorem bnSfeqi (rA : RegNum) (O : BitVec 8) : Statement (.bnSfeqi rA O) := of_none rfl
theorem bnSfgesi (rA : RegNum) (O : BitVec 8) : Statement (.bnSfgesi rA O) := of_none rfl
theorem bnSfgeui (rA : RegNum) (O : BitVec 8) : Statement (.bnSfgeui rA O) := of_none rfl
theorem bnSfgts (rA : RegNum) (rB : RegNum) : Statement (.bnSfgts rA rB) := of_none rfl
theorem bnSfgtsi (rA : RegNum) (O : BitVec 8) : Statement (.bnSfgtsi rA O) := of_none rfl
theorem bnSfgtu (rA : RegNum) (rB : RegNum) : Statement (.bnSfgtu rA rB) := of_none rfl
theorem bnSfgtui (rA : RegNum) (O : BitVec 8) : Statement (.bnSfgtui rA O) := of_none rfl
theorem bnSflesi (rA : RegNum) (O : BitVec 8) : Statement (.bnSflesi rA O) := of_none rfl
theorem bnSfleui (rA : RegNum) (O : BitVec 8) : Statement (.bnSfleui rA O) := of_none rfl
theorem bnSfltsi (rA : RegNum) (O : BitVec 8) : Statement (.bnSfltsi rA O) := of_none rfl
theorem bnSfltui (rA : RegNum) (O : BitVec 8) : Statement (.bnSfltui rA O) := of_none rfl
theorem bnSfne (rA : RegNum) (rB : RegNum) : Statement (.bnSfne rA rB) := of_none rfl
theorem bnSfnei (rA : RegNum) (O : BitVec 8) : Statement (.bnSfnei rA O) := of_none rfl
theorem bnSh (M : BitVec 7) (rA : RegNum) (rB : RegNum) : Statement (.bnSh M rA rB) := of_none rfl
theorem bnSw (K : BitVec 6) (rA : RegNum) (rB : RegNum) : Statement (.bnSw K rA rB) := of_none rfl
theorem bgAddi (rD : RegNum) (rA : RegNum) (Y : BitVec 16) : Statement (.bgAddi rD rA Y) := of_none rfl
theorem bgBeq (rA : RegNum) (rB : RegNum) (U : BitVec 12) : Statement (.bgBeq rA rB U) := of_none rfl
theorem bgBeqi (rB : RegNum) (I : BitVec 5) (U : BitVec 12) : Statement (.bgBeqi rB I U) := of_none rfl
theorem bgBf (t : BitVec 24) : Statement (.bgBf t) := of_none rfl
theorem bgBges (rA : RegNum) (rB : RegNum) (U : BitVec 12) : Statement (.bgBges rA rB U) := of_none rfl
theorem bgBgesi (rB : RegNum) (I : BitVec 5) (U : BitVec 12) : Statement (.bgBgesi rB I U) := of_none rfl
theorem bgBgeu (rA : RegNum) (rB : RegNum) (U : BitVec 12) : Statement (.bgBgeu rA rB U) := of_none rfl
theorem bgBgeui (rB : RegNum) (I : BitVec 5) (U : BitVec 12) : Statement (.bgBgeui rB I U) := of_none rfl
theorem bgBgts (rA : RegNum) (rB : RegNum) (U : BitVec 12) : Statement (.bgBgts rA rB U) := of_none rfl
theorem bgBgtsi (rB : RegNum) (I : BitVec 5) (U : BitVec 12) : Statement (.bgBgtsi rB I U) := of_none rfl
theorem bgBgtu (rA : RegNum) (rB : RegNum) (U : BitVec 12) : Statement (.bgBgtu rA rB U) := of_none rfl
theorem bgBgtui (rB : RegNum) (I : BitVec 5) (U : BitVec 12) : Statement (.bgBgtui rB I U) := of_none rfl
theorem bgBlesi (rB : RegNum) (I : BitVec 5) (U : BitVec 12) : Statement (.bgBlesi rB I U) := of_none rfl
theorem bgBleui (rB : RegNum) (I : BitVec 5) (U : BitVec 12) : Statement (.bgBleui rB I U) := of_none rfl
theorem bgBltsi (rB : RegNum) (I : BitVec 5) (U : BitVec 12) : Statement (.bgBltsi rB I U) := of_none rfl
theorem bgBltui (rB : RegNum) (I : BitVec 5) (U : BitVec 12) : Statement (.bgBltui rB I U) := of_none rfl
theorem bgBne (rA : RegNum) (rB : RegNum) (U : BitVec 12) : Statement (.bgBne rA rB U) := of_none rfl
theorem bgBnei (rB : RegNum) (I : BitVec 5) (U : BitVec 12) : Statement (.bgBnei rB I U) := of_none rfl
theorem bgBnf (t : BitVec 24) : Statement (.bgBnf t) := of_none rfl
theorem bgJ (t : BitVec 24) : Statement (.bgJ t) := of_none rfl
theorem bgJal (t : BitVec 24) : Statement (.bgJal t) := of_none rfl
theorem bgLbz (rD : RegNum) (Y : BitVec 16) (rA : RegNum) : Statement (.bgLbz rD Y rA) := of_none rfl
theorem bgLd (rD : RegNum) (V : BitVec 13) (rA : RegNum) : Statement (.bgLd rD V rA) := of_none rfl
theorem bgLhz (rD : RegNum) (X : BitVec 15) (rA : RegNum) : Statement (.bgLhz rD X rA) := of_none rfl
theorem bgLws (rD : RegNum) (W : BitVec 14) (rA : RegNum) : Statement (.bgLws rD W rA) := of_none rfl
theorem bgLwz (rD : RegNum) (W : BitVec 14) (rA : RegNum) : Statement (.bgLwz rD W rA) := of_none rfl
theorem bgSb (Y : BitVec 16) (rA : RegNum) (rB : RegNum) : Statement (.bgSb Y rA rB) := of_none rfl
theorem bgSd (V : BitVec 13) (rA : RegNum) (rB : RegNum) : Statement (.bgSd V rA rB) := of_none rfl
theorem bgSh (X : BitVec 15) (rA : RegNum) (rB : RegNum) : Statement (.bgSh X rA rB) := of_none rfl
theorem bgSw (W : BitVec 14) (rA : RegNum) (rB : RegNum) : Statement (.bgSw W rA rB) := of_none rfl
theorem fgBeqS (rA : RegNum) (rB : RegNum) (U : BitVec 12) : Statement (.fgBeqS rA rB U) := of_none rfl
theorem fgBgeS (rA : RegNum) (rB : RegNum) (U : BitVec 12) : Statement (.fgBgeS rA rB U) := of_none rfl
theorem fgBgtS (rA : RegNum) (rB : RegNum) (U : BitVec 12) : Statement (.fgBgtS rA rB U) := of_none rfl
theorem fgBneS (rA : RegNum) (rB : RegNum) (U : BitVec 12) : Statement (.fgBneS rA rB U) := of_none rfl
theorem bwAddci (rD : RegNum) (rA : RegNum) (p : BitVec 24) : Statement (.bwAddci rD rA p) := of_none rfl
theorem bwAddi (rD : RegNum) (rA : RegNum) (g : BitVec 32) : Statement (.bwAddi rD rA g) := of_none rfl
theorem bwAndi (rD : RegNum) (rA : RegNum) (h : BitVec 32) : Statement (.bwAndi rD rA h) := of_none rfl
theorem bwBeq (rA : RegNum) (rB : RegNum) (u : BitVec 28) : Statement (.bwBeq rA rB u) := of_none rfl
theorem bwBeqi (rB : RegNum) (I : BitVec 5) (u : BitVec 28) : Statement (.bwBeqi rB I u) := of_none rfl
theorem bwBf (z : BitVec 32) : Statement (.bwBf z) := of_none rfl
theorem bwBges (rA : RegNum) (rB : RegNum) (u : BitVec 28) : Statement (.bwBges rA rB u) := of_none rfl
theorem bwBgesi (rB : RegNum) (I : BitVec 5) (u : BitVec 28) : Statement (.bwBgesi rB I u) := of_none rfl
theorem bwBgeu (rA : RegNum) (rB : RegNum) (u : BitVec 28) : Statement (.bwBgeu rA rB u) := of_none rfl
theorem bwBgeui (rB : RegNum) (I : BitVec 5) (u : BitVec 28) : Statement (.bwBgeui rB I u) := of_none rfl
theorem bwBgts (rA : RegNum) (rB : RegNum) (u : BitVec 28) : Statement (.bwBgts rA rB u) := of_none rfl
theorem bwBgtsi (rB : RegNum) (I : BitVec 5) (u : BitVec 28) : Statement (.bwBgtsi rB I u) := of_none rfl
theorem bwBgtu (rA : RegNum) (rB : RegNum) (u : BitVec 28) : Statement (.bwBgtu rA rB u) := of_none rfl
theorem bwBgtui (rB : RegNum) (I : BitVec 5) (u : BitVec 28) : Statement (.bwBgtui rB I u) := of_none rfl
theorem bwBlesi (rB : RegNum) (I : BitVec 5) (u : BitVec 28) : Statement (.bwBlesi rB I u) := of_none rfl
theorem bwBleui (rB : RegNum) (I : BitVec 5) (u : BitVec 28) : Statement (.bwBleui rB I u) := of_none rfl
theorem bwBltsi (rB : RegNum) (I : BitVec 5) (u : BitVec 28) : Statement (.bwBltsi rB I u) := of_none rfl
theorem bwBltui (rB : RegNum) (I : BitVec 5) (u : BitVec 28) : Statement (.bwBltui rB I u) := of_none rfl
theorem bwBne (rA : RegNum) (rB : RegNum) (u : BitVec 28) : Statement (.bwBne rA rB u) := of_none rfl
theorem bwBnei (rB : RegNum) (I : BitVec 5) (u : BitVec 28) : Statement (.bwBnei rB I u) := of_none rfl
theorem bwBnf (z : BitVec 32) : Statement (.bwBnf z) := of_none rfl
theorem bwDivi (rD : RegNum) (rA : RegNum) (p : BitVec 24) : Statement (.bwDivi rD rA p) := of_none rfl
theorem bwDivui (rD : RegNum) (rA : RegNum) (o : BitVec 32) : Statement (.bwDivui rD rA o) := of_none rfl
theorem bwJ (z : BitVec 32) : Statement (.bwJ z) := of_none rfl
theorem bwJa (g : BitVec 32) : Statement (.bwJa g) := of_none rfl
theorem bwJal (z : BitVec 32) : Statement (.bwJal z) := of_none rfl
theorem bwJma (rD : RegNum) (z : BitVec 32) : Statement (.bwJma rD z) := of_none rfl
theorem bwJmal (rD : RegNum) (z : BitVec 32) : Statement (.bwJmal rD z) := of_none rfl
theorem bwLbz (rD : RegNum) (h : BitVec 32) (rA : RegNum) : Statement (.bwLbz rD h rA) := of_none rfl
theorem bwLd (rD : RegNum) (vOff : BitVec 29) (rA : RegNum) : Statement (.bwLd rD vOff rA) := of_none rfl
theorem bwLhz (rD : RegNum) (iOff : BitVec 31) (rA : RegNum) : Statement (.bwLhz rD iOff rA) := of_none rfl
theorem bwLma (rD : RegNum) (z : BitVec 32) : Statement (.bwLma rD z) := of_none rfl
theorem bwLws (rD : RegNum) (wOff : BitVec 30) (rA : RegNum) : Statement (.bwLws rD wOff rA) := of_none rfl
theorem bwLwz (rD : RegNum) (wOff : BitVec 30) (rA : RegNum) : Statement (.bwLwz rD wOff rA) := of_none rfl
theorem bwMfspr (rD : RegNum) (rA : RegNum) (o : BitVec 32) : Statement (.bwMfspr rD rA o) := of_none rfl
theorem bwMtspr (rA : RegNum) (rB : RegNum) (o : BitVec 32) : Statement (.bwMtspr rA rB o) := of_none rfl
theorem bwMuli (rD : RegNum) (rA : RegNum) (p : BitVec 24) : Statement (.bwMuli rD rA p) := of_none rfl
theorem bwOri (rD : RegNum) (rA : RegNum) (h : BitVec 32) : Statement (.bwOri rD rA h) := of_none rfl
theorem bwSb (h : BitVec 32) (rA : RegNum) (rB : RegNum) : Statement (.bwSb h rA rB) := of_none rfl
theorem bwSd (vOff : BitVec 29) (rA : RegNum) (rB : RegNum) : Statement (.bwSd vOff rA rB) := of_none rfl
theorem bwSfeqi (rA : RegNum) (g : BitVec 32) : Statement (.bwSfeqi rA g) := of_none rfl
theorem bwSfgesi (rA : RegNum) (g : BitVec 32) : Statement (.bwSfgesi rA g) := of_none rfl
theorem bwSfgeui (rA : RegNum) (g : BitVec 32) : Statement (.bwSfgeui rA g) := of_none rfl
theorem bwSfgtsi (rA : RegNum) (g : BitVec 32) : Statement (.bwSfgtsi rA g) := of_none rfl
theorem bwSfgtui (rA : RegNum) (g : BitVec 32) : Statement (.bwSfgtui rA g) := of_none rfl
theorem bwSflesi (rA : RegNum) (g : BitVec 32) : Statement (.bwSflesi rA g) := of_none rfl
theorem bwSfleui (rA : RegNum) (g : BitVec 32) : Statement (.bwSfleui rA g) := of_none rfl
theorem bwSfltsi (rA : RegNum) (g : BitVec 32) : Statement (.bwSfltsi rA g) := of_none rfl
theorem bwSfltui (rA : RegNum) (g : BitVec 32) : Statement (.bwSfltui rA g) := of_none rfl
theorem bwSfnei (rA : RegNum) (g : BitVec 32) : Statement (.bwSfnei rA g) := of_none rfl
theorem bwSh (iOff : BitVec 31) (rA : RegNum) (rB : RegNum) : Statement (.bwSh iOff rA rB) := of_none rfl
theorem bwSma (rB : RegNum) (z : BitVec 32) : Statement (.bwSma rB z) := of_none rfl
theorem bwSw (wOff : BitVec 30) (rA : RegNum) (rB : RegNum) : Statement (.bwSw wOff rA rB) := of_none rfl
theorem bwXori (rD : RegNum) (rA : RegNum) (p : BitVec 24) : Statement (.bwXori rD rA p) := of_none rfl
theorem fwBeqS (rA : RegNum) (rB : RegNum) (u : BitVec 28) : Statement (.fwBeqS rA rB u) := of_none rfl
theorem fwBgeS (rA : RegNum) (rB : RegNum) (u : BitVec 28) : Statement (.fwBgeS rA rB u) := of_none rfl
theorem fwBgtS (rA : RegNum) (rB : RegNum) (u : BitVec 28) : Statement (.fwBgtS rA rB u) := of_none rfl
theorem fwBneS (rA : RegNum) (rB : RegNum) (u : BitVec 28) : Statement (.fwBneS rA rB u) := of_none rfl
theorem bJalr (rA : RegNum) : Statement (.bJalr rA) := of_none rfl
theorem bMac (rA : RegNum) (rB : RegNum) : Statement (.bMac rA rB) := of_none rfl
theorem bMacs (rA : RegNum) (rB : RegNum) : Statement (.bMacs rA rB) := of_none rfl
theorem bSys (imm : Option Word) : Statement (.bSys imm) := of_none rfl
theorem bSubs (rD : RegNum) (rA : RegNum) (rB : RegNum) : Statement (.bSubs rD rA rB) := of_none rfl
theorem bSfges (rA : RegNum) (rB : RegNum) : Statement (.bSfges rA rB) := of_none rfl
theorem bSfgeu (rA : RegNum) (rB : RegNum) : Statement (.bSfgeu rA rB) := of_none rfl
theorem bSfles (rA : RegNum) (rB : RegNum) : Statement (.bSfles rA rB) := of_none rfl
theorem bSfleu (rA : RegNum) (rB : RegNum) : Statement (.bSfleu rA rB) := of_none rfl
theorem bAddic (rD : RegNum) (rA : RegNum) (p : BitVec 24) : Statement (.bAddic rD rA p) := of_none rfl
theorem bNot (rD : RegNum) (rA : RegNum) : Statement (.bNot rD rA) := of_word rfl fun _ => rfl
theorem bMovhi (rA : RegNum) (I : BitVec 16) : Statement (.bMovhi rA I) := of_none rfl
theorem bCov : Statement .bCov := of_none rfl
theorem bBles (rA : RegNum) (rB : RegNum) (off : BranchOff) : Statement (.bBles rA rB off) := of_none rfl
theorem bBleu (rA : RegNum) (rB : RegNum) (off : BranchOff) : Statement (.bBleu rA rB off) := of_none rfl
theorem bBlts (rA : RegNum) (rB : RegNum) (off : BranchOff) : Statement (.bBlts rA rB off) := of_none rfl
theorem bBltu (rA : RegNum) (rB : RegNum) (off : BranchOff) : Statement (.bBltu rA rB off) := of_none rfl
theorem bSflts (rA : RegNum) (rB : RegNum) : Statement (.bSflts rA rB) := of_none rfl
theorem bSfltu (rA : RegNum) (rB : RegNum) : Statement (.bSfltu rA rB) := of_none rfl
theorem fAbsS (rD : RegNum) (rA : RegNum) : Statement (.fAbsS rD rA) := of_none rfl
theorem fBleS (rA : RegNum) (rB : RegNum) (off : BranchOff) : Statement (.fBleS rA rB off) := of_none rfl
theorem fBltS (rA : RegNum) (rB : RegNum) (off : BranchOff) : Statement (.fBltS rA rB off) := of_none rfl

end Sys2Proof.Laws.EncodeLength
end

