-- ==== Sys2Proof/Laws/Shapes.lean ====
section
/-! SUPPORT. One lemma per shared operation of the meanings, in the terms of `Sys2Proof/Safety.lean`: an
instruction whose meaning is that operation completes in that shape. A proof about an instruction cites the
lemma of its operation and unfolds nothing below it. -/

namespace Sys2Proof.Machine

/-! ### Registers, flags, pc -/

/-- `writeBack`: one register and pc. -/
theorem setsReg_of_writeBack {i : Instr} {s : State} {r : RegNum} {v : Word} (c : LenClass)
    (h : exec i s = writeBack c r v s) : SetsReg i s r v c.bytes := by
  refine ⟨_, h, by simp [Holds], by simp [Advanced, State.nextPc], ?_⟩
  constructor <;> intros <;> simp_all [State.reg_setReg]

/-- `writeBack` of a value given bit by bit. -/
theorem setsBits_of_writeBack {i : Instr} {s : State} {r : RegNum} {v : Word} {f : Nat → Bool} (c : LenClass)
    (h : exec i s = writeBack c r v s) (hf : ∀ k, k < 32 → v.getLsbD k = f k) : SetsBits i s r f c.bytes :=
  ⟨v, hf, setsReg_of_writeBack c h⟩

/-- `branchIf`: pc alone. -/
theorem branches_of_branchIf {i : Instr} {s : State} {cond : Prop} {off : Word} {b : Bool} (c : LenClass)
    (h : exec i s = branchIf c b off s) (hb : b = true ↔ cond) : Branches i s cond off c.bytes := by
  constructor
  · intro hc
    rw [branchIf, if_pos (hb.mpr hc)] at h
    exact ⟨_, h, rfl, by constructor <;> intros <;> simp_all⟩
  · intro hc
    rw [branchIf, if_neg (fun e => hc (hb.mp e))] at h
    exact ⟨_, h, rfl, by constructor <;> intros <;> simp_all⟩

/-- `jumpTo`: pc alone. -/
theorem goesTo_of_jumpTo {i : Instr} {s : State} {a : Word} (h : exec i s = jumpTo a s) : GoesTo i s a :=
  ⟨_, h, rfl, by constructor <;> intros <;> simp_all⟩

/-- `setFlag`: SR.F and pc. -/
theorem setsF_of_setFlag {i : Instr} {s : State} {rel : Prop} {r : Rel} {a b : Word} (c : LenClass)
    (h : exec i s = setFlag c r a b s) (hr : r.holds a b = true ↔ rel) : SetsF i s rel c.bytes := by
  refine ⟨_, h, by simp [State.flagF, hr], by simp [Advanced, State.nextPc], ?_⟩
  constructor <;> intros <;> simp_all [bitAt_withBit]

theorem ParamsWf.ov_ne_cy {p : Params} (h : ParamsWf p) : p.srBit.ov ≠ p.srBit.cy := by
  have := h.sr
  simp only [srPositions, List.nodup_cons, List.mem_cons, not_or] at this
  exact fun e => this.2.1.1 e.symm

/-- A register with OV and CY. -/
theorem setsRegOvCy_of_setOvCy {i : Instr} {s : State} {r : RegNum} {v : Word} {ov cy : Prop} {ovb cyb : Bool}
    (c : LenClass) (hw : ParamsWf s.params) (h : exec i s = .next (((s.setReg r v).setOvCy ovb cyb).advance c))
    (ho : ovb = true ↔ ov) (hc : cyb = true ↔ cy) : SetsRegOvCy i s r v ov cy c.bytes := by
  refine ⟨_, h, ?_, ?_, ?_, by simp [Advanced, State.nextPc, State.setOvCy], ?_⟩
  · simp [Holds, State.setOvCy]
  · simp [State.flagOv, State.setOvCy, bitAt_withBit, hw.ov_ne_cy, ho]
  · simp [State.flagCy, State.setOvCy, hc]
  · constructor <;> intros <;> simp_all [State.reg_setReg, bitAt_withBit, State.setOvCy]

theorem outside32_iff (x : Int) : outside32 x = true ↔ Overflows x := by
  simp [outside32, Overflows]

/-- `addFlags`: the exact sum, its overflow and its carry. -/
theorem addsInto_of_addFlags {i : Instr} {s : State} {r : RegNum} {a b : Word} {k : Nat} {c : Bool}
    (len : LenClass) (hw : ParamsWf s.params) (hk : c.toNat = k) (h : exec i s = addFlags len r a b c s) :
    AddsInto i s r a b k len.bytes := by
  subst hk
  have e : a + b + bitWord c = BitVec.ofInt 32 (a.toInt + b.toInt + (c.toNat : Int)) := by
    apply BitVec.eq_of_toInt_eq
    cases c <;> simp [bitWord, BitVec.toInt_add]
  rw [addFlags, e] at h
  exact setsRegOvCy_of_setOvCy len hw h (by simp [ovfAdd, outside32_iff]) (by simp [carryAdd])

/-- `subFlags`: the exact difference, its overflow and its borrow. -/
theorem subtractsInto_of_subFlags {i : Instr} {s : State} {r : RegNum} {a b : Word} {k : Nat} {c : Bool}
    (len : LenClass) (hw : ParamsWf s.params) (hk : c.toNat = k) (h : exec i s = subFlags len r a b c s) :
    SubtractsInto i s r a b k len.bytes := by
  subst hk
  have e : a - (b + bitWord c) = BitVec.ofInt 32 (a.toInt - b.toInt - (c.toNat : Int)) := by
    apply BitVec.eq_of_toInt_eq
    cases c <;> simp [bitWord, BitVec.toInt_add, BitVec.toInt_sub, Int.sub_sub]
  rw [subFlags, e] at h
  exact setsRegOvCy_of_setOvCy len hw h (by simp [ovfSub, outside32_iff]) (by simp [borrowSub])

/-! ### Memory -/

/-- The checks of an accessible access pass. -/
theorem Accessible.check {s : State} {a : Word} {n : Nat} (h : Accessible s a n) :
    accessCheck s.params .read a n = .ok () := accessCheck_eq_ok.mpr h

/-- The checks of a write that is performed pass. -/
theorem Writable.check {s : State} {a : Word} {n : Nat} (h : Writable s a n) :
    accessCheck s.params .write a n = .ok () :=
  accessCheck_eq_ok.mpr ⟨h.1.1, fun k hk => by simp [h.1.2 k hk, h.2 k hk]⟩

/-- One more byte below a number. -/
theorem shiftLeft_or_byte (acc : Nat) (b : Byte) (h : acc < 16777216) :
    BitVec.ofNat 32 acc <<< 8 ||| b.setWidth 32 = BitVec.ofNat 32 (acc * 256 + b.toNat) := by
  have hb := b.isLt
  have e : acc <<< 8 ||| b.toNat = acc * 256 + b.toNat := by
    rw [← Nat.shiftLeft_add_eq_or_of_lt hb, Nat.shiftLeft_eq]
  apply BitVec.eq_of_toNat_eq
  rw [BitVec.toNat_or, BitVec.toNat_shiftLeft, BitVec.toNat_setWidth, BitVec.toNat_ofNat, BitVec.toNat_ofNat,
    Nat.mod_eq_of_lt (show acc < 2 ^ 32 by omega), Nat.mod_eq_of_lt (show b.toNat < 2 ^ 32 by omega),
    Nat.mod_eq_of_lt (show acc <<< 8 < 2 ^ 32 by rw [Nat.shiftLeft_eq]; omega), e, Nat.mod_eq_of_lt (by omega)]

/-- The bytes of a datum assemble to the number in memory. -/
theorem readValue_eq_numberAt (s : State) (a : Word) (n : Nat) (hn : n = 1 ∨ n = 2 ∨ n = 4) :
    s.readValue a n = BitVec.ofNat 32 (numberAt s a n) := by
  unfold State.readValue numberAt State.bytesAt
  have r1 : List.range 1 = [0] := rfl
  have r2 : List.range 2 = [0, 1] := rfl
  have r4 : List.range 4 = [0, 1, 2, 3] := rfl
  have first : ∀ b : Byte, (0 : Word) <<< 8 ||| b.setWidth 32 = BitVec.ofNat 32 b.toNat := fun b => by
    simp
  have hb0 := (s.readByte (addrAt a 0)).isLt
  have hb1 := (s.readByte (addrAt a 1)).isLt
  have hb2 := (s.readByte (addrAt a 2)).isLt
  have hb3 := (s.readByte (addrAt a 3)).isLt
  generalize s.readByte (addrAt a 0) = b0 at *
  generalize s.readByte (addrAt a 1) = b1 at *
  generalize s.readByte (addrAt a 2) = b2 at *
  generalize s.readByte (addrAt a 3) = b3 at *
  rcases hn with h | h | h <;> subst h
  · rw [r1]
    cases s.params.endian <;> simp only [assemble, List.map, List.foldl, List.foldr, first] <;> simp [byteWeight]
  · rw [r2]
    cases s.params.endian <;> simp only [assemble, List.map, List.foldl, List.foldr] <;>
      rw [first, shiftLeft_or_byte _ _ (by omega)] <;> refine congrArg (BitVec.ofNat 32) ?_ <;>
      simp [byteWeight] <;> omega
  · rw [r4]
    cases s.params.endian <;> simp only [assemble, List.map, List.foldl, List.foldr] <;>
      rw [first, shiftLeft_or_byte _ _ (by omega), shiftLeft_or_byte _ _ (by omega),
        shiftLeft_or_byte _ _ (by omega)] <;> refine congrArg (BitVec.ofNat 32) ?_ <;>
      simp [byteWeight] <;> omega

/-- The byte a store puts at an offset, as a number. -/
theorem byteOf_eq (e : Endian) (n : Nat) (v : Word) (k : Nat) :
    byteOf e n v k = BitVec.ofNat 8 (v.toNat / 256 ^ byteWeight e n k) := by
  apply BitVec.eq_of_toNat_eq
  cases e <;> simp [byteOf, byteWeight, BitVec.extractLsb', Nat.shiftRight_eq_div_pow, Nat.pow_mul]

/-- What a store leaves at its own bytes. -/
theorem storedAt_writeValue (s : State) (a v : Word) (n : Nat) (hn : n ≤ addressSpace) :
    StoredAt (s.writeValue a n v) a n v := by
  intro k hk
  rw [State.readByte_writeValue s a n v hn k hk, byteOf_eq, State.writeValue_params]

/-- A store changes the bytes it stores and nothing else. -/
theorem keeps_writeValue (s : State) (a v : Word) (n : Nat) (c : LenClass) :
    Keeps { mem := addrsFrom a n } s ((s.writeValue a n v).advance c) := by
  constructor
  case mem =>
    intro b hb
    rw [State.advance_readByte]
    apply State.readByte_writeValue_outside
    intro k hk e
    exact hb (by simp only [addrsFrom, List.mem_map, List.mem_range]; exact ⟨k, hk, e.symm⟩)
  case stored => intro m; simp [State.mem_writeValue_stored, addrsFrom]
  all_goals intros; simp

/-- `loadInto`: the number in memory into a register. -/
theorem loads_of_loadInto {i : Instr} {s : State} {r : RegNum} {a : Word} {n : Nat} (c : LenClass)
    (hn : n = 1 ∨ n = 2 ∨ n = 4) (h : exec i s = loadInto c r a n s) : Loads i s r a n c.bytes := by
  intro ha
  apply setsReg_of_writeBack c
  rw [h, loadInto, memRead_of_check ha.check, readValue_eq_numberAt _ _ _ hn]
  rfl

/-- `storeFrom`: the low bytes of a value into memory. -/
theorem stores_of_storeFrom {i : Instr} {s : State} {a v : Word} {n : Nat} (c : LenClass)
    (hn : n ≤ addressSpace) (h : exec i s = storeFrom c a n v s) : Stores i s a n v c.bytes := by
  intro ha
  refine ⟨(s.writeValue a n v).advance c, ?_, storedAt_writeValue s a v n hn, ?_, keeps_writeValue s a v n c⟩
  · rw [h, storeFrom, memWrite_of_check ha.check]; rfl
  · simp [Advanced, State.nextPc]

/-! ### Exceptions -/

/-- `enterException`: ESR, EPCR, SR and pc. -/
theorem entered_enterException (vec epc : Word) (s : State) : Entered s (enterException vec epc s) vec epc := by
  refine ⟨rfl, rfl, ?_, rfl, ?_⟩
  · unfold EntrySr
    cases h : s.params.srOnEntry with
    | clearEnables =>
      refine ⟨?_, ?_, fun b h1 h2 => ?_⟩ <;>
        simp_all [State.flagIee, State.flagTee, enterException, srAfterEntry, bitAt_withEnables]
    | platform => simp [enterException, srAfterEntry, h]
  · constructor
    case sr => intro b hb; exact absurd ((by decide : ∀ b, b ∈ allBits) b) hb
    all_goals intros; first | rfl | simp_all [enterException]

/-- The saved address in the terms of the statements. -/
theorem epcrValue_eq_savedPc (e : EpcrRule) (s : State) (c : LenClass) : epcrValue e s c = savedPc e s c.bytes := by
  cases e <;> rfl

theorem Access.bind_assoc {α β γ : Type} (x : Access α) (f : α → Access β) (g : β → Access γ) :
    (x.bind f).bind g = x.bind fun a => (f a).bind g := by
  cases x <;> rfl

/-- The address the alignment exception saves, in the terms of the statements. -/
theorem alignEpcr_eq_savedPcAlign (s : State) (c : LenClass) : alignEpcr s c = savedPcAlign s c.bytes := by
  cases h : s.params.epcrOnAlign <;> simp [alignEpcr, savedPcAlign, h, epcrValue_eq_savedPc]

/-- An instruction whose first access is checked first stops where that check does. -/
theorem stopsAt_of_accessCheck {kind : AccessKind} {i : Instr} {s : State} {a : Word} {n : Nat} (c : LenClass)
    {f : Unit → Access State} (h : exec i s = ((accessCheck s.params kind a n).bind f).finish c s) :
    StopsAt kind i s a n c.bytes := by
  refine ⟨fun h1 h2 => ?_, fun h1 h2 => ⟨raiseAlignment c s, ?_, ?_⟩, fun h1 h2 => ?_⟩
  · rw [h, accessCheck_refuse h1 h2]; rfl
  · rw [h, accessCheck_fault h1 h2]; rfl
  · have := entered_enterException s.params.vecAlign (alignEpcr s c) s
    rwa [alignEpcr_eq_savedPcAlign] at this
  · rw [h, accessCheck_unmapped h1 h2]; rfl

/-- An instruction whose first access is a read stops where that read does. -/
theorem stopsAt_of_memRead {i : Instr} {s : State} {a : Word} {n : Nat} (c : LenClass) {f : Word → Access State}
    (h : exec i s = ((memRead s a n).bind f).finish c s) : StopsAt .read i s a n c.bytes := by
  rw [memRead, Access.bind_assoc] at h
  exact stopsAt_of_accessCheck c h

/-- An instruction whose first access is a write stops where that write does. -/
theorem stopsAt_of_memWrite {i : Instr} {s : State} {a v : Word} {n : Nat} (c : LenClass)
    {f : State → Access State} (h : exec i s = ((memWrite s a n v).bind f).finish c s) :
    StopsAt .write i s a n c.bytes := by
  rw [memWrite, Access.bind_assoc] at h
  exact stopsAt_of_accessCheck c h

/-- An instruction that reads a place and then writes it stops where the write does. -/
theorem stopsAt_of_readWrite {i : Instr} {s : State} {a : Word} {n : Nat} (c : LenClass) {w : Word → Word}
    {f : Word → State → Access State}
    (h : exec i s = ((memRead s a n).bind fun v => (memWrite s a n (w v)).bind (f v)).finish c s) :
    StopsAt .write i s a n c.bytes := by
  have e : ((memRead s a n).bind fun v => (memWrite s a n (w v)).bind (f v)) =
      (accessCheck s.params .write a n).bind fun _ =>
        f (s.readValue a n) (s.writeValue a n (w (s.readValue a n))) := by
    rw [accessCheck_write_eq, memRead, Access.bind_assoc, Access.bind_assoc]
    simp only [Access.bind_ok, memWrite, Access.bind_assoc]
  exact stopsAt_of_accessCheck c (e ▸ h)

/-- The words of a list before access `k` pass their checks; access `k` decides whether the list is read. -/
theorem loadWords_at {α : Type} {s : State} {a : Word} {l : List Word} {k : Nat} (g : List Word → Access α)
    (ha : l[k]? = some a) (hpre : ∀ j b, j < k → l[j]? = some b → Accessible s b 4) :
    ∃ f, (loadWords s l).bind g = (accessCheck s.params .read a 4).bind f := by
  induction l generalizing k α with
  | nil => simp at ha
  | cons b l ih =>
    cases k with
    | zero =>
      cases Option.some.inj ha
      rw [loadWords, memRead, Access.bind_assoc, Access.bind_assoc]
      exact ⟨_, rfl⟩
    | succ k =>
      rw [loadWords, memRead_of_check (hpre 0 b (Nat.succ_pos k) rfl).check, Access.bind_ok, Access.bind_assoc]
      exact ih _ ha fun j c hj hc => hpre (j + 1) c (Nat.succ_lt_succ hj) hc

/-- The same of a list of words to store. -/
theorem storeWords_at {α : Type} {s : State} {a v : Word} {l : List (Word × Word)} {k : Nat}
    (g : State → Access α) (ha : l[k]? = some (a, v))
    (hpre : ∀ j e, j < k → l[j]? = some e → Writable s e.1 4) :
    ∃ f, (storeWords l s).bind g = (accessCheck s.params .write a 4).bind f := by
  induction l generalizing k s with
  | nil => simp at ha
  | cons e l ih =>
    cases k with
    | zero =>
      cases Option.some.inj ha
      rw [storeWords, memWrite, Access.bind_assoc, Access.bind_assoc]
      exact ⟨_, rfl⟩
    | succ k =>
      rw [storeWords, memWrite_of_check (hpre 0 e (Nat.succ_pos k) rfl).check, Access.bind_ok,
        ← State.writeValue_params s e.1 4 e.2]
      refine ih ha fun j c hj hc => ?_
      have := hpre (j + 1) c (Nat.succ_lt_succ hj) hc
      exact ⟨⟨by simpa [AlignedOrSplit] using this.1.1, by simpa using this.1.2⟩, by simpa using this.2⟩

/-- An instruction that reads a list of words stops at the first access that does. -/
theorem stopsAt_of_loadWords {i : Instr} {s : State} {a : Word} {l : List Word} {k : Nat} (c : LenClass)
    {g : List Word → Access State} (ha : l[k]? = some a)
    (hpre : ∀ j b, j < k → l[j]? = some b → Accessible s b 4)
    (h : exec i s = ((loadWords s l).bind g).finish c s) : StopsAt .read i s a 4 c.bytes := by
  obtain ⟨f, hf⟩ := loadWords_at g ha hpre
  exact stopsAt_of_accessCheck c (hf ▸ h)

/-- An instruction that stores a list of words stops at the first access that does. -/
theorem stopsAt_of_storeWords {i : Instr} {s : State} {a v : Word} {l : List (Word × Word)} {k : Nat}
    (c : LenClass) {g : State → Access State} (ha : l[k]? = some (a, v))
    (hpre : ∀ j e, j < k → l[j]? = some e → Writable s e.1 4)
    (h : exec i s = ((storeWords l s).bind g).finish c s) : StopsAt .write i s a 4 c.bytes := by
  obtain ⟨f, hf⟩ := storeWords_at g ha hpre
  exact stopsAt_of_accessCheck c (hf ▸ h)

end Sys2Proof.Machine
end

