-- ==== Sys2Proof/Tests/Slice0.lean ====
section
/-! SUPPORT. Tests: the refusals of WellFormed, the decoding of every recovered form, one step or one
meaning per vector of `spec/95_test_vectors.md`, and for every statement with hypotheses a witness that
meets them. -/

namespace Sys2Proof.Tests

open Sys2Proof.Machine

/-! ### Helpers -/

/-- The state after reset with some registers written. -/
def regs (l : List (RegNum × Word)) : State := l.foldl (fun s e => s.setReg e.1 e.2) State.reset

/-- A state with words of memory written, at the addresses given. -/
def withWords (s : State) (l : List (Word × Word)) : State :=
  { s with mem := (l.foldl (fun t e => t.writeValue e.1 4 e.2) s).mem }

/-- Whether an outcome is a next state of which `f` holds. -/
def next (r : Result) (f : State → Bool) : Bool :=
  match r with
  | .next t => f t
  | _ => false

/-- Whether an outcome is the given refusal. -/
def refuses (r : Result) (x : Refusal) : Bool :=
  match r with
  | .refused y => decide (y = x)
  | _ => false

/-- Whether the rows of bits, word and instruction decode as they say. -/
def decodes (l : List (Nat × Nat × Instr)) : Bool :=
  l.all fun e => decide (decodeTableWord e.1 e.2.1 = some e.2.2)

/-- Whether bytes are refused with an error. -/
def fails (bytes : List Byte) (e : DecodeError) : Bool :=
  match decode bytes with
  | .error d => decide (d = e)
  | .ok _ => false

/-! ### WellFormed -/

theorem test_addi_needs_a_destination : (Instr.btAddi 0 1).wellFormed = false := by decide
theorem test_mov_needs_a_destination : (Instr.btMov 0 1).wellFormed = false := by decide
theorem test_addi_is_well_formed : (Instr.btAddi 31 1).wellFormed = true := by decide
theorem test_ill_formed_placement_is_refused :
    refuses (step { State.reset with asm := [(0, .btAddi 0 1)] }) .unknownEncoding = true := by decide

/-! ### Decoding: the words of `spec/95_test_vectors.md` section 3, one per recovered form -/

theorem test_decode_011000 : decodes
    [(24, 0x606429, .bnOr 3 4 5), (24, 0x63E08A, .bnXor 31 0 17), (24, 0x60642B, .bnNand 3 4 5),
      (24, 0x60642D, .bnSub 3 4 5), (24, 0x63E08E, .bnSll 31 0 17), (24, 0x60642F, .bnSrl 3 4 5)] = true := by
  decide
theorem test_decode_011001 : decodes
    [(24, 0x646428, .bnSra 3 4 5), (24, 0x67E089, .bnRor 31 0 17), (24, 0x64642A, .bnCmov 3 4 5),
      (24, 0x64642B, .bnMul 3 4 5), (24, 0x64642C, .bnDiv 3 4 5), (24, 0x67E08D, .bnDivu 31 0 17),
      (24, 0x64642F, .bnAddc 3 4 5)] = true := by decide
theorem test_decode_011010 : decodes
    [(24, 0x686428, .bnSubb 3 4 5), (24, 0x6BE089, .bnFlb 31 0 17), (24, 0x68642B, .bnMulh 3 4 5),
      (24, 0x68642C, .bnMod 3 4 5), (24, 0x68642F, .bnCmpxchg 3 4 5)] = true := by decide
theorem test_decode_float_and_adds : decodes
    [(24, 0x706428, .fnAddS 3 4 5), (24, 0x706429, .fnSubS 3 4 5), (24, 0x73E08A, .fnMulS 31 0 17),
      (24, 0x70642B, .fnDivS 3 4 5), (24, 0x746428, .bnAdds 3 4 5)] = true := by decide
theorem test_decode_shifts : decodes
    [(24, 0x6C6420, .bnSlli 3 4 4), (24, 0x6FF1F9, .bnSrli 31 17 31), (24, 0x6C6422, .bnSrai 3 4 4),
      (24, 0x6FF1FB, .bnRori 31 17 31), (24, 0x6C6424, .bnSlli 3 4 4)] = true := by decide
theorem test_decode_two_registers : decodes
    [(24, 0x3E0418, .bnExtbz 3 4), (24, 0x3E11F9, .bnExtbs 31 17), (24, 0x3E041A, .bnExthz 3 4),
      (24, 0x3E041B, .bnExths 3 4), (24, 0x3E11FC, .bnFf1 31 17), (24, 0x3E041D, .bnClz 3 4),
      (24, 0x3E041F, .bnSwab 3 4), (24, 0x7E0418, .fnFtoiS 3 4), (24, 0x7E11F9, .fnItofS 31 17),
      (24, 0x3EC418, .bnExtbz 3 4)] = true := by decide
theorem test_decode_short : decodes
    [(16, 0x007F, .btAddi 3 15), (16, 0x03F8, .btAddi 31 8), (16, 0x001F, .btNop 15), (16, 0x0003, .btTrap 3),
      (16, 0x0464, .btMov 3 4), (16, 0x043F, .btMov 1 31), (16, 0x0400, .btRfe), (16, 0x0401, .btEi),
      (16, 0x0402, .btDi)] = true := by decide

/-- Section 3.5: words without an instruction. -/
theorem test_refused_words :
    ([[0x60, 0x64, 0x28], [0x64, 0x64, 0x2E], [0x68, 0x64, 0x2A], [0x70, 0x64, 0x2C], [0x74, 0x64, 0x29],
      [0x3E, 0x04, 0x1E], [0x3E, 0x24, 0x18], [0x3D, 0x04, 0x18], [0x7E, 0x04, 0x1A], [0x00, 0x20],
      [0xFF]].all fun b => fails b .unknownEncoding) = true := by decide
theorem test_reserved_mov : (fails [0x04, 0x03] .reservedBtMov && fails [0x04, 0x1F] .reservedBtMov) = true := by
  decide

/-! ### Meanings: vectors of `spec/95_test_vectors.md` section 2 -/

theorem test_add_carry : next (exec (.bnAdd 3 4 5) (regs [(4, 0xFFFFFFFF), (5, 1)]))
    (fun t => t.reg 3 == 0 && t.flagCy && !t.flagOv && t.pc == 3) = true := by decide
theorem test_addc_overflow : next (exec (.bnAddc 3 4 5) ((regs [(4, 0x7FFFFFFF)]).setCy true))
    (fun t => t.reg 3 == 0x80000000 && !t.flagCy && t.flagOv) = true := by decide
theorem test_addi_reads_destination : next (exec (.btAddi 3 0x8) (regs [(3, 8)]))
    (fun t => t.reg 3 == 0 && t.flagCy && !t.flagOv && t.pc == 2) = true := by decide
theorem test_subb_borrow : next (exec (.bnSubb 3 4 5) ((regs [(5, 0xFFFFFFFF)]).setCy true))
    (fun t => t.reg 3 == 0 && t.flagCy && !t.flagOv) = true := by decide
theorem test_adds_clamps_low : next (exec (.bnAdds 3 4 5) (regs [(4, 0x80000000), (5, 0xFFFFFFFF)]))
    (fun t => t.reg 3 == 0x80000000 && t.flagCy && t.flagOv) = true := by decide
theorem test_subs_is_sticky : next (exec (.bSubs 3 4 5) ((regs [(4, 5), (5, 3)]).setOv true))
    (fun t => t.reg 3 == 2 && t.flagOv && !t.flagCy) = true := by decide
theorem test_mul_overflow : next (exec (.bnMul 3 4 5) (regs [(4, 0x80000000), (5, 0xFFFFFFFF)]))
    (fun t => t.reg 3 == 0x80000000 && t.flagOv) = true :=
  (by decide : ∀ cy, next (.next ((((State.setReg (regs [(4, 0x80000000), (5, 0xFFFFFFFF)]) 3 0x80000000).setOvCy
    true cy).drawn).advance .bn)) (fun t => t.reg 3 == 0x80000000 && t.flagOv) = true) (Config.freeBit 0)
theorem test_mulh_signed : next (exec (.bnMulh 3 4 5) (regs [(4, 0xFFFFFFFF), (5, 1)]))
    (fun t => t.reg 3 == 0xFFFFFFFF) = true := by decide
theorem test_div_truncates : next (exec (.bnDiv 3 4 5) (regs [(4, 0xFFFFFFF9), (5, 2)]))
    (fun t => t.reg 3 == 0xFFFFFFFD && !t.flagOv && !t.flagCy) = true := by decide
theorem test_div_by_zero_runs_on : next (exec (.bnDiv 3 4 5) (regs [(4, 5)]))
    (fun t => t.flagCy && t.pc == 3) = true :=
  (by decide : ∀ ov, next (.next ((((regs [(4, 5)]).setOvCy ov true).drawn).advance .bn))
    (fun t => t.flagCy && t.pc == 3) = true) (Config.freeBit 0)
theorem test_mod_sign : next (exec (.bnMod 3 4 5) (regs [(4, 0xFFFFFFF9), (5, 2)]))
    (fun t => t.reg 3 == 0xFFFFFFFF) = true := by decide
theorem test_mac_carry : next (exec (.bMac 4 5)
    (((regs [(4, 1), (5, 1)]).setMachi 0xFFFFFFFF).setMaclo 0xFFFFFFFF))
    (fun t => t.machi == 0 && t.maclo == 0 && t.ur == 4) = true := by decide
theorem test_macs_clamps : next (exec (.bMacs 4 5)
    (((regs [(4, 0xFFFFFFFF), (5, 1)]).setMachi 0x80000000).setMaclo 0))
    (fun t => t.machi == 0x80000000 && t.maclo == 0 && t.ur == 6) = true := by decide
theorem test_nand : next (exec (.bnNand 3 4 5) (regs [(4, 0xFF00FF00), (5, 0x0FF00FF0)]))
    (fun t => t.reg 3 == 0xF0FFF0FF) = true := by decide
theorem test_xori_sign_extends : next (exec (.bwXori 3 4 0x800000) State.reset)
    (fun t => t.reg 3 == 0xFF800000 && t.pc == 6) = true := by decide
theorem test_sra_ignores_high_amount : next (exec (.bnSra 3 4 5) (regs [(4, 0x80000001), (5, 0xFFFFFFE1)]))
    (fun t => t.reg 3 == 0xC0000000) = true := by decide
theorem test_rori : next (exec (.bnRori 3 4 4) (regs [(4, 0x87654321)]))
    (fun t => t.reg 3 == 0x18765432) = true := by decide
theorem test_bitrev : next (exec (.bnBitrev 3 4) (regs [(4, 0x12345678)]))
    (fun t => t.reg 3 == 0x1E6A2C48) = true := by decide +kernel
theorem test_clz_of_zero : next (exec (.bnClz 3 4) State.reset) (fun t => t.reg 3 == 0xFFFFFFFF) = true := by
  decide
theorem test_ff1_of_bit_31 : next (exec (.bnFf1 3 4) (regs [(4, 0x80000000)])) (fun t => t.reg 3 == 32) = true := by
  decide
theorem test_flb : next (exec (.bnFlb 3 4 5) (regs [(4, 0x11223344), (5, 0x55223399)]))
    (fun t => t.reg 3 == 2) = true := by decide
theorem test_exths : next (exec (.bnExths 3 4) (regs [(4, 0x12348000)])) (fun t => t.reg 3 == 0xFFFF8000) = true := by
  decide
theorem test_movhi : next (exec (.bMovhi 3 0x1234) ((State.reset.setOv true).setCy true))
    (fun t => t.reg 3 == 0x12340000 && !t.flagOv && !t.flagCy) = true := by decide
theorem test_r0_is_not_written : next (exec (.btMovi 0 5) State.reset) (fun t => t.reg 0 == 0 && t.pc == 2) = true := by
  decide
theorem test_sfgtui_sign_extends : next (exec (.bnSfgtui 4 0x80) (regs [(4, 0x7F)])) (fun t => !t.flagF) = true := by
  decide
theorem test_bf_wraps : next (exec (.bnBf 0x800) ((State.reset.setF true).setPc 0x100))
    (fun t => t.pc == 0xFFFFF900) = true := by decide
theorem test_cov : next (exec .bCov ((State.reset.setOv true).setPc 0x100))
    (fun t => t.pc == 0x103 && !t.flagOv) = true := by decide
theorem test_bno_keeps_overflow : next (exec (.bnBno 0xC) ((State.reset.setOv true).setPc 0x100))
    (fun t => t.pc == 0x103 && t.flagOv) = true := by decide
theorem test_bno_3_clears_overflow : next (exec (.bnBno 3) ((State.reset.setOv true).setPc 0x100))
    (fun t => t.pc == 0x103 && !t.flagOv) = true := by decide
theorem test_beqi_zero_extends : next (exec (.bnBeqi 4 0x1F 0x10) ((regs [(4, 0x1F)]).setPc 0x100))
    (fun t => t.pc == 0x110) = true := by decide
theorem test_bltui_sign_extends : next (exec (.bgBltui 4 0x10 8) ((regs [(4, 0x80000000)]).setPc 0x100))
    (fun t => t.pc == 0x108) = true := by decide
theorem test_bleu_exchanges : next (exec (.bBleu 4 5 (.bg 8)) ((regs [(4, 0xFFFFFFFF)]).setPc 0x100))
    (fun t => t.pc == 0x104) = true := by decide
theorem test_jalr_reads_r9_first : next (exec (.bJalr 9) ((regs [(9, 0x2000)]).setPc 0x100))
    (fun t => t.pc == 0x2000 && t.reg 9 == 0x103) = true := by decide
theorem test_jma : next (exec (.bwJma 3 0x300) ((withWords State.reset [(0x400, 0x2000)]).setPc 0x100))
    (fun t => t.pc == 0x2000 && t.reg 3 == 0x400) = true := by decide
theorem test_entri : next (exec (.bnEntri 2 3) (regs [(1, 0x1000), (9, 0xAAAA0009), (10, 0xBBBB000A)]))
    (fun t => t.reg 1 == 0xFEC && t.readValue 0xFFC 4 == 0xAAAA0009 && t.readValue 0xFF8 4 == 0xBBBB000A) = true := by
  decide
theorem test_reti : next (exec (.bnReti 2 3) (withWords (regs [(1, 0xFEC)]) [(0xFFC, 0x200), (0xFF8, 0x11110000)]))
    (fun t => t.reg 1 == 0x1000 && t.reg 9 == 0x200 && t.reg 10 == 0x11110000 && t.pc == 0x200) = true := by
  decide
theorem test_lhz_scales_then_extends : next (exec (.bgLhz 3 0x7FFF 5)
    (withWords (regs [(5, 0x1008)]) [(0x1004, 0x8000FF01)])) (fun t => t.reg 3 == 0xFF01) = true := by decide
theorem test_lwz_little : next (exec (.bnLwz 3 0 4)
    { withWords (regs [(4, 0x1000)]) [(0x1000, 0x12345678)] with params := { resetParams with endian := .little } })
    (fun t => t.reg 3 == 0x78563412) = true := by decide
theorem test_lwz_misaligned : refuses (exec (.bgLwz 3 0 5) (regs [(5, 0x1002)])) .misaligned = true := by decide
theorem test_lwz_split : next (exec (.bgLwz 3 0 5)
    { withWords (regs [(5, 0x1002)]) [(0x1000, 0x12345678), (0x1004, 0x8000FF01)] with
      params := { resetParams with misaligned := .split } }) (fun t => t.reg 3 == 0x56788000) = true := by decide
theorem test_sh : next (exec (.bnSh 1 4 5) (withWords (regs [(4, 0x2000), (5, 0x1234ABCD)]) [(0x2000, 0)]))
    (fun t => t.readValue 0x2000 4 == 0xABCD) = true := by decide
theorem test_mlwz : next (exec (.bnMlwz 30 0 4 0) (withWords (regs [(4, 0x1000)]) [(0x1000, 1), (0x1004, 2)]))
    (fun t => t.reg 30 == 1 && t.reg 31 == 2) = true := by decide
theorem test_mlwz_register_range : refuses (exec (.bnMlwz 30 0 4 1) State.reset) .registerRange = true := by decide
theorem test_msw : next (exec (.bnMsw 2 4 10 0) (regs [(4, 0x1000), (10, 1), (11, 2)]))
    (fun t => t.readValue 0x1008 4 == 1 && t.readValue 0x100C 4 == 2) = true := by decide
theorem test_lma : next (exec (.bwLma 3 0x300)
    ((withWords State.reset [(0x400, 0x1000), (0x1000, 0xCAFEF00D)]).setPc 0x100))
    (fun t => t.reg 3 == 0xCAFEF00D) = true := by decide
theorem test_aadd : next (exec (.bnAadd 5 4 5) (withWords (regs [(4, 0xFFFFFFFF), (5, 0x1000)]) [(0x1000, 10)]))
    (fun t => t.reg 5 == 9 && t.readValue 0x1000 4 == 9) = true := by decide
theorem test_cmpxchg_fails : next (exec (.bnCmpxchg 3 4 5)
    (withWords (regs [(3, 6), (4, 9), (5, 0x1000)]) [(0x1000, 5)]))
    (fun t => t.reg 3 == 5 && t.flagF && t.readValue 0x1000 4 == 5) = true := by decide
theorem test_ld_is_refused : refuses (exec (.bgLd 3 1 4) State.reset) .not32bit = true := by decide
theorem test_trap_taken : next (exec (.btTrap 2) ((State.reset.setSr 0xA06).setPc 0x100))
    (fun t => t.esr == 0xA06 && t.epcr == 0x100 && t.sr == 0xA00 && t.pc == 0x200) = true := by decide
theorem test_trap_not_taken : next (exec (.btTrap 15) ((State.reset.setSr 0x10000).setPc 0x100))
    (fun t => t.pc == 0x102 && t.sr == 0x10000) = true := by decide
theorem test_sys : next (exec (.bSys none) ((State.reset.setSr 6).setPc 0x100))
    (fun t => t.esr == 6 && t.epcr == 0x103 && t.sr == 0 && t.pc == 0x300) = true := by decide
theorem test_rfe : next (exec .btRfe ((State.reset.setEsr 0xFFFFFFFF).setEpcr 1))
    (fun t => t.sr == 0xFFFFFFFF && t.pc == 1) = true := by decide
theorem test_di : next (exec .btDi (State.reset.setSr 0xE07)) (fun t => t.sr == 0xE01 && t.pc == 2) = true := by
  decide
theorem test_mfspr_ors : next (exec (.bwMfspr 3 4 1) ((regs [(4, 0x2801)]).setMaclo 0xC))
    (fun t => t.reg 3 == 0xC) = true := by decide
theorem test_mtspr_sr : next (exec (.bwMtspr 0 5 0x11) (regs [(5, 0xC04)]))
    (fun t => t.sr == 0xC04 && t.flagCy && t.flagOv && t.flagIee && !t.flagF && !t.flagTee) = true := by decide
theorem test_fadd_ties_to_even : next (exec (.fnAddS 3 4 5) (regs [(4, 0x3F800001), (5, 0x33800000)]))
    (fun t => t.reg 3 == 0x3F800002 && t.ur == 0x80) = true := by decide
theorem test_fdiv_by_zero : next (exec (.fnDivS 3 4 5) (regs [(4, 0xBF800000)]))
    (fun t => t.reg 3 == 0xFF800000 && t.ur == 0x200) = true := by decide
theorem test_ftoi_saturates : next (exec (.fnFtoiS 3 4) (regs [(4, 0xCF000001)]))
    (fun t => t.reg 3 == 0x80000000 && t.ur == 0x100) = true := by decide
theorem test_fbge_of_nan : next (exec (.fgBgeS 4 5 8) (regs [(4, 0x7FC00000), (5, 0x7FC00000)]))
    (fun t => t.pc == 4) = true := by decide

/-! ### Steps -/

theorem test_step_runs_the_word : next (step (State.reset.withFetchWord 24 0x606429)) (fun t => t.pc == 3) = true := by
  decide
theorem test_step_refuses_stored_bytes :
    refuses (step { State.reset.withFetchWord 24 0x606429 with stored := [2] }) .selfModifyingCode = true := by decide
theorem test_step_runs_the_placed_form :
    next (step { State.reset with asm := [(0, .bwJa 0x1000)] }) (fun t => t.pc == 0x1000) = true := by decide

/-! ### Witnesses: states and operands that meet the hypotheses of the statements, clause by clause -/

/-- The platform's policy for misaligned accesses changed to `m`. -/
def withPolicy (m : MisalignedPolicy) : State := { State.reset with params := { resetParams with misaligned := m } }

/-- A machine without any ordinary memory. -/
def unmapped : State := { State.reset with params := { resetParams with memmap := [] } }

theorem witness_params_wf : ParamsWf State.reset.params := ⟨by decide, by decide⟩
theorem witness_state_wf : StateWf State.reset := ⟨rfl, rfl, ⟨by decide, by decide⟩, by decide⟩
theorem witness_accessible_words : Writable State.reset 0 4 ∧ Writable State.reset 0xFFFFFFFC 4 := by
  unfold Writable Accessible AlignedOrSplit; decide
theorem witness_accessible_narrow : Writable State.reset 0xFFFFFFFF 1 ∧ Writable State.reset 0xFFFFFFFE 2 := by
  unfold Writable Accessible AlignedOrSplit; decide
theorem witness_accessible_split : Writable (withPolicy .split) 0xFFFFFFFF 4 := by
  unfold Writable Accessible AlignedOrSplit; decide

theorem witness_DecodeEncodeRoundTrip : (Instr.bnRori 31 17 31).wellFormed = true ∧
    encode (.bnRori 31 17 31) = some (.w24 0x6FF1FB) ∧ encode (.bNot 3 4) = some (.w24 0x606423) ∧
    encode (.btMov 31 0) = some (.w16 0x07E0) := by decide
theorem witness_DecodedFormsHaveEncodings : decode [0x6C, 0x64, 0x24, 7] = .ok (.bnSlli 3 4 4, [7]) ∧
    decode [0x3E, 0xC4, 0x18] = .ok (.bnExtbz 3 4, []) ∧ decode [0x00, 0x7F] = .ok (.btAddi 3 15, []) :=
  ⟨rfl, rfl, rfl⟩

/-- The machine with bytes at pc = 0. -/
def atPc (l : List Byte) : State := { State.reset with mem := Memory.load [] 0 l }

theorem witness_fetchable : Fetchable (atPc [0x60, 0x64, 0x29]) 3 ∧ Fetchable (atPc [0x04, 0x03]) 2 := by
  unfold Fetchable; decide
theorem witness_UndecodableBytes_no_length : Quiet (atPc [0xFC]) ∧ placedAt (atPc [0xFC]).asm 0 = none ∧
    Fetchable (atPc [0xFC]) 1 ∧ lengthClass ((atPc [0xFC]).readByte 0) = none :=
  ⟨rfl, rfl, by unfold Fetchable; decide, by decide⟩
theorem witness_UndecodableBytes_no_instruction : Fetchable (atPc [0x60, 0x64, 0x28]) 3 ∧
    lengthClass ((atPc [0x60, 0x64, 0x28]).readByte 0) = some .bn ∧
    decode ((atPc [0x60, 0x64, 0x28]).bytesAt 0 3) = .error .unknownEncoding :=
  ⟨by unfold Fetchable; decide, by decide, rfl⟩
theorem witness_UndecodableBytes_reserved : lengthClass ((atPc [0x04, 0x03]).readByte 0) = some .bt ∧
    (atPc [0x04, 0x03]).readByte 0 = 0x04#8 ∧ (atPc [0x04, 0x03]).readByte (addrAt 0 1) = (3 : RegNum).setWidth 8 ∧
    (atPc [0x04, 0x1F]).readByte (addrAt 0 1) = (31 : RegNum).setWidth 8 := by decide
theorem witness_StepRuns_bytes : Quiet (atPc [0x60, 0x64, 0x29]) ∧
    lengthClass ((atPc [0x60, 0x64, 0x29]).readByte 0) = some .bn ∧
    decode ((atPc [0x60, 0x64, 0x29]).bytesAt 0 3) = .ok (.bnOr 3 4 5, []) := ⟨rfl, by decide, rfl⟩
theorem witness_StepRuns_placed : placedAt [(0, Instr.bwJa 0x1000)] State.reset.pc.toNat = some (.bwJa 0x1000) ∧
    (Instr.bwJa 0x1000).wellFormed = true ∧
    Fetchable { State.reset with asm := [(0, .bwJa 0x1000)] } (instrLen resetParams (.bwJa 0x1000)) :=
  ⟨rfl, rfl, by unfold Fetchable; decide⟩

/-- After `bg.sw 0(r4),r5`, with x4 = 0x200, the machine at an address. -/
def afterStore (pc : Word) (asm : List (Nat × Instr)) : State :=
  { State.reset with pc := pc, asm := asm, stored := [0x200, 0x201, 0x202, 0x203]
                     mem := [(0x1FE, 0x60), (0x1FF, 0), (0x200, 0x60), (0x201, 0x64), (0x202, 0x29), (0x203, 0)] }
theorem test_store_marks_its_bytes :
    next (exec (.bgSw 0 4 5) (regs [(4, 0x200)])) (fun t => t.stored == (afterStore 0x200 []).stored) = true := by
  decide
theorem witness_StoredBytes_first : Quiet (afterStore 0x200 []) ∧
    (addrAt (afterStore 0x200 []).pc 0).toNat ∈ (afterStore 0x200 []).stored ∧
    placedAt (afterStore 0x200 []).asm 0x200 = none ∧ mapped resetParams 0x200 = true :=
  ⟨rfl, by decide, rfl, by decide⟩
theorem witness_StoredBytes_last : Quiet (afterStore 0x1FE []) ∧
    (addrAt (afterStore 0x1FE []).pc 2).toNat ∈ (afterStore 0x1FE []).stored ∧
    placedAt (afterStore 0x1FE []).asm 0x1FE = none ∧
    lengthClass ((afterStore 0x1FE []).readByte 0x1FE) = some .bn ∧ 2 < LenClass.bn.bytes ∧
    ∀ m, m < 3 → mapped resetParams (addrAt (afterStore 0x1FE []).pc m) = true :=
  ⟨rfl, by decide, rfl, by decide, by decide, by decide⟩
theorem witness_StoredBytes_placed : Quiet (afterStore 0x1FE [(0x1FE, .bwJa 0)]) ∧
    (addrAt (afterStore 0x1FE [(0x1FE, .bwJa 0)]).pc 5).toNat ∈ (afterStore 0x1FE []).stored ∧
    placedAt (afterStore 0x1FE [(0x1FE, .bwJa 0)]).asm 0x1FE = some (.bwJa 0) ∧
    (Instr.bwJa 0).wellFormed = true ∧ 5 < instrLen resetParams (.bwJa 0) ∧
    ∀ m, m < 6 → mapped resetParams (addrAt (afterStore 0x1FE []).pc m) = true :=
  ⟨rfl, by decide, rfl, rfl, by decide, by decide⟩

theorem witness_StepKeeps : ∃ t, step { atPc [0x04, 0x64] with stored := [0x200] } = .next t := ⟨_, rfl⟩
theorem witness_StepKeepsInvariant : StateWf { atPc [0x04, 0x64] with stored := [0x200] } :=
  ⟨rfl, rfl, ⟨by decide, by decide⟩, by decide⟩

/-- A platform with requests enough that one of them is taken, whatever `Config.irqTake` is. -/
def requesting : State :=
  { State.reset with sr := 4, irq := List.replicate (Config.irqTake 0 + 1) { gate := .iee, vec := 0x500, pending := true } }
theorem witness_InterruptEntry_masked : State.reset.flagIee = false ∧ State.reset.flagTee = false := by decide
theorem witness_InterruptEntry_taken :
    acceptedInterrupt requesting = some { gate := .iee, vec := 0x500, pending := true } := by
  have h : acceptable requesting = requesting.irq := by
    unfold acceptable
    rw [List.filter_eq_self]
    intro c hc
    rw [List.eq_of_mem_replicate (show c ∈ List.replicate (Config.irqTake 0 + 1) _ from hc)]
    decide
  unfold acceptedInterrupt
  rw [h]
  show (requesting.irq)[Config.irqTake 0]? = _
  simp [requesting]

theorem witness_ReadAfterWrite : (∃ t, memWrite State.reset 0xFFFFFFFF 1 0x1FF = .ok t) ∧
    (∃ t, memWrite State.reset 0xFFFFFFFE 2 0x1FFFF = .ok t) ∧
    ∃ t, memWrite (withPolicy .split) 0xFFFFFFFF 4 0x12345678 = .ok t := ⟨⟨_, rfl⟩, ⟨_, rfl⟩, ⟨_, rfl⟩⟩

theorem witness_DefinedDivision : (0x80000000 : Word).toInt = -2147483648 ∧ (1 : Word).toInt ≠ 0 ∧
    ¬ ((0x80000000 : Word).toInt = -2147483648 ∧ (1 : Word).toInt = -1) ∧
    ¬ ((0x80000001 : Word).toInt = -2147483648 ∧ (0xFFFFFF : BitVec 24).toInt = -1) := by decide
theorem witness_UndefinedDivision : (regs [(4, 0x80000000)]).reg 5 = 0 ∧
    ((regs [(4, 0x80000000), (5, 0xFFFFFFFF)]).reg 4).toInt = -2147483648 ∧
    ((regs [(4, 0x80000000), (5, 0xFFFFFFFF)]).reg 5).toInt = -1 ∧ (0xFFFFFF : BitVec 24).toInt = -1 := by decide
theorem witness_DefinedRemainder : (regs [(4, 0x80000000), (5, 1)]).reg 5 ≠ 0 ∧
    ¬ (((regs [(4, 0x80000000), (5, 1)]).reg 4).toInt = -2147483648 ∧
      ((regs [(4, 0x80000000), (5, 1)]).reg 5).toInt = -1) := by decide

theorem witness_BitSearches_one : State.reset.reg 4 = 0 ∧ ((regs [(4, 1)]).reg 4).getLsbD (31 - 31) = true ∧
    (∀ j, j < 31 → ((regs [(4, 1)]).reg 4).getLsbD (31 - j) = false) ∧
    ((regs [(4, 0x80000000)]).reg 4).getLsbD 31 = true ∧
    ∀ j, j < 31 → ((regs [(4, 0x80000000)]).reg 4).getLsbD j = false := by decide
/-- The states of the byte search: only byte 0 equal, byte 3 equal, no byte equal. -/
def search (b : Word) : State := regs [(4, 0x11223344), (5, b)]
theorem witness_BitSearches_byte :
    (((search 0x55667744).reg 4).toNat / 256 ^ 0 % 256 = ((search 0x55667744).reg 5).toNat / 256 ^ 0 % 256) ∧
    (∀ j, j < 4 → 0 < j →
      ¬ ((search 0x55667744).reg 4).toNat / 256 ^ j % 256 = ((search 0x55667744).reg 5).toNat / 256 ^ j % 256) ∧
    ((search 0x11667788).reg 4).toNat / 256 ^ 3 % 256 = ((search 0x11667788).reg 5).toNat / 256 ^ 3 % 256 ∧
    ∀ k, k < 4 →
      ¬ ((search 0x55667788).reg 4).toNat / 256 ^ k % 256 = ((search 0x55667788).reg 5).toNat / 256 ^ k % 256 := by
  decide

theorem witness_flags : (State.reset.setF true).flagF = true ∧ State.reset.flagF = false ∧
    (State.reset.setCy true).flagCy = true ∧ State.reset.flagCy = false ∧
    (State.reset.setOv true).flagOv = true ∧ State.reset.flagOv = false := by decide
theorem witness_register_relations : State.reset.reg 4 = State.reset.reg 5 ∧
    ((regs [(4, 0x80000000)]).reg 4).toInt < ((regs [(4, 0x80000000)]).reg 5).toInt ∧
    ((regs [(4, 0x80000000)]).reg 5).toNat < ((regs [(4, 0x80000000)]).reg 4).toNat ∧
    ((regs [(5, 0x80000000)]).reg 5).toInt < ((regs [(5, 0x80000000)]).reg 4).toInt ∧
    ((regs [(5, 0x80000000)]).reg 4).toNat < ((regs [(5, 0x80000000)]).reg 5).toNat := by decide
theorem witness_ShortImmediateBranches : ((regs [(4, 0x1F)]).reg 4).toInt = ((0x1F : BitVec 5).toNat : Int) ∧
    ((regs [(4, 0x1F)]).reg 4).toInt ≠ ((0 : BitVec 5).toNat : Int) ∧
    ((regs [(4, 0x80000000)]).reg 4).toInt < ((0 : BitVec 5).toNat : Int) := by decide
theorem witness_WideImmediateBranches : ((regs [(4, 0xFFFFFFF0)]).reg 4).toInt = (0x10 : BitVec 5).toInt ∧
    ((regs [(4, 0xFFFFFFF0)]).reg 4).toInt < (0x0F : BitVec 5).toInt ∧
    ((0x0F : BitVec 5).toInt % 4294967296).toNat < ((regs [(4, 0xFFFFFFF0)]).reg 4).toNat ∧
    ((regs [(4, 0xF)]).reg 4).toNat < ((0x10 : BitVec 5).toInt % 4294967296).toNat := by decide

theorem witness_JumpsThroughMemory : Writable (State.reset.setPc 0x100) (0x100 + 0x300) 4 ∧ (3 : RegNum) ≠ 9 := by
  unfold Writable Accessible AlignedOrSplit; decide
theorem witness_PrologueBuildsFrame : (23 : BitVec 18).toNat ≤ 23 ∧
    ∀ i, i < (23 : BitVec 18).toNat → Writable State.reset (State.reset.reg 1 - BitVec.ofNat 32 (4 * (i + 1))) 4 := by
  unfold Writable Accessible AlignedOrSplit; decide
theorem witness_EpilogueRestoresFrame : ∀ i, i < (23 : BitVec 18).toNat →
    Writable State.reset
      (State.reset.reg 1 + BitVec.ofNat 32 (4 * ((23 : BitVec 18).toNat - i - 1 + (255 : BitVec 8).toNat))) 4 := by
  unfold Writable Accessible AlignedOrSplit; decide
theorem witness_EpilogueUndoesPrologue : ∃ t, exec (.bnEntri 23 255) State.reset = .next t := ⟨_, rfl⟩
theorem witness_MultipleLoad : (24 : RegNum).toNat + [2, 3, 4, 8].getD (3 : BitVec 2).toNat 0 ≤ 32 ∧
    (23 : RegNum).toNat < (24 : RegNum).toNat ∧ (0 : RegNum).toNat + [2, 3, 4, 8].getD (0 : BitVec 2).toNat 0 ≤ 32 ∧
    (0 : RegNum).toNat + [2, 3, 4, 8].getD (0 : BitVec 2).toNat 0 ≤ (2 : RegNum).toNat ∧
    ∀ i, i < 8 → Writable State.reset
      (State.reset.reg 23 + BitVec.ofNat 32 (4 * (63 : BitVec 6).toNat + 4 * i)) 4 := by
  unfold Writable Accessible AlignedOrSplit; decide
theorem witness_PointerTransfers :
    Writable ((withWords State.reset [(0x400, 0x1000)]).setPc 0x100) (0x100 + 0x300) 4 ∧
    wordAt ((withWords State.reset [(0x400, 0x1000)]).setPc 0x100) (0x100 + 0x300) = 0x1000 ∧
    Writable ((withWords State.reset [(0x400, 0x1000)]).setPc 0x100) 0x1000 4 := by
  unfold Writable Accessible AlignedOrSplit; decide
theorem witness_Atomics : Writable (withWords (regs [(3, 5), (5, 0x1000)]) [(0x1000, 5)]) 0x1000 4 ∧
    wordAt (withWords (regs [(3, 5), (5, 0x1000)]) [(0x1000, 5)]) 0x1000 =
      (withWords (regs [(3, 5), (5, 0x1000)]) [(0x1000, 5)]).reg 3 ∧
    wordAt (withWords (regs [(3, 5), (5, 0x1000)]) [(0x1000, 5)]) 0x1000 ≠
      (withWords (regs [(3, 5), (5, 0x1000)]) [(0x1000, 5)]).reg 4 := by
  unfold Writable Accessible AlignedOrSplit; decide

theorem witness_stops_misaligned : (0xFFFFFFFF : Word).toNat % 4 ≠ 0 ∧ (0xFFFFFFFF : Word).toNat % 2 ≠ 0 ∧
    (withPolicy .refuse).params.misaligned = .refuse ∧ (withPolicy .fault).params.misaligned = .fault := by decide
theorem witness_stops_unmapped : AlignedOrSplit unmapped 0 1 ∧ AlignedOrSplit unmapped 0xFFFFFFFC 4 ∧
    ∃ k, k < 4 ∧ mapped unmapped.params (addrAt 0xFFFFFFFC k) = false := by
  unfold AlignedOrSplit; exact ⟨by decide, by decide, 3, by decide, by decide⟩
theorem witness_MultiAccess_second : wordAt ((withWords State.reset [(0x400, 0x1002)]).setPc 0x100) 0x400 = 0x1002 ∧
    Writable ((withWords State.reset [(0x400, 0x1002)]).setPc 0x100) 0x400 4 := by
  unfold Writable Accessible AlignedOrSplit; decide
/-- A map of one word, at 0x1000. -/
def oneWord : State := { State.reset with params := { resetParams with memmap := [⟨0x1000, 4⟩] } }
theorem witness_MultiAccess_later : (∀ j, j < 1 → Writable oneWord (0x1000 + BitVec.ofNat 32 (4 * j)) 4) ∧
    AlignedOrSplit oneWord 0x1004 4 ∧ mapped oneWord.params (addrAt 0x1004 0) = false ∧
    (∀ j, j < 1 → Writable oneWord (0x1004 - BitVec.ofNat 32 (4 * (j + 1))) 4) ∧
    mapped oneWord.params (addrAt (0x1004 - BitVec.ofNat 32 (4 * (1 + 1))) 0) = false ∧
    (∀ j, j < 1 → Writable oneWord (0xFFC + BitVec.ofNat 32 (4 * (2 - j - 1 + 0))) 4) ∧
    mapped oneWord.params (addrAt (0xFFC + BitVec.ofNat 32 (4 * (2 - 1 - 1 + 0))) 0) = false := by
  unfold Writable Accessible AlignedOrSplit; decide
theorem test_mlwz_stops_at_its_second_word :
    refuses (exec (.bnMlwz 5 0 4 0) (oneWord.setReg 4 0x1000)) .unmapped = true := by decide
theorem test_entri_stops_at_its_second_word :
    refuses (exec (.bnEntri 2 0) (oneWord.setReg 1 0x1004)) .unmapped = true := by decide
theorem witness_MultiAccess_bounds : (24 : RegNum).toNat + [2, 3, 4, 8].getD (3 : BitVec 2).toNat 0 ≤ 32 ∧
    (32 - 8 : Nat) ≤ (24 : RegNum).toNat ∧ 7 < [2, 3, 4, 8].getD (3 : BitVec 2).toNat 0 ∧
    (23 : BitVec 18).toNat ≤ 23 ∧ 22 < (23 : BitVec 18).toNat ∧
    ∀ j, j < 22 → Writable State.reset (0x1000 - BitVec.ofNat 32 (4 * (j + 1))) 4 := by
  unfold Writable Accessible AlignedOrSplit; decide
/-- Read-only memory from 0x2000 to 0x2FFF, inside the map; x4 at its last word. -/
def withRom : State :=
  { State.reset with params := { resetParams with readOnly := [⟨0x2000, 0x1000⟩] } }.setReg 4 0x2FFC
theorem test_read_only_memory_is_read : next (exec (.bnLwz 3 0 4) withRom) (fun t => t.pc == 3) = true := by decide
theorem test_read_only_memory_is_not_written :
    refuses (exec (.bnSw 0 4 3) withRom) .unmapped = true ∧ refuses (exec (.bnSb 3 4 3) withRom) .unmapped = true ∧
    refuses (exec (.bnAadd 3 3 4) withRom) .unmapped = true ∧
    next (exec (.bnSb 4 4 3) withRom) (fun t => t.stored == [0x3000]) = true := by decide
theorem test_read_only_memory_is_fetched :
    next (step { withRom with pc := 0x2000, asm := [(0x2000, .bwJa 0)] }) (fun t => t.pc == 0) = true := by decide
theorem witness_stops_read_only : AlignedOrSplit withRom 0x2FFC 4 ∧ permits withRom.params .read 0x2FFF = true ∧
    ∃ k, k < 4 ∧ permits withRom.params .write (addrAt 0x2FFC k) = false := by
  unfold AlignedOrSplit; exact ⟨by decide, by decide, 3, by decide, by decide⟩
theorem witness_MultiAccess_read_only :
    Writable withRom 0x3000 4 ∧ permits withRom.params .write (addrAt (0x3004 - BitVec.ofNat 32 (4 * (1 + 1))) 0) = false ∧
    Accessible withRom 0x2FFC 4 := by
  unfold Writable Accessible AlignedOrSplit; decide
theorem witness_StepKeepsPlatform_read_only : isReadOnly withRom.params 0x2000 = true ∧
    isReadOnly withRom.params 0x2FFF = true ∧ isReadOnly withRom.params 0x3000 = false := by decide
theorem witness_BitReversal : ∀ k, k < 32 →
    ((regs [(4, 0x80000001)]).reg 4).getLsbD k = ((regs [(4, 0x80000001)]).reg 4).getLsbD (31 - k) := by decide
/-- The platform's own EPCR rule for its alignment exception. -/
theorem test_alignment_exception_of_the_platform :
    (raiseAlignment .bn { State.reset with params := { resetParams with epcrOnAlign := .platform } }).epcr =
      Config.epcrOnAlign 0 3 := rfl
theorem witness_RegisterListRefusals : 32 < (30 : RegNum).toNat + [2, 3, 4, 8].getD (1 : BitVec 2).toNat 0 ∧
    32 < (25 : RegNum).toNat + [2, 3, 4, 8].getD (3 : BitVec 2).toNat 0 ∧
    (3 : RegNum).toNat ≤ (4 : RegNum).toNat ∧
    (4 : RegNum).toNat < (3 : RegNum).toNat + [2, 3, 4, 8].getD (0 : BitVec 2).toNat 0 ∧
    31 < 9 + (24 : BitVec 18).toNat - 1 := by decide

theorem witness_trap_bits : (State.reset.setSr 1).sr.getLsbD (0 : BitVec 4).toNat = true ∧
    (State.reset.setSr 0x8000).sr.getLsbD (15 : BitVec 4).toNat = true ∧
    (State.reset.setSr 0x10000).sr.getLsbD (15 : BitVec 4).toNat = false := by decide
theorem witness_ReturnFromException : ∃ t, exec (.bSys none) State.reset = .next t := ⟨_, rfl⟩
theorem witness_SpecialRegisterMoves_named : (resetParams.sprAddr.sr = some (State.reset.reg 0 ||| 0x11)) ∧
    resetParams.sprAddr.esr = some (State.reset.reg 0 ||| 0x40) ∧
    resetParams.sprAddr.epcr = some (State.reset.reg 0 ||| 0x20) ∧
    resetParams.sprAddr.machi = some (State.reset.reg 0 ||| 0x2802) ∧
    resetParams.sprAddr.maclo = some ((regs [(4, 0x2801)]).reg 4 ||| 1) ∧
    resetParams.sprAddr.ur = some (State.reset.reg 0 ||| 0x2808) := by decide
theorem witness_SpecialRegisterMoves_platform : StateWf { State.reset with extraSpr := [(0x999, 7)] } ∧
    (State.reset.reg 0 ||| 0x999, (7 : Word)) ∈ { State.reset with extraSpr := [(0x999, 7)] }.extraSpr :=
  ⟨⟨rfl, rfl, ⟨by decide, by decide⟩, by decide⟩, by decide⟩
theorem witness_SpecialRegisterMoves_unmapped :
    State.reset.reg 0 ||| 0x999 ∉ sprNumbers State.reset.params.sprAddr State.reset.extraSpr := by decide
theorem witness_FloatBranches : fpEq .ieee 0x40000000 0x40000000 = true ∧ fpEq .ieee 0x7FC00000 0x7FC00000 = false ∧
    fpLe .ieee 0x3F800000 0x40000000 = true ∧ fpLe .ieee 0x40000000 0x3F800000 = false ∧
    fpLt .ieee 0x3F800000 0x40000000 = true ∧ fpLt .ieee 0x40000000 0x40000000 = false := by decide

theorem witness_Writers_exception : next (exec (.bSys none) (State.reset.setSr 6)) (fun t => t.esr != 0) = true ∧
    next (exec (.bnLwz 3 0 5) ({ withPolicy .fault with pc := 4 }.setReg 5 1))
      (fun t => t.epcr != 0 && t.pc == resetParams.vecAlign) = true := by
  decide
theorem witness_Writers_accumulator : next (exec (.bMac 4 5) (regs [(4, 1), (5, 1)])) (fun t => t.maclo != 0) = true := by
  decide
theorem witness_Writers_user_register : next (exec (.fnDivS 3 4 5) (regs [(4, 0x3F800000)])) (fun t => t.ur != 0) = true := by
  decide
theorem witness_WritersOfStatusBits : ParamsWf resetParams ∧
    next (exec (.bnSfeq 4 4) State.reset) (fun t => t.flagF) = true ∧
    next (exec .btEi State.reset) (fun t => t.flagIee && t.flagTee) = true ∧
    next (exec (.bnAdd 3 4 4) (regs [(4, 0x80000000)])) (fun t => t.flagCy && t.flagOv) = true ∧
    next (exec (.bwMtspr 0 4 0x11) (regs [(4, 0x80000000)])) (fun t => bitAt t.sr 31) = true ∧
    (31 : BitPos) ∉ srPositions resetParams.srBit :=
  ⟨⟨by decide, by decide⟩, by decide, by decide, by decide, by decide, by decide⟩
theorem witness_WritersOfStatusBits_entry :
    next (exec (.bnLwz 3 0 5) (((withPolicy .fault).setReg 5 1).setSr 6)) (fun t => !t.flagIee) = true := by decide

/-- OV = 1 under a value of BNO_CLEARS_OV. -/
def overflowed (b : BnoClearsOv) : State :=
  ({ State.reset with params := { resetParams with bnoClearsOv := b } }.setOv true).setPc 0x100
theorem witness_BranchIfNoOverflow_never : next (exec (.bnBno 3) (overflowed .never)) (fun t => t.flagOv) = true ∧
    next (exec .bCov (overflowed .never)) (fun t => t.pc == 0x103 && t.flagOv) = true := by decide
theorem witness_BranchIfNoOverflow_taken :
    next (exec (.bnBno 3) (overflowed .alwaysWhenTaken)) (fun t => t.pc == 0x103 && t.flagOv) = true ∧
    next (exec (.bnBno 3) ((overflowed .alwaysWhenTaken).setOv false)) (fun t => t.pc == 0x103 && !t.flagOv) = true ∧
    next (exec .bCov (overflowed .alwaysWhenTaken)) (fun t => t.flagOv) = true := by decide

end Sys2Proof.Tests
end

section
/-! PROOFS. Additions and subtractions that read SR.CY, and the plain subtraction (`spec/10_state.md` R29,
`spec/40_arith.md` R153 to R155, R158, R159). Each meaning is brought to `addFlags` or `subFlags`; the lemmas
`addsInto_of_addFlags` and `subtractsInto_of_subFlags` give the result, the flags and the frame. -/

namespace Sys2Proof.Machine

/-! ### What the instructions mean -/

/-- Carry is implemented (R29, the spec's decision D16), so no instruction is refused for the lack of it. -/
@[simp] theorem withCarry_eq (k : Result) : withCarry k = k := if_pos rfl

theorem exec_bnAddc (rD rA rB : RegNum) (s : State) :
    exec (.bnAddc rD rA rB) s = addFlags .bn rD (s.reg rA) (s.reg rB) s.flagCy s := withCarry_eq _

theorem exec_bwAddci (rD rA : RegNum) (p : BitVec 24) (s : State) :
    exec (.bwAddci rD rA p) s = addFlags .bw rD (s.reg rA) (p.signExtend 32) s.flagCy s := withCarry_eq _

/-- The second mnemonic of `bw.addci` means the same (R155, D49). -/
theorem exec_bAddic (rD rA : RegNum) (p : BitVec 24) (s : State) :
    exec (.bAddic rD rA p) s = exec (.bwAddci rD rA p) s := rfl

theorem exec_bnSub (rD rA rB : RegNum) (s : State) :
    exec (.bnSub rD rA rB) s = subFlags .bn rD (s.reg rA) (s.reg rB) false s := rfl

theorem exec_bnSubb (rD rA rB : RegNum) (s : State) :
    exec (.bnSubb rD rA rB) s = subFlags .bn rD (s.reg rA) (s.reg rB) s.flagCy s := withCarry_eq _

/-! ### The statements -/

/-- Settles O14: each of the three is `addFlags` with the CY of the state before it. -/
theorem additionWithCarry : Obligations.AdditionWithCarry := by
  intro s rD rA rB p hw
  refine ⟨?bnAddc, ?bwAddci, ?bAddic⟩
  case bnAddc => exact addsInto_of_addFlags .bn hw rfl (exec_bnAddc rD rA rB s)
  case bwAddci => exact addsInto_of_addFlags .bw hw rfl (exec_bwAddci rD rA p s)
  case bAddic =>
    exact addsInto_of_addFlags .bw hw rfl ((exec_bAddic rD rA p s).trans (exec_bwAddci rD rA p s))

/-- Settles O15: both are `subFlags`, with borrow 0 and with the CY of the state before it. -/
theorem subtractionSetsBorrow : Obligations.SubtractionSetsBorrow := by
  intro s rD rA rB hw
  refine ⟨?bnSub, ?bnSubb⟩
  case bnSub => exact subtractsInto_of_subFlags .bn hw rfl (exec_bnSub rD rA rB s)
  case bnSubb => exact subtractsInto_of_subFlags .bn hw rfl (exec_bnSubb rD rA rB s)

end Sys2Proof.Machine
end

section
/-! PROOFS. Reading back what a store wrote (`spec/20_memory.md` R62, R63). The bytes of a datum in memory are the
digits base 256 of its number, the byte order only says in which order they lie; so the number read back is the
number written modulo 256 ^ n. -/

namespace Sys2Proof.Machine

/-! ### Numbers in memory and their digits base 256 -/

/-- The offsets of a datum run through the weights of its bytes, in one direction or the other. -/
theorem sum_range_byteWeight (e : Endian) (n : Nat) (f : Nat → Nat) :
    ((List.range n).map fun k => f (byteWeight e n k)).sum = ((List.range n).map f).sum := by
  cases e with
  | big => exact Finset.sum_range_reflect f n
  | little => rfl

/-- The `n` low digits of a number base `b` make the number modulo `b ^ n`. -/
theorem sum_range_digits (b x n : Nat) :
    ((List.range n).map fun k => b ^ k * (x / b ^ k % b)).sum = x % b ^ n := by
  induction n with
  | zero => simp [Nat.mod_one]
  | succ n ih => rw [List.sum_range_succ, ih, Nat.mod_pow_succ]

/-- Where the low bytes of a value are stored, they are the number in memory. -/
theorem StoredAt.numberAt_eq {t : State} {a v : Word} {n : Nat} (h : StoredAt t a n v) :
    numberAt t a n = v.toNat % 256 ^ n := by
  calc numberAt t a n
      = ((List.range n).map fun k => 256 ^ byteWeight t.params.endian n k *
          (v.toNat / 256 ^ byteWeight t.params.endian n k % 256)).sum := by
        refine congrArg List.sum (List.map_congr_left fun k hk => ?_)
        rw [h k (List.mem_range.mp hk), BitVec.toNat_ofNat]
    _ = ((List.range n).map fun k => 256 ^ k * (v.toNat / 256 ^ k % 256)).sum :=
        sum_range_byteWeight _ n fun k => 256 ^ k * (v.toNat / 256 ^ k % 256)
    _ = v.toNat % 256 ^ n := sum_range_digits 256 v.toNat n

/-! ### A read after a write -/

/-- What may be written may be read. -/
theorem accessCheck_read_of_write {p : Params} {a : Word} {n : Nat} (h : accessCheck p .write a n = .ok ()) :
    accessCheck p .read a n = .ok () := by
  rw [accessCheck_write_eq, Access.bind_eq_ok] at h
  obtain ⟨_, hread, _⟩ := h
  exact hread

/-- A byte that is none of the stored ones is unchanged. -/
theorem readByte_writeValue_of_notMem {a b : Word} {n : Nat} (s : State) (v : Word) (hb : b ∉ addrsFrom a n) :
    (s.writeValue a n v).readByte b = s.readByte b :=
  State.readByte_writeValue_outside s a n v b fun k hk e =>
    hb (List.mem_map.mpr ⟨k, List.mem_range.mpr hk, e.symm⟩)

/-- Settles O12: the performed write is `writeValue`; what it leaves at its own bytes gives the placement, and, the
number in memory being made of those bytes, the value read back. -/
theorem readAfterWrite : Obligations.ReadAfterWrite := by
  intro s t a v n hn hw
  obtain ⟨hcheck, rfl⟩ := memWrite_eq_ok.mp hw
  have hstored : StoredAt (s.writeValue a n v) a n v :=
    storedAt_writeValue s a v n (by unfold addressSpace; omega)
  refine ⟨?read, hstored, fun b hb => readByte_writeValue_of_notMem s v hb⟩
  case read =>
    have hread : accessCheck (s.writeValue a n v).params .read a n = .ok () := by
      rw [State.writeValue_params]
      exact accessCheck_read_of_write hcheck
    rw [memRead_of_check hread, readValue_eq_numberAt _ _ _ hn, hstored.numberAt_eq]

end Sys2Proof.Machine
end

section
/-! PROOFS. Bit reversal and the short immediate move (`spec/41_logic_move.md` R218, R230). Both meanings are a
`writeBack`, so the frame is that of `setsReg_of_writeBack`; what is left is the value written. -/

namespace Sys2Proof.Machine

/-! ### What the instructions mean -/

theorem exec_bnBitrev (rD rA : RegNum) (s : State) :
    exec (.bnBitrev rD rA) s = writeBack .bn rD (s.reg rA).reverse s := rfl

theorem exec_btMovi (rD : RegNum) (G : BitVec 4) (s : State) :
    exec (.btMovi rD G) s = writeBack .bt rD (immS G) s := rfl

/-! ### The values they write -/

/-- The reversal of the library, in the terms of R218: bit k is bit 31 - k. -/
theorem getLsbD_reverse_word (a : Word) {k : Nat} (hk : k < 32) : a.reverse.getLsbD k = a.getLsbD (31 - k) := by
  rw [BitVec.getLsbD_reverse, BitVec.getMsbD_eq_getLsbD, decide_eq_true hk, Bool.true_and]

/-- A word whose bits read the same both ways is its own reversal. -/
theorem reverse_word_eq_self {a : Word} (h : ∀ k, k < 32 → a.getLsbD k = a.getLsbD (31 - k)) : a.reverse = a :=
  BitVec.eq_of_getLsbD_eq fun k hk => (getLsbD_reverse_word a hk).trans (h k hk).symm

/-- A sign-extended immediate is the word of its signed number. -/
theorem immS_eq_ofInt {w : Nat} (f : BitVec w) : immS f = BitVec.ofInt 32 f.toInt := rfl

/-! ### The statements -/

/-- Settles O25: the value written is the reversed word, which is the word itself where it is a palindrome. -/
theorem bitReversal : Obligations.BitReversal := by
  intro s rD rA
  refine ⟨?bits, fun hpal => ?palindrome⟩
  case bits => exact setsBits_of_writeBack .bn (exec_bnBitrev rD rA s) fun k hk => getLsbD_reverse_word _ hk
  case palindrome =>
    have hexec := exec_bnBitrev rD rA s
    rw [reverse_word_eq_self hpal] at hexec
    exact setsReg_of_writeBack .bn hexec

/-- Settles O28: the value written is the immediate's signed number, and a number of 4 bits has the range of R230. -/
theorem moveImmediate : Obligations.MoveImmediate := by
  intro s rD G
  have hexec := exec_btMovi rD G s
  rw [immS_eq_ofInt] at hexec
  exact ⟨setsReg_of_writeBack .bt hexec, BitVec.le_toInt G, Int.le_of_lt_add_one BitVec.toInt_lt⟩

end Sys2Proof.Machine
end

section
/-! PROOFS. The immediate compares (`spec/42_compare.md` R250 to R270, the even ones). Each meaning is a `setFlag`,
so the frame is that of `setsF_of_setFlag`; what is left is to read the relation of words as one of numbers: the
sign-extended immediate has its own signed number, and that number modulo 2^32 as its unsigned one. -/

namespace Sys2Proof.Machine

/-! ### Relations of words as relations of numbers -/

/-- The relation between two words with the signed numbers `x`, `y` and the unsigned numbers `m`, `n`. -/
def Rel.OnNumbers (r : Rel) (x y : Int) (m n : Nat) : Prop :=
  match r with
  | .eq => x = y
  | .ne => x ≠ y
  | .ges => y ≤ x
  | .geu => n ≤ m
  | .gts => y < x
  | .gtu => n < m
  | .les => x ≤ y
  | .leu => m ≤ n
  | .lts => x < y
  | .ltu => m < n

theorem Rel.holds_iff_onNumbers (r : Rel) (a b : Word) :
    r.holds a b = true ↔ r.OnNumbers a.toInt b.toInt a.toNat b.toNat := by
  cases r with
  | eq => exact decide_eq_true_iff.trans BitVec.toInt_inj.symm
  | ne => exact decide_eq_true_iff.trans (not_congr BitVec.toInt_inj.symm)
  | ges | geu | gts | gtu | les | leu | lts | ltu => exact decide_eq_true_iff

/-! ### The numbers of an immediate -/

/-- Sign extension keeps the signed number. -/
theorem toInt_immS {w : Nat} (hw : w ≤ 32) (f : BitVec w) : (immS f).toInt = f.toInt :=
  BitVec.toInt_signExtend_of_le hw

/-- The unsigned number of a sign-extended immediate is its signed number modulo 2^32 (R250). -/
theorem toNat_immS {w : Nat} (f : BitVec w) : (immS f).toNat = (f.toInt % 4294967296).toNat := by
  rw [immS_eq_ofInt, BitVec.toNat_ofInt]
  rfl

/-- A 32-bit immediate is taken as it is. -/
theorem immZ_word (g : Word) : immZ g = g := BitVec.setWidth_eq g

/-! ### Compares with an immediate -/

/-- The `bn.` form: the relation is read off the signed number of the 8-bit immediate. -/
theorem setsF_of_setFlag_immS {i : Instr} {s : State} (r : Rel) (rA : RegNum) (O : BitVec 8)
    (h : exec i s = setFlag .bn r (s.reg rA) (immS O) s) :
    SetsF i s
      (r.OnNumbers (s.reg rA).toInt O.toInt (s.reg rA).toNat (O.toInt % 4294967296).toNat) 3 := by
  have hr := r.holds_iff_onNumbers (s.reg rA) (immS O)
  rw [toInt_immS (by decide), toNat_immS] at hr
  exact setsF_of_setFlag .bn h hr

/-- The `bw.` form: the relation is that of the register and the 32-bit immediate. -/
theorem setsF_of_setFlag_immZ {i : Instr} {s : State} {rel : Prop} (r : Rel) (rA : RegNum) (g : Word)
    (h : exec i s = setFlag .bw r (s.reg rA) (immZ g) s) (hr : r.holds (s.reg rA) g = true ↔ rel) :
    SetsF i s rel 6 := by
  rw [immZ_word] at h
  exact setsF_of_setFlag .bw h hr

/-! ### The statement -/

/-- Settles O31, relation by relation: the `bn.` form by the numbers of the sign-extended immediate, the `bw.` form
by the relation of the two words. -/
theorem immediateCompares : Obligations.ImmediateCompares := by
  intro s rA O g
  refine ⟨?eq, ?ne, ?ges, ?geu, ?gts, ?gtu, ?les, ?leu, ?lts, ?ltu⟩
  case eq => exact ⟨setsF_of_setFlag_immS .eq rA O rfl, setsF_of_setFlag_immZ .eq rA g rfl decide_eq_true_iff⟩
  case ne => exact ⟨setsF_of_setFlag_immS .ne rA O rfl, setsF_of_setFlag_immZ .ne rA g rfl decide_eq_true_iff⟩
  case ges => exact ⟨setsF_of_setFlag_immS .ges rA O rfl, setsF_of_setFlag_immZ .ges rA g rfl decide_eq_true_iff⟩
  case geu => exact ⟨setsF_of_setFlag_immS .geu rA O rfl, setsF_of_setFlag_immZ .geu rA g rfl decide_eq_true_iff⟩
  case gts => exact ⟨setsF_of_setFlag_immS .gts rA O rfl, setsF_of_setFlag_immZ .gts rA g rfl decide_eq_true_iff⟩
  case gtu => exact ⟨setsF_of_setFlag_immS .gtu rA O rfl, setsF_of_setFlag_immZ .gtu rA g rfl decide_eq_true_iff⟩
  case les => exact ⟨setsF_of_setFlag_immS .les rA O rfl, setsF_of_setFlag_immZ .les rA g rfl decide_eq_true_iff⟩
  case leu => exact ⟨setsF_of_setFlag_immS .leu rA O rfl, setsF_of_setFlag_immZ .leu rA g rfl decide_eq_true_iff⟩
  case lts => exact ⟨setsF_of_setFlag_immS .lts rA O rfl, setsF_of_setFlag_immZ .lts rA g rfl decide_eq_true_iff⟩
  case ltu => exact ⟨setsF_of_setFlag_immS .ltu rA O rfl, setsF_of_setFlag_immZ .ltu rA g rfl decide_eq_true_iff⟩

end Sys2Proof.Machine
end

section
/-! PROOFS. The branches on F, CY and OV and the compare branches with a sign-extended value (`spec/43_branch.md`
R280 to R286, R299 to R308). Each meaning is a `branchIf`, so the two targets and the frame are those of
`branches_of_branchIf`; what is left is to read the offset as a number and the tested Bool as the condition. -/

namespace Sys2Proof.Machine

/-! ### What the instructions mean -/

/-- A 32-bit offset is taken as it is. -/
theorem exec_bwBf (z : BitVec 32) (s : State) : exec (.bwBf z) s = branchIf .bw s.flagF z s :=
  congrArg (branchIf .bw s.flagF · s) (immZ_word z)

theorem exec_bwBnf (z : BitVec 32) (s : State) : exec (.bwBnf z) s = branchIf .bw (!s.flagF) z s :=
  congrArg (branchIf .bw (!s.flagF) · s) (immZ_word z)

/-- R284 with carry implemented (R29, the spec's decision D16). -/
theorem exec_bnBc (S : BitVec 12) (s : State) : exec (.bnBc S) s = branchIf .bn s.flagCy (immS S) s :=
  withCarry_eq _

/-- R285 with carry implemented (R29, the spec's decision D16). -/
theorem exec_bnBnc (S : BitVec 12) (s : State) : exec (.bnBnc S) s = branchIf .bn (!s.flagCy) (immS S) s :=
  withCarry_eq _

/-! ### Branches with a sign-extended offset -/

/-- The branch template with a sign-extended offset, which is the word of the offset's signed number (R280). -/
theorem branches_of_branchIf_immS {i : Instr} {s : State} {cond : Prop} {b : Bool} {w : Nat} {off : BitVec w}
    (c : LenClass) (h : exec i s = branchIf c b (immS off) s) (hb : b = true ↔ cond) :
    Branches i s cond (BitVec.ofInt 32 off.toInt) c.bytes := by
  rw [immS_eq_ofInt] at h
  exact branches_of_branchIf c h hb

/-- A compare with a sign-extended value goes by the value's signed number, and for the unsigned relations by that
number modulo 2^32 (R281). -/
theorem Rel.holds_immS_iff (r : Rel) (a : Word) (I : BitVec 5) :
    r.holds a (immS I) = true ↔ r.OnNumbers a.toInt I.toInt a.toNat (I.toInt % 4294967296).toNat := by
  rw [r.holds_iff_onNumbers, toInt_immS (by decide), toNat_immS]

/-- The `bg.` and the `bw.` form of one compare branch: the same condition, each with its own offset and length. -/
theorem branches_bg_bw_of_compare_immS {near far : Instr} {s : State} (r : Rel) (rB : RegNum) (I : BitVec 5)
    {U : BitVec 12} {u : BitVec 28}
    (hnear : exec near s = branchIf .bg (r.holds (s.reg rB) (immS I)) (immS U) s)
    (hfar : exec far s = branchIf .bw (r.holds (s.reg rB) (immS I)) (immS u) s) :
    let cond := r.OnNumbers (s.reg rB).toInt I.toInt (s.reg rB).toNat (I.toInt % 4294967296).toNat
    Branches near s cond (BitVec.ofInt 32 U.toInt) 4 ∧ Branches far s cond (BitVec.ofInt 32 u.toInt) 6 :=
  have hcond := r.holds_immS_iff (s.reg rB) I
  ⟨branches_of_branchIf_immS .bg hnear hcond, branches_of_branchIf_immS .bw hfar hcond⟩

/-! ### The statements -/

/-- Settles O32, flag by flag: each form tests its flag or the complement of it. -/
theorem flagBranches : Obligations.FlagBranches := by
  intro s S t z
  refine ⟨?bnBf, ?bgBf, ?bwBf, ?bnBnf, ?bgBnf, ?bwBnf, ?bnBc, ?bnBnc, ?bnBo⟩
  case bnBf => exact branches_of_branchIf_immS .bn rfl Iff.rfl
  case bgBf => exact branches_of_branchIf_immS .bg rfl Iff.rfl
  case bwBf => exact branches_of_branchIf .bw (exec_bwBf z s) Iff.rfl
  case bnBnf => exact branches_of_branchIf_immS .bn rfl (Bool.not_eq_true' _).to_iff
  case bgBnf => exact branches_of_branchIf_immS .bg rfl (Bool.not_eq_true' _).to_iff
  case bwBnf => exact branches_of_branchIf .bw (exec_bwBnf z s) (Bool.not_eq_true' _).to_iff
  case bnBc => exact branches_of_branchIf_immS .bn (exec_bnBc S s) Iff.rfl
  case bnBnc => exact branches_of_branchIf_immS .bn (exec_bnBnc S s) (Bool.not_eq_true' _).to_iff
  case bnBo => exact branches_of_branchIf_immS .bn rfl Iff.rfl

/-- Settles O36, relation by relation: both forms compare by the numbers of the sign-extended value. -/
theorem wideImmediateBranches : Obligations.WideImmediateBranches := by
  intro s rB I U u
  refine ⟨?eq, ?ne, ?ges, ?gts, ?les, ?lts, ?geu, ?gtu, ?leu, ?ltu⟩
  case eq => exact branches_bg_bw_of_compare_immS .eq rB I rfl rfl
  case ne => exact branches_bg_bw_of_compare_immS .ne rB I rfl rfl
  case ges => exact branches_bg_bw_of_compare_immS .ges rB I rfl rfl
  case gts => exact branches_bg_bw_of_compare_immS .gts rB I rfl rfl
  case les => exact branches_bg_bw_of_compare_immS .les rB I rfl rfl
  case lts => exact branches_bg_bw_of_compare_immS .lts rB I rfl rfl
  case geu => exact branches_bg_bw_of_compare_immS .geu rB I rfl rfl
  case gtu => exact branches_bg_bw_of_compare_immS .gtu rB I rfl rfl
  case leu => exact branches_bg_bw_of_compare_immS .leu rB I rfl rfl
  case ltu => exact branches_bg_bw_of_compare_immS .ltu rB I rfl rfl

end Sys2Proof.Machine
end

section
/-! PROOFS. The jumps that write pc alone (`spec/44_jump_call.md` R330, R331, R332, R335, R336). Each meaning is a
`jumpTo`, so the frame is that of `goesTo_of_jumpTo`; what is left is to read the target. -/

namespace Sys2Proof.Machine

/-! ### What the instructions mean -/

/-- A 32-bit offset is taken as it is (R331). -/
theorem exec_bwJ (z : BitVec 32) (s : State) : exec (.bwJ z) s = jumpTo (s.pc + z) s :=
  congrArg (fun off => jumpTo (s.pc + off) s) (immZ_word z)

/-- A 32-bit target is taken as it is (R332). -/
theorem exec_bwJa (g : BitVec 32) (s : State) : exec (.bwJa g) s = jumpTo g s :=
  congrArg (jumpTo · s) (immZ_word g)

theorem exec_bnJr (rA : RegNum) (s : State) : exec (.bnJr rA) s = jumpTo (s.reg rA) s := rfl

/-- R336: the register of the return is the link register. -/
theorem exec_bnReturn (s : State) : exec .bnReturn s = jumpTo (s.reg 9) s := rfl

/-! ### Jumps with a sign-extended offset -/

/-- A relative jump with a sign-extended offset goes by the word of the offset's signed number (R330, R331). -/
theorem goesTo_of_jumpTo_immS {i : Instr} {s : State} {w : Nat} {off : BitVec w}
    (h : exec i s = jumpTo (pcRel s (immS off)) s) : GoesTo i s (s.pc + BitVec.ofInt 32 off.toInt) := by
  rw [pcRel, immS_eq_ofInt] at h
  exact goesTo_of_jumpTo h

/-! ### The statement -/

/-- Settles O37, form by form: three sign-extended offsets, a 32-bit offset, a 32-bit target, two registers. -/
theorem jumpsChangePcAlone : Obligations.JumpsChangePcAlone := by
  intro s rA T Z t z g
  refine ⟨?btJ, ?bnJ, ?bgJ, ?bwJ, ?bwJa, ?bnJr, ?bnReturn⟩
  case btJ => exact goesTo_of_jumpTo_immS rfl
  case bnJ => exact goesTo_of_jumpTo_immS rfl
  case bgJ => exact goesTo_of_jumpTo_immS rfl
  case bwJ => exact goesTo_of_jumpTo (exec_bwJ z s)
  case bwJa => exact goesTo_of_jumpTo (exec_bwJa g s)
  case bnJr => exact goesTo_of_jumpTo (exec_bnJr rA s)
  case bnReturn => exact goesTo_of_jumpTo (exec_bnReturn s)

end Sys2Proof.Machine
end

section
/-! PROOFS. What no step changes (`spec/00_scope.md` R3, `spec/20_memory.md` R76, `spec/60_exceptions.md` R455, R458,
R460): every instruction and the entry of an interrupt keep the platform (`KeepsPlatform`), and the tick after them
changes the pending bits of the requests and the draws alone. -/

namespace Sys2Proof.Machine

/-! ### States that differ in registers alone -/

/-- A state that differs in registers and the draws alone, the platform's registers being at their numbers. -/
theorem KeepsPlatform.of_registers {s t : State}
    (h : t = { s with
      gpr := t.gpr, pc := t.pc, sr := t.sr, esr := t.esr, epcr := t.epcr, machi := t.machi, maclo := t.maclo
      ur := t.ur, extraSpr := t.extraSpr, draws := t.draws })
    (hk : t.extraSpr.map Prod.fst = s.extraSpr.map Prod.fst) : KeepsPlatform s t := by
  rw [h] at hk ⊢
  exact ⟨rfl, rfl, rfl, fun _ => id, hk, fun a b => ⟨a, b⟩, fun _ _ => rfl⟩

theorem keepsPlatform_of_next_eq {s t u : State} (h : Host.Outcome.next u = (.next t : Result))
    (hu : KeepsPlatform s u) : KeepsPlatform s t :=
  Host.Outcome.next.inj h ▸ hu

theorem keepsPlatform_enterException (vec epc : Word) (s : State) : KeepsPlatform s (enterException vec epc s) :=
  .of_registers rfl rfl

/-! ### The operations that write special registers -/

/-- The flags of a multiply-accumulate are bits of UR (R170). -/
theorem State.setMacFlags_frame (s : State) (x : Int) (carry : Bool) :
    s.setMacFlags x carry = { s with ur := (s.setMacFlags x carry).ur } := by
  unfold State.setMacFlags; split <;> split <;> rfl

theorem keepsPlatform_setMac_setMacFlags (s : State) (v : BitVec 64) (x : Int) (carry : Bool) (c : LenClass) :
    KeepsPlatform s (((s.setMac v).setMacFlags x carry).advance c) := by
  rw [State.setMacFlags_frame]
  exact .of_registers rfl rfl

theorem keepsPlatform_macWrap {c : LenClass} {a b : Word} {s t : State} (h : macWrap c a b s = .next t) :
    KeepsPlatform s t :=
  keepsPlatform_of_next_eq h (keepsPlatform_setMac_setMacFlags ..)

theorem keepsPlatform_macClamp {c : LenClass} {a b : Word} {s t : State} (h : macClamp c a b s = .next t) :
    KeepsPlatform s t :=
  keepsPlatform_of_next_eq h (keepsPlatform_setMac_setMacFlags ..)

theorem keepsPlatform_floatResult {r : RegNum} {x : Word × FpFlags} {s t : State}
    (h : floatResult r x s = .next t) : KeepsPlatform s t := by
  refine keepsPlatform_of_next_eq h ?_
  rw [State.setReg_frame]
  exact .of_registers rfl rfl

theorem keepsPlatform_floatQuotient {r : RegNum} {x : Word × FpFlags × Bool} {s t : State}
    (h : floatQuotient r x s = .next t) : KeepsPlatform s t := by
  refine keepsPlatform_of_next_eq h ?_
  rw [State.setReg_frame]
  exact .of_registers rfl rfl

/-- R401: a trap enters its exception or only advances. -/
theorem keepsPlatform_trapIf {G : BitVec 4} {s t : State} (h : trapIf G s = .next t) : KeepsPlatform s t := by
  refine keepsPlatform_of_next_eq h ?_
  split
  · exact keepsPlatform_enterException ..
  · exact .of_registers rfl rfl

/-- R406: a mapped special-purpose register is written; the numbers of the platform's own survive. -/
theorem keepsPlatform_moveToSpr {n v : Word} {s t : State} (h : moveToSpr n v s = .next t) : KeepsPlatform s t := by
  unfold moveToSpr at h
  split at h
  · next r _ =>
    exact keepsPlatform_of_next_eq h
      (.of_registers (by rw [writeSpr_frame]; rfl) (writeSpr_extraSpr_keys s r v))
  · cases h

/-! ### Every instruction -/

/-- Every instruction that answers a next state keeps the platform, by the shared operation it is. -/
theorem exec_keepsPlatform {i : Instr} {s t : State} (h : exec i s = .next t) : KeepsPlatform s t := by
  cases i with
  | bnOr | bnXor | bnNand | bnSll | bnSrl | bnSra | bnRor | bnCmov | bnFlb | bnMulh | bnSlli | bnSrli |
    bnSrai | bnRori | bnExtbz | bnExtbs | bnExthz | bnExths | bnFf1 | bnClz | bnSwab | btMov | btMovi |
    bnAnd | bnAndi | bnBitrev | bnOri | bwAndi | bwOri | bwXori | bNot | fAbsS =>
    exact (keepsSpecial_writeBack h).toKeepsPlatform
  | bnSfeq | bnSfeqi | bnSfgesi | bnSfgeui | bnSfgts | bnSfgtsi | bnSfgtu | bnSfgtui | bnSflesi | bnSfleui |
    bnSfltsi | bnSfltui | bnSfne | bnSfnei | bwSfeqi | bwSfgesi | bwSfgeui | bwSfgtsi | bwSfgtui | bwSflesi |
    bwSfleui | bwSfltsi | bwSfltui | bwSfnei | bSfges | bSfgeu | bSfles | bSfleu | bSflts | bSfltu =>
    exact (keepsSpecial_setFlag h).toKeepsPlatform
  | bnBeqi | bnBf | bnBgesi | bnBgtsi | bnBlesi | bnBltsi | bnBnei | bnBnf | bnBo | bgBeq | bgBeqi | bgBf |
    bgBges | bgBgesi | bgBgeu | bgBgeui | bgBgts | bgBgtsi | bgBgtu | bgBgtui | bgBlesi | bgBleui | bgBltsi |
    bgBltui | bgBne | bgBnei | bgBnf | fgBeqS | fgBgeS | fgBgtS | fgBneS | bwBeq | bwBeqi | bwBf | bwBges |
    bwBgesi | bwBgeu | bwBgeui | bwBgts | bwBgtsi | bwBgtu | bwBgtui | bwBlesi | bwBleui | bwBltsi |
    bwBltui | bwBne | bwBnei | bwBnf | fwBeqS | fwBgeS | fwBgtS | fwBneS | bBles | bBleu | bBlts | bBltu |
    fBleS | fBltS =>
    exact (keepsSpecial_branchIf h).toKeepsPlatform
  | bnBno | bCov => exact (keepsSpecial_branchNoOverflow h).toKeepsPlatform
  | btJ | bnJ | bnJr | bnReturn | bgJ | bwJ | bwJa => exact (keepsSpecial_jumpTo h).toKeepsPlatform
  | bnJal | bgJal | bwJal | bJalr => exact (keepsSpecial_jumpLink h).toKeepsPlatform
  | btAddi | btAdd | bnAdd | bnAddi | bgAddi | bwAddi | bMovhi =>
    exact (keepsSpecial_addFlags h).toKeepsPlatform
  | bnSub => exact (keepsSpecial_subFlags h).toKeepsPlatform
  | bnAdds => exact (keepsSpecial_addSat h).toKeepsPlatform
  | bSubs => exact (keepsSpecial_subSat h).toKeepsPlatform
  | bnMul | bwMuli => exact (keepsSpecial_mulFlags h).toKeepsPlatform
  | bnDiv | bwDivi => exact (keepsSpecial_divSigned h).toKeepsPlatform
  | bnDivu | bwDivui => exact (keepsSpecial_divUnsigned h).toKeepsPlatform
  | bnMod => exact (keepsSpecial_modSigned h).toKeepsPlatform
  | bnModu => exact (keepsSpecial_modUnsigned h).toKeepsPlatform
  | bwMfspr => exact (keepsSpecial_moveFromSpr h).toKeepsPlatform
  | bnAddc | bwAddci | bAddic =>
    exact (keepsSpecial_withCarry keepsSpecial_addFlags h).toKeepsPlatform
  | bnSubb => exact (keepsSpecial_withCarry keepsSpecial_subFlags h).toKeepsPlatform
  | bnBc | bnBnc => exact (keepsSpecial_withCarry keepsSpecial_branchIf h).toKeepsPlatform
  | bnLbz | bnLhz | bnLws | bnLwz | bgLbz | bgLhz | bgLws | bgLwz | bwLbz | bwLhz | bwLws | bwLwz =>
    exact (keepsOrEnters_loadInto h).keepsPlatform
  | bnSb | bnSh | bnSw | bgSb | bgSh | bgSw | bwSb | bwSh | bwSw =>
    exact (keepsOrEnters_storeFrom h).keepsPlatform
  | bnMlwz => exact (keepsOrEnters_loadMultiple h).keepsPlatform
  | bnMsw => exact (keepsOrEnters_storeMultiple h).keepsPlatform
  | bwLma => exact (keepsOrEnters_loadThrough h).keepsPlatform
  | bwSma => exact (keepsOrEnters_storeThrough h).keepsPlatform
  | bnAadd => exact (keepsOrEnters_atomicAdd h).keepsPlatform
  | bnCmpxchg => exact (keepsOrEnters_compareExchange h).keepsPlatform
  | bnEntri => exact (keepsOrEnters_prologue h).keepsPlatform
  | bnRtnei => exact (keepsOrEnters_epilogue h).keepsPlatform
  | bnReti => exact (keepsOrEnters_epilogueReturn h).keepsPlatform
  | bwJma => exact (keepsOrEnters_jumpMemory h).keepsPlatform
  | bwJmal => exact (keepsOrEnters_jumpMemoryLink h).keepsPlatform
  | bMac => exact keepsPlatform_macWrap h
  | bMacs => exact keepsPlatform_macClamp h
  | fnAddS | fnSubS | fnMulS | fnFtoiS | fnItofS => exact keepsPlatform_floatResult h
  | fnDivS => exact keepsPlatform_floatQuotient h
  | btTrap => exact keepsPlatform_trapIf h
  | bwMtspr => exact keepsPlatform_moveToSpr h
  | bSys => exact keepsPlatform_of_next_eq h (keepsPlatform_enterException ..)
  | btRfe | btEi | btDi | btNop => exact keepsPlatform_of_next_eq h (.of_registers rfl rfl)
  | bnLd | bnSd | bgLd | bgSd | bwLd | bwSd => cases h

/-! ### The tick -/

@[simp] theorem platformTick_params (s : State) : (platformTick s).params = s.params := by rw [platformTick_frame]
@[simp] theorem platformTick_asm (s : State) : (platformTick s).asm = s.asm := by rw [platformTick_frame]
@[simp] theorem platformTick_stored (s : State) : (platformTick s).stored = s.stored := by rw [platformTick_frame]
@[simp] theorem platformTick_readByte (s : State) (a : Word) : (platformTick s).readByte a = s.readByte a := by
  rw [platformTick_frame]; rfl

/-! ### The statement -/

/-- A step is the entry of an interrupt or one instruction, which keep the platform, and then the tick. -/
theorem step_keepsPlatform_then_tick {s t : State} (h : step s = .next t) :
    ∃ u, KeepsPlatform s u ∧ t = platformTick u := by
  obtain ⟨u, ht, ⟨c, _, rfl⟩ | ⟨i, _, _, hi⟩⟩ := step_eq_next h
  · exact ⟨_, keepsPlatform_enterException .., ht⟩
  · exact ⟨u, exec_keepsPlatform hi, ht⟩

/-- Settles O10: the state before the tick keeps the platform, and the tick keeps gates and vectors; with no class
before the step there is no gate after it, hence no class. -/
theorem stepKeepsPlatform : Obligations.StepKeepsPlatform := by
  intro s t h
  obtain ⟨u, hu, rfl⟩ := step_keepsPlatform_then_tick h
  have hgates : (platformTick u).irq.map (fun c => (c.gate, c.vec)) = s.irq.map fun c => (c.gate, c.vec) :=
    (platformTick_gates u).trans (by rw [hu.irq])
  refine ⟨?params, ?asm, hgates, ?stored, ?noClass, ?readOnly⟩
  case params => rw [platformTick_params, hu.params]
  case asm => rw [platformTick_asm, hu.asm]
  case stored => simpa using hu.stored
  case noClass =>
    intro hs
    rw [hs] at hgates
    exact List.map_eq_nil_iff.mp hgates
  case readOnly => simpa using hu.readOnly

end Sys2Proof.Machine
end

section
/-! PROOFS. The invariant of the machine (`spec/10_state.md` R26, R33, R40; `spec/20_memory.md` R60, R76): it speaks of
memory, marks, parameters and the numbers of the platform's registers alone, which `KeepsPlatform` covers, so that
every step keeps it; and it holds after reset (`spec/70_reset_and_hazards.md` R481). -/

namespace Sys2Proof.Machine

/-! ### The invariant and what an instruction keeps -/

/-- The numbers of the special-purpose registers depend on those of the platform's own, not on their values. -/
theorem sprNumbers_congr (a : SprAddr) {l m : List (Word × Word)} (h : l.map Prod.fst = m.map Prod.fst) :
    sprNumbers a l = sprNumbers a m := by
  unfold sprNumbers; rw [h]

theorem KeepsPlatform.stateWf {s t : State} (h : KeepsPlatform s t) (hs : StateWf s) : StateWf t := by
  obtain ⟨hmem, hstored⟩ := h.canonical hs.mem hs.stored
  refine ⟨hmem, hstored, ?params, ?spr⟩
  case params => rw [h.params]; exact hs.params
  case spr => rw [h.params, sprNumbers_congr _ h.sprKeys]; exact hs.spr

/-- The tick changes nothing that the invariant speaks of. -/
theorem StateWf.platformTick {s : State} (h : StateWf s) : StateWf (platformTick s) := by
  rw [platformTick_frame]
  exact ⟨h.mem, h.stored, h.params, h.spr⟩

/-! ### The statements -/

/-- Settles O7: the interrupt or the instruction keeps the platform, hence the invariant, and so does the tick. -/
theorem stepKeepsInvariant : Obligations.StepKeepsInvariant := by
  intro s t hs h
  obtain ⟨u, hu, rfl⟩ := step_keepsPlatform_then_tick h
  exact (hu.stateWf hs).platformTick

/-- Settles O8, field by field: nothing listed, nothing marked, the positions and numbers of the parameters at reset. -/
theorem invariantAtReset : Obligations.InvariantAtReset where
  mem := Memory.wf_reset
  stored := rfl
  params := ⟨by decide, by decide⟩
  spr := by decide

/-- Settles O9: every value is read off the state at reset, where no interrupt class exists. -/
theorem resetLeavesInterruptsDisabled : Obligations.ResetLeavesInterruptsDisabled :=
  ⟨rfl, rfl, rfl, rfl, rfl, rfl, rfl⟩

end Sys2Proof.Machine
end

section
/-! PROOFS. Decoding and encoding (`spec/30_encoding.md` R90 to R98, R112 to R131). Format by format: the decoder
undoes the encoder on the words of the format, and a word that decodes is the word of its form but for the bits that
the figures of BN-SH and BN-R2 leave open (R124). -/

namespace Sys2Proof

open Machine

/-! ### Decoding what was encoded: the 16-bit words -/

/-- Format BT-I with its selector 1: `bt.addi`, or `bt.nop` where the destination is r0 (R112, R126). -/
theorem decodeBt_wordBtI_one (D : RegNum) (G : BitVec 4) :
    decodeBt (0b000000#6 ++ D ++ 1#1 ++ G) = if D = 0 then .ok (.btNop G) else .ok (.btAddi D G) := by
  obtain ⟨e1, e2, e3, e4, -⟩ := fields_BtI 0b000000#6 D 1#1 G
  unfold decodeBt
  rw [e1, e2, e3, e4]
  rfl

/-- Format BT-I with its selector 0: `bt.trap` (R112). -/
theorem decodeBt_wordBtI_zero (D : RegNum) (G : BitVec 4) :
    decodeBt (0b000000#6 ++ D ++ 0#1 ++ G) = if D = 0 then .ok (.btTrap G) else .error .unknownEncoding := by
  obtain ⟨e1, e2, e3, e4, -⟩ := fields_BtI 0b000000#6 D 0#1 G
  unfold decodeBt
  rw [e1, e2, e3, e4]
  rfl

/-- Format BT-R with a destination: `bt.mov` (R113). -/
theorem decodeBt_wordBtR {D : RegNum} (hD : ¬ D = 0) (A : RegNum) :
    decodeBt (0b000001#6 ++ D ++ A) = .ok (.btMov D A) := by
  obtain ⟨e1, e2, e3, -⟩ := fields_BtR 0b000001#6 D A
  unfold decodeBt
  rw [e1, e2, e3]
  exact if_neg hD

/-- The bytes of a word of format BT-I decode as the word does. -/
theorem decode_wordBtI {D : RegNum} {b : BitVec 1} {G : BitVec 4} {i : Instr}
    (h : decodeBt (0b000000#6 ++ D ++ b ++ G) = .ok i) (rest : List Byte) :
    decode ((InsnWord.w16 (0b000000#6 ++ D ++ b ++ G)).bytes ++ rest) = .ok (i, rest) := by
  obtain ⟨-, -, -, -, hop⟩ := fields_BtI 0b000000#6 D b G
  rw [decode_bytes16 _ _ (by rw [lengthClass_of_opcode hop]; decide), h]
  rfl

/-- The bytes of a word of format BT-R decode as the word does. -/
theorem decode_wordBtR {D A : RegNum} {i : Instr} (h : decodeBt (0b000001#6 ++ D ++ A) = .ok i)
    (rest : List Byte) : decode ((InsnWord.w16 (0b000001#6 ++ D ++ A)).bytes ++ rest) = .ok (i, rest) := by
  obtain ⟨-, -, -, hop⟩ := fields_BtR 0b000001#6 D A
  rw [decode_bytes16 _ _ (by rw [lengthClass_of_opcode hop]; decide), h]
  rfl

/-- A destination that a well-formed `bt.addi` or `bt.mov` has is not r0. -/
theorem ne_zero_of_bne {D : RegNum} (h : (D != 0) = true) : ¬ D = 0 := by simpa using h

/-! ### The round trip -/

/-- Settles O2, format by format; a form without an encoding has nothing to show. -/
theorem decodeEncodeRoundTrip : Obligations.DecodeEncodeRoundTrip := by
  intro i w rest hwf hw
  cases i with
  | bnOr D A B | bnXor D A B | bnNand D A B | bnSub D A B | bnSll D A B | bnSrl D A B | bnSra D A B
  | bnRor D A B | bnCmov D A B | bnMul D A B | bnDiv D A B | bnDivu D A B | bnAddc D A B | bnSubb D A B
  | bnFlb D A B | bnMulh D A B | bnMod D A B | bnCmpxchg D A B | fnAddS D A B | fnSubS D A B | fnMulS D A B
  | fnDivS D A B | bnAdds D A B =>
    cases hw
    exact decode_wordR3 rfl (by decide) (by decide) (by decide) (by decide) D A B rest
  | bNot D A =>
    cases hw
    exact decode_wordR3 rfl (by decide) (by decide) (by decide) (by decide) D A A rest
  | bnSlli D A H | bnSrli D A H | bnSrai D A H | bnRori D A H =>
    cases hw
    exact decode_wordSh _ D A H rest
  | bnExtbz D A | bnExtbs D A | bnExthz D A | bnExths D A | bnFf1 D A | bnClz D A | bnSwab D A | fnFtoiS D A
  | fnItofS D A =>
    cases hw
    exact decode_wordR2 rfl (by decide) A D rest
  | btAddi D G =>
    cases hw
    exact decode_wordBtI ((decodeBt_wordBtI_one D G).trans (if_neg (ne_zero_of_bne hwf))) rest
  | btNop G =>
    cases hw
    exact decode_wordBtI (decodeBt_wordBtI_one 0 G) rest
  | btTrap G =>
    cases hw
    exact decode_wordBtI (decodeBt_wordBtI_zero 0 G) rest
  | btMov D A =>
    cases hw
    exact decode_wordBtR (decodeBt_wordBtR (ne_zero_of_bne hwf) A) rest
  | btRfe | btEi | btDi =>
    cases hw
    exact decode_wordBtR rfl rest
  | _ => cases hw

/-! ### Encoding what was decoded: the 16-bit words -/

/-- A word of 16 bits is made of its fields in format BT-I. -/
theorem eq_wordBtI (w : BitVec 16) :
    w = w.extractLsb' 10 6 ++ w.extractLsb' 5 5 ++ w.extractLsb' 4 1 ++ w.extractLsb' 0 4 := by
  apply BitVec.eq_of_toNat_eq
  have := w.isLt
  simp only [append_toNat, extract_toNat]
  omega

/-- A word of 16 bits is made of its fields in format BT-R. -/
theorem eq_wordBtR (w : BitVec 16) : w = w.extractLsb' 10 6 ++ w.extractLsb' 5 5 ++ w.extractLsb' 0 5 := by
  apply BitVec.eq_of_toNat_eq
  have := w.isLt
  simp only [append_toNat, extract_toNat]
  omega

/-- What a form decoded from `n` bytes has: it is well-formed, and `n` bytes long. -/
def FormOfLength (i : Instr) (n : Nat) : Prop := i.wellFormed = true ∧ ∀ p, instrLen p i = n

/-- Every 16-bit word that decodes is the word of its form: formats BT-I and BT-R leave no bit open. -/
theorem encode_of_decodeBt {w : BitVec 16} {i : Instr} (h : decodeBt w = .ok i) :
    FormOfLength i 2 ∧ encode i = some (.w16 w) := by
  have hI := eq_wordBtI w
  have hR := eq_wordBtR w
  unfold decodeBt at h
  generalize w.extractLsb' 5 5 = D at *
  generalize w.extractLsb' 0 5 = A at *
  generalize w.extractLsb' 0 4 = G at *
  dsimp only at h
  split at h
  case h_1 hop hsel =>
    rw [hop, hsel] at hI
    split at h
    case isTrue hD => cases h; exact ⟨⟨rfl, fun _ => rfl⟩, by rw [hI, hD]; rfl⟩
    case isFalse hD => cases h; exact ⟨⟨by simpa [Instr.wellFormed] using hD, fun _ => rfl⟩, by rw [hI]; rfl⟩
  case h_2 hop hsel =>
    rw [hop, hsel] at hI
    split at h
    case isTrue hD => cases h; exact ⟨⟨rfl, fun _ => rfl⟩, by rw [hI, hD]; rfl⟩
    case isFalse hD => cases h
  case h_3 hop =>
    rw [hop] at hR
    split at h
    case isTrue hD =>
      split at h
      case h_1 => cases h; exact ⟨⟨rfl, fun _ => rfl⟩, by rw [hR, hD]; rfl⟩
      case h_2 => cases h; exact ⟨⟨rfl, fun _ => rfl⟩, by rw [hR, hD]; rfl⟩
      case h_3 => cases h; exact ⟨⟨rfl, fun _ => rfl⟩, by rw [hR, hD]; rfl⟩
      case h_4 => cases h
    case isFalse hD => cases h; exact ⟨⟨by simpa [Instr.wellFormed] using hD, fun _ => rfl⟩, by rw [hR]; rfl⟩
  case h_4 => cases h

/-! ### Encoding what was decoded: the 24-bit words -/

/-- A word of 24 bits is made of its fields in format BN-R3. -/
theorem eq_wordR3 (w : BitVec 24) :
    w = w.extractLsb' 18 6 ++ w.extractLsb' 13 5 ++ w.extractLsb' 8 5 ++ w.extractLsb' 3 5 ++
      w.extractLsb' 0 3 := by
  apply BitVec.eq_of_toNat_eq
  have := w.isLt
  simp only [append_toNat, extract_toNat]
  omega

/-- The fields of format BN-SH make the word with its open bit 2 cleared (R97, R124). -/
theorem clear_open_Sh (w : BitVec 24) :
    w.extractLsb' 18 6 ++ w.extractLsb' 13 5 ++ w.extractLsb' 8 5 ++ w.extractLsb' 3 5 ++ 0#1 ++
      w.extractLsb' 0 2 = w &&& ~~~ 4#24 := by
  apply BitVec.eq_of_getLsbD_eq
  intro k hk
  simp only [BitVec.getLsbD_append, BitVec.getLsbD_extractLsb', BitVec.getLsbD_and]
  interval_cases k <;> simp

/-- The fields of format BN-R2, its bit 13 being 0, make the word with its open bits 15:14 cleared (R98, R124). -/
theorem clear_open_R2 {w : BitVec 24} (h : w.extractLsb' 13 1 = 0#1) :
    w.extractLsb' 16 8 ++ 0#3 ++ w.extractLsb' 8 5 ++ w.extractLsb' 3 5 ++ w.extractLsb' 0 3 =
      w &&& ~~~ 0xC000#24 := by
  have h13 : w[13] = false := by simpa using congrArg (·.getLsbD 0) h
  apply BitVec.eq_of_getLsbD_eq
  intro k hk
  simp only [BitVec.getLsbD_append, BitVec.getLsbD_extractLsb', BitVec.getLsbD_and]
  interval_cases k <;> simp [h13]

theorem encode_of_tableR3 {op : BitVec 6} {sub : BitVec 3} {form : RegNum → RegNum → RegNum → Instr}
    (h : tableR3 op sub = some form) (D A B : RegNum) :
    FormOfLength (form D A B) 3 ∧ encode (form D A B) = some (.w24 (op ++ D ++ A ++ B ++ sub)) := by
  unfold tableR3 at h
  split at h <;> cases h <;> exact ⟨⟨rfl, fun _ => rfl⟩, rfl⟩

theorem encode_of_tableSh (sub : BitVec 2) (D A : RegNum) (H : BitVec 5) :
    FormOfLength (tableSh sub D A H) 3 ∧
      encode (tableSh sub D A H) = some (.w24 (0b011011#6 ++ D ++ A ++ H ++ 0#1 ++ sub)) := by
  rcases (by decide : ∀ b : BitVec 2, b = 0#2 ∨ b = 1#2 ∨ b = 2#2 ∨ b = 3#2) sub with rfl | rfl | rfl | rfl <;>
    exact ⟨⟨rfl, fun _ => rfl⟩, rfl⟩

theorem encode_of_tableR2 {op : BitVec 8} {sub : BitVec 3} {form : RegNum → RegNum → Instr}
    (h : tableR2 op sub = some form) (D A : RegNum) :
    (op = 0b00111110#8 ∨ op = 0b01111110#8) ∧ FormOfLength (form D A) 3 ∧
      encode (form D A) = some (.w24 (op ++ 0#3 ++ A ++ D ++ sub)) := by
  unfold tableR2 at h
  split at h <;> cases h <;> exact ⟨by decide, ⟨rfl, fun _ => rfl⟩, rfl⟩

/-- The word `v` is the word `w` of a 24-bit instruction with the bits that its figure leaves open cleared (R124). -/
def ClearsOpenBits (v w : BitVec 24) : Prop :=
  v = w ∨ (v.extractLsb' 18 6 = 0b011011#6 ∧ v = w &&& ~~~ 4#24) ∨
    ((v.extractLsb' 16 8 = 0b00111110#8 ∨ v.extractLsb' 16 8 = 0b01111110#8) ∧ v = w &&& ~~~ 0xC000#24)

/-- A word of format BN-R2 that its table knows is the word of its form but for bits 15:14. -/
theorem encode_of_formatR2 {w : BitVec 24} {form : RegNum → RegNum → Instr} (h13 : w.extractLsb' 13 1 = 0#1)
    (h : tableR2 (w.extractLsb' 16 8) (w.extractLsb' 0 3) = some form) :
    FormOfLength (form (w.extractLsb' 3 5) (w.extractLsb' 8 5)) 3 ∧
      ∃ v, encode (form (w.extractLsb' 3 5) (w.extractLsb' 8 5)) = some (.w24 v) ∧ ClearsOpenBits v w := by
  obtain ⟨hop, hlen, he⟩ := encode_of_tableR2 h (w.extractLsb' 3 5) (w.extractLsb' 8 5)
  obtain ⟨-, -, e16, -⟩ :=
    fields_R2 (w.extractLsb' 16 8) (w.extractLsb' 8 5) (w.extractLsb' 3 5) (w.extractLsb' 0 3)
  rw [← e16] at hop
  exact ⟨hlen, _, he, .inr (.inr ⟨hop, clear_open_R2 h13⟩)⟩

/-- A word of format BN-SH is the word of its form but for bit 2. -/
theorem encode_of_formatSh {w : BitVec 24} (hop : w.extractLsb' 18 6 = 0b011011#6) :
    let i := tableSh (w.extractLsb' 0 2) (w.extractLsb' 13 5) (w.extractLsb' 8 5) (w.extractLsb' 3 5)
    FormOfLength i 3 ∧ ∃ v, encode i = some (.w24 v) ∧ ClearsOpenBits v w := by
  obtain ⟨hlen, he⟩ :=
    encode_of_tableSh (w.extractLsb' 0 2) (w.extractLsb' 13 5) (w.extractLsb' 8 5) (w.extractLsb' 3 5)
  obtain ⟨e18, -⟩ := fields_Sh (w.extractLsb' 18 6) (w.extractLsb' 13 5) (w.extractLsb' 8 5)
    (w.extractLsb' 3 5) (w.extractLsb' 0 2)
  rw [← hop] at he
  exact ⟨hlen, _, he, .inr (.inl ⟨e18.trans hop, clear_open_Sh w⟩)⟩

/-- A 24-bit word that decodes is the word of its form but for the open bits. -/
theorem encode_of_decodeBn {w : BitVec 24} {i : Instr} (h : decodeBn w = .ok i) :
    FormOfLength i 3 ∧ ∃ v, encode i = some (.w24 v) ∧ ClearsOpenBits v w := by
  unfold decodeBn at h
  split at h
  case h_1 hop => cases h; exact encode_of_formatSh hop
  case h_2 | h_3 =>
    split at h
    case h_1 h13 hform => cases h; exact encode_of_formatR2 h13 hform
    case h_2 => cases h
  case h_4 =>
    split at h
    case h_1 form hform =>
      cases h
      obtain ⟨hlen, he⟩ := encode_of_tableR3 hform (w.extractLsb' 13 5) (w.extractLsb' 8 5) (w.extractLsb' 3 5)
      exact ⟨hlen, _, he, .inl (eq_wordR3 w).symm⟩
    case h_2 => cases h

/-! ### The statements -/

theorem eq_of_map_pair {x : Except DecodeError Instr} {i : Instr} {after rest : List Byte}
    (h : (x.map fun j => (j, after)) = .ok (i, rest)) : x = .ok i ∧ after = rest := by
  cases x with
  | error e => cases h
  | ok j => cases h; exact ⟨rfl, rfl⟩

/-- Settles O3: the bytes are those of a 16-bit or a 24-bit word that decodes. -/
theorem decodedFormsHaveEncodings : Obligations.DecodedFormsHaveEncodings := by
  intro p bytes rest i h
  unfold decode at h
  split at h
  case h_1 => cases h
  case h_2 =>
    split at h
    case h_1 =>
      obtain ⟨hi, rfl⟩ := eq_of_map_pair h
      obtain ⟨⟨hwf, hlen⟩, he⟩ := encode_of_decodeBt hi
      exact ⟨hwf, by rw [hlen, List.length_cons, List.length_cons]; omega, _, he, rfl⟩
    case h_2 =>
      obtain ⟨hi, rfl⟩ := eq_of_map_pair h
      obtain ⟨⟨hwf, hlen⟩, v, he, hv⟩ := encode_of_decodeBn hi
      exact ⟨hwf, by rw [hlen, List.length_cons, List.length_cons, List.length_cons]; omega, _, he, hv⟩
    case h_3 => cases h
    case h_4 => cases h

/-- Settles O1: each word is evaluated. -/
theorem decodeOfFigureWords : Obligations.DecodeOfFigureWords :=
  ⟨rfl, rfl, rfl, rfl, rfl, rfl, rfl, rfl, rfl, rfl, rfl, rfl, rfl, rfl, rfl⟩

end Sys2Proof
end

section
/-! PROOFS. What a step fetches (`spec/00_scope.md` R8; `spec/20_memory.md` R70 to R76; `spec/30_encoding.md` R91,
R125) and when it takes an interrupt instead (`spec/60_exceptions.md` R460). One lemma per outcome of the fetch;
`step_of_fetch` and `step_of_fetch_error` turn each into the outcome of a quiet step. -/

namespace Sys2Proof.Machine

/-! ### The outcomes of the fetch -/

theorem fetch_of_placed {s : State} {i : Instr} (h : placedAt s.asm s.pc.toNat = some i) :
    fetch s = fetchPlaced s i := by
  unfold fetch; rw [h]

theorem fetch_of_bytes {s : State} (h : placedAt s.asm s.pc.toNat = none) : fetch s = fetchBytes s := by
  unfold fetch; rw [h]

/-- A well-formed placed form is fetched where its bytes do not stop the fetch. -/
theorem fetchPlaced_of_none {s : State} {i : Instr} (hi : i.wellFormed = true)
    (h : fetchStop s (instrLen s.params i) = none) : fetchPlaced s i = .ok i := by
  unfold fetchPlaced; rw [if_pos hi, h]

theorem fetchPlaced_of_some {s : State} {i : Instr} {r : Refusal} (hi : i.wellFormed = true)
    (h : fetchStop s (instrLen s.params i) = some r) : fetchPlaced s i = .error r := by
  unfold fetchPlaced; rw [if_pos hi, h]

/-- The first byte is fetched first (R91). -/
theorem fetchBytes_of_first {s : State} {r : Refusal} (h : fetchStop s 1 = some r) : fetchBytes s = .error r := by
  unfold fetchBytes; rw [h]

theorem fetchBytes_of_noClass {s : State} (h1 : fetchStop s 1 = none) (h : lengthClass (s.readByte s.pc) = none) :
    fetchBytes s = .error .unknownEncoding := by
  unfold fetchBytes; rw [h1]; dsimp only; rw [h]

theorem fetchBytes_of_stop {s : State} {c : LenClass} {r : Refusal} (h1 : fetchStop s 1 = none)
    (hc : lengthClass (s.readByte s.pc) = some c) (h : fetchStop s c.bytes = some r) :
    fetchBytes s = .error r := by
  unfold fetchBytes; rw [h1]; dsimp only; rw [hc]; dsimp only; rw [h]

theorem fetchBytes_of_decode {s : State} {c : LenClass} {i : Instr} {rest : List Byte} (h1 : fetchStop s 1 = none)
    (hc : lengthClass (s.readByte s.pc) = some c) (hn : fetchStop s c.bytes = none)
    (h : decode (s.bytesAt s.pc c.bytes) = .ok (i, rest)) : fetchBytes s = .ok i := by
  unfold fetchBytes; rw [h1]; dsimp only; rw [hc]; dsimp only; rw [hn]; dsimp only; rw [h]

theorem fetchBytes_of_decodeError {s : State} {c : LenClass} {e : DecodeError} (h1 : fetchStop s 1 = none)
    (hc : lengthClass (s.readByte s.pc) = some c) (hn : fetchStop s c.bytes = none)
    (h : decode (s.bytesAt s.pc c.bytes) = .error e) : fetchBytes s = .error (decodeRefusal e) := by
  unfold fetchBytes; rw [h1]; dsimp only; rw [hc]; dsimp only; rw [hn]; dsimp only; rw [h]

/-- Every instruction has a first byte. -/
theorem lenClassBytes_pos (c : LenClass) : 0 < c.bytes := by cases c <;> decide

theorem Fetchable.mono {s : State} {m n : Nat} (h : Fetchable s n) (hm : m ≤ n) : Fetchable s m :=
  fun k hk => h k (Nat.lt_of_lt_of_le hk hm)

/-- The first byte of an instruction that can be fetched does not stop the fetch. -/
theorem Fetchable.fetchStop_first {s : State} {c : LenClass} (h : Fetchable s c.bytes) : fetchStop s 1 = none :=
  fetchStop_of_fetchable (h.mono (lenClassBytes_pos c))

/-- The words of `bt.mov` that have no destination and are no system instruction (R228, R131). -/
theorem decode_reservedBtMov {A : RegNum} (hA : 3 ≤ A.toNat) :
    decode [0x04#8, A.setWidth 8] = .error .reservedBtMov := by
  have hword : 0x04#8 ++ A.setWidth 8 = (0b000001#6 ++ 0#5 ++ A : BitVec 16) := by
    apply BitVec.eq_of_toNat_eq
    simp only [append_toNat, BitVec.toNat_setWidth, BitVec.toNat_ofNat]
    omega
  obtain ⟨e1, e2, e3, -⟩ := fields_BtR 0b000001#6 0#5 A
  have hdecode : decodeBt (0x04#8 ++ A.setWidth 8) = .error .reservedBtMov := by
    rw [hword]
    unfold decodeBt
    rw [e1, e2, e3]
    refine (if_pos rfl).trans ?_
    split
    case h_4 => rfl
    all_goals exact absurd hA (by decide)
  calc decode [0x04#8, A.setWidth 8]
      = (decodeBt (0x04#8 ++ A.setWidth 8)).map fun i => (i, []) := rfl
    _ = .error .reservedBtMov := by rw [hdecode]; rfl

/-! ### The statements about the fetch -/

/-- Settles O5: bytes that decode and a well-formed placed form are fetched. -/
theorem stepRunsTheInstructionAtPc : Obligations.StepRunsTheInstructionAtPc := by
  intro s i hq
  refine ⟨fun c rest hp hc hf hd => ?bytes, fun hp hi hf => ?placed⟩
  case bytes =>
    exact step_of_fetch hq <| (fetch_of_bytes hp).trans <|
      fetchBytes_of_decode hf.fetchStop_first hc (fetchStop_of_fetchable hf) hd
  case placed =>
    exact step_of_fetch hq <| (fetch_of_placed hp).trans <|
      fetchPlaced_of_none hi (fetchStop_of_fetchable hf)

/-- Settles O4: the fetch of the bytes refuses at the length class or at the decoder. -/
theorem undecodableBytesAreRefused : Obligations.UndecodableBytesAreRefused := by
  intro s hq hp hf1
  have hfirst : fetchStop s 1 = none := fetchStop_of_fetchable hf1
  have refused : ∀ {c e}, lengthClass (s.readByte s.pc) = some c → Fetchable s c.bytes →
      decode (s.bytesAt s.pc c.bytes) = .error e → step s = .refused (decodeRefusal e) :=
    fun hc hf hd => step_of_fetch_error hq <| (fetch_of_bytes hp).trans <|
      fetchBytes_of_decodeError hfirst hc (fetchStop_of_fetchable hf) hd
  refine ⟨fun hc => ?noClass, fun c hc hf => ⟨fun hd => refused hc hf hd, fun A hA hbt hb0 hb1 => ?reserved⟩⟩
  case noClass =>
    exact step_of_fetch_error hq <| (fetch_of_bytes hp).trans <| fetchBytes_of_noClass hfirst hc
  case reserved =>
    subst hbt
    have hbytes : s.bytesAt s.pc LenClass.bt.bytes = [0x04#8, A.setWidth 8] := by
      rw [← hb0, ← hb1, ← addrAt_zero s.pc]
      simp [State.bytesAt, LenClass.bytes, List.range_succ]
    exact refused hc hf (hbytes ▸ decode_reservedBtMov hA)

/-- Settles O6: a mapped instruction with a stored byte stops the fetch, be it placed or in bytes; the first byte of
the latter is fetched on its own. -/
theorem storedBytesAreNotFetched : Obligations.StoredBytesAreNotFetched := by
  intro s k hq hk
  have first : mapped s.params s.pc = true → s.pc.toNat ∈ s.stored → fetchStop s 1 = some .selfModifyingCode := by
    intro hm hs
    refine fetchStop_of_stored (k := 0) (fun m hm1 => ?_) Nat.one_pos ?_
    · rwa [Nat.lt_one_iff.mp hm1, addrAt_zero]
    · rwa [addrAt_zero]
  refine ⟨fun i hp hi hlen hm => ?placed, fun hp h0 hm => ?first, fun c hp hc hlen hm => ?bytes⟩
  case placed =>
    exact step_of_fetch_error hq <| (fetch_of_placed hp).trans <|
      fetchPlaced_of_some hi (fetchStop_of_stored hm hlen hk)
  case first =>
    rw [h0, addrAt_zero] at hk
    exact step_of_fetch_error hq <| (fetch_of_bytes hp).trans <| fetchBytes_of_first (first hm hk)
  case bytes =>
    refine step_of_fetch_error hq <| (fetch_of_bytes hp).trans ?_
    have hmap : mapped s.params s.pc = true := addrAt_zero s.pc ▸ hm 0 (lenClassBytes_pos c)
    by_cases hs : s.pc.toNat ∈ s.stored
    · exact fetchBytes_of_first (first hmap hs)
    · have hfirst : Fetchable s 1 := fun m hm1 => by
        rw [Nat.lt_one_iff.mp hm1, addrAt_zero]
        exact ⟨hmap, hs⟩
      exact fetchBytes_of_stop (fetchStop_of_fetchable hfirst) hc (fetchStop_of_stored hm hlen hk)

/-! ### Interrupts -/

/-- With both enables 0 no gate is open. -/
theorem gateOpen_of_disabled {s : State} (hi : s.flagIee = false) (ht : s.flagTee = false) (g : Gate) :
    gateOpen s g = false := by
  cases g with
  | iee => exact hi
  | tee => exact ht

/-- With both enables 0 no interrupt is taken (R460). -/
theorem quiet_of_disabled {s : State} (hi : s.flagIee = false) (ht : s.flagTee = false) : Quiet s := by
  have hnone : acceptable s = [] := List.filter_eq_nil_iff.mpr fun c _ => by
    rw [gateOpen_of_disabled hi ht, Bool.and_false]
    exact Bool.false_ne_true
  unfold Quiet acceptedInterrupt
  rw [hnone]

/-- A boundary with an accepted interrupt takes it (R460). -/
theorem step_of_interrupt {s : State} {c : IrqClass} (h : acceptedInterrupt s = some c) :
    step s = .next (platformTick (takeInterrupt c s)) := by
  unfold step; rw [h]

/-- Settles O11: no class is acceptable with both enables 0; a class that is taken is acceptable, and taking it is the
entry of an exception with its vector and pc. -/
theorem interruptEntry : Obligations.InterruptEntry := by
  intro s c
  refine ⟨quiet_of_disabled, fun h => ?_⟩
  obtain ⟨hmem, hpending, hgate⟩ := acceptedInterrupt_eq_some h
  refine ⟨hmem, hpending, ?gate, takeInterrupt c s, step_of_interrupt h, entered_enterException c.vec s.pc s⟩
  case gate => cases hg : c.gate <;> rw [hg] at hgate <;> exact hgate

end Sys2Proof.Machine
end

section
/-! PROOFS. Integer arithmetic without carry input (`spec/40_arith.md` R150 to R172): sums, saturation, products,
quotients, remainders, accumulation. Each meaning is one of the shared operations; a lemma per operation brings its
value to the exact integer of the statement, and a shape lemma gives flags and frame. -/

namespace Sys2Proof.Machine

/-! ### What the instructions mean -/

/-- A 32-bit immediate is taken as it is. -/
theorem exec_bwAddi (rD rA : RegNum) (g : BitVec 32) (s : State) :
    exec (.bwAddi rD rA g) s = addFlags .bw rD (s.reg rA) g false s :=
  congrArg (addFlags .bw rD (s.reg rA) · false s) (immZ_word g)

theorem exec_bwDivui (rD rA : RegNum) (o : BitVec 32) (s : State) :
    exec (.bwDivui rD rA o) s = divUnsigned .bw rD (s.reg rA) o s :=
  congrArg (divUnsigned .bw rD (s.reg rA) · s) (immZ_word o)

/-! ### Shapes of completion -/

/-- The same completion, the value and the conditions of the flags written differently. -/
theorem SetsRegOvCy.congr {i : Instr} {s : State} {r : RegNum} {v v' : Word} {ov ov' cy cy' : Prop} {n : Nat}
    (h : SetsRegOvCy i s r v ov cy n) (hv : v = v') (ho : ov ↔ ov') (hc : cy ↔ cy') :
    SetsRegOvCy i s r v' ov' cy' n := by
  rw [← hv, ← propext ho, ← propext hc]; exact h

/-- A register with OV and CY, and a draw of a free value. -/
theorem completes_of_setOvCy_drawn {i : Instr} {s : State} {r : RegNum} {v : Word} {ov cy : Bool} (c : LenClass)
    (hw : ParamsWf s.params) (h : exec i s = .next ((((s.setReg r v).setOvCy ov cy).drawn).advance c)) :
    Completes i s fun t =>
      Holds t r v ∧ t.flagOv = ov ∧ t.flagCy = cy ∧ Advanced s t c.bytes ∧
        Keeps { regs := [r], sr := [s.params.srBit.ov, s.params.srBit.cy] } s t := by
  refine ⟨_, h, ?_, ?_, ?_, by simp [Advanced, State.nextPc, State.setOvCy], ?_⟩
  · simp [Holds, State.setOvCy]
  · simp [State.flagOv, State.setOvCy, bitAt_withBit, hw.ov_ne_cy]
  · simp [State.flagCy, State.setOvCy]
  · constructor <;> intros <;> simp_all [State.reg_setReg, bitAt_withBit, State.setOvCy]

/-- A register with a free value. -/
theorem completes_of_modUndefined {i : Instr} {s : State} {r : RegNum} (c : LenClass)
    (h : exec i s = modUndefined c r s) :
    Completes i s fun t => t.reg 0 = 0 ∧ Advanced s t c.bytes ∧ Keeps { regs := [r] } s t := by
  refine ⟨_, h, rfl, by simp [Advanced, State.nextPc], ?_⟩
  constructor <;> intros <;> simp_all [State.reg_setReg]

/-! ### Sums -/

/-- The immediate of `b.movhi` as a number (R229). -/
theorem toNat_immHigh (I : BitVec 16) : (immHigh I).toNat = 65536 * I.toNat := by
  rw [immHigh, append_toNat]; simp [Nat.mul_comm]

/-- A word plus 0 does not leave the signed range. -/
theorem not_overflows_zero_add (a : Word) : ¬ Overflows ((0 : Word).toInt + a.toInt + (0 : Nat)) := by
  have h1 := BitVec.le_toInt a
  have h2 := BitVec.toInt_lt (x := a)
  rw [Overflows, show (0 : Word).toInt = 0 from rfl]
  omega

/-- Settles O13: each form is `addFlags`; the immediate of `b.movhi` is added to 0, which gives no overflow and no
carry. -/
theorem additionSetsSumAndFlags : Obligations.AdditionSetsSumAndFlags := by
  intro s rD rA rB G O Y I g hw
  refine ⟨?btAdd, ?bnAdd, ?btAddi, ?bnAddi, ?bgAddi, ?bwAddi, ?bMovhi⟩
  case btAdd => exact addsInto_of_addFlags .bt hw rfl rfl
  case bnAdd => exact addsInto_of_addFlags .bn hw rfl rfl
  case btAddi => exact addsInto_of_addFlags .bt hw rfl rfl
  case bnAddi => exact addsInto_of_addFlags .bn hw rfl rfl
  case bgAddi => exact addsInto_of_addFlags .bg hw rfl rfl
  case bwAddi => exact addsInto_of_addFlags .bw hw rfl (exec_bwAddi rD rA g s)
  case bMovhi =>
    have hadd : AddsInto (.bMovhi rD I) s rD 0 (immHigh I) 0 6 := addsInto_of_addFlags .bw hw rfl rfl
    have hI := I.isLt
    refine hadd.congr ?value (iff_of_false (not_overflows_zero_add _) id) (iff_of_false ?carry id)
    case value =>
      rw [← toNat_immHigh, BitVec.ofNat_toNat, BitVec.setWidth_eq]
      apply BitVec.eq_of_toInt_eq
      simp
    case carry =>
      rw [toNat_immHigh, show (0 : Word).toNat = 0 from rfl]
      omega

/-! ### Saturation -/

/-- The clamped word is the number clamped to the signed range (R157, R160). -/
theorem toInt_clamp32 (x : Int) : (clamp32 x).toInt = max (-2147483648) (min 2147483647 x) := by
  unfold clamp32
  split
  case isTrue h => rw [show intMax.toInt = 2147483647 from rfl]; omega
  case isFalse h =>
    split
    case isTrue h' => rw [show intMin.toInt = -2147483648 from rfl]; omega
    case isFalse h' =>
      rw [BitVec.toInt_ofInt_eq_self (by decide) (by omega) (by omega)]; omega

/-- OV sticks (R157, R160). -/
theorem flag_or_outside32_iff (f : Bool) (x : Int) : (f || outside32 x) = true ↔ f = true ∨ Overflows x := by
  rw [Bool.or_eq_true, outside32_iff]

/-- Settles O16: sum and difference are clamped; OV is the old one or the overflow, CY that of the plain operation. -/
theorem saturationClampsAndSticks : Obligations.SaturationClampsAndSticks := by
  intro s rD rA rB hw
  refine ⟨⟨_, toInt_clamp32 _, ?sum⟩, ⟨_, toInt_clamp32 _, ?difference⟩⟩
  case sum => exact setsRegOvCy_of_setOvCy .bn hw rfl (flag_or_outside32_iff _ _) (by simp [carryAdd])
  case difference =>
    exact setsRegOvCy_of_setOvCy s.params.lenOf.subs hw rfl (flag_or_outside32_iff _ _) (by simp [borrowSub])

/-! ### Products -/

/-- `mulFlags`: the low half of the exact product, OV where it does not fit, CY a free bit (R161, R163). -/
theorem completes_of_mulFlags {i : Instr} {s : State} {r : RegNum} {a b : Word} (c : LenClass)
    (hw : ParamsWf s.params) (h : exec i s = mulFlags c r a b s) :
    Completes i s fun t =>
      Holds t r (BitVec.ofInt 32 (a.toInt * b.toInt)) ∧ (t.flagOv = true ↔ Overflows (a.toInt * b.toInt)) ∧
        Advanced s t c.bytes ∧ Keeps { regs := [r], sr := [s.params.srBit.ov, s.params.srBit.cy] } s t := by
  obtain ⟨t, ht, hv, hov, -, hpc, hk⟩ := completes_of_setOvCy_drawn c hw h
  exact ⟨t, ht, hv, by rw [hov, outside32_iff], hpc, hk⟩

/-- The high half of the product as a quotient (R162). -/
theorem mulHigh_eq (a b : Word) : mulHigh a b = BitVec.ofInt 32 (a.toInt * b.toInt / 4294967296) := by
  apply BitVec.eq_of_toNat_eq
  rw [mulHigh, extract_toNat, BitVec.toNat_ofInt, BitVec.toNat_ofInt]
  generalize a.toInt * b.toInt = x
  omega

/-- Settles O17: the low half with flags, for a register and for a sign-extended immediate, and the high half. -/
theorem multiplication : Obligations.Multiplication := by
  intro s rD rA rB p hw
  refine ⟨completes_of_mulFlags .bn hw rfl, ?muli, ?mulh⟩
  case muli =>
    have h := completes_of_mulFlags (i := .bwMuli rD rA p) .bw hw rfl
    rwa [toInt_immS (by decide)] at h
  case mulh =>
    rw [← mulHigh_eq]
    exact setsReg_of_writeBack .bn rfl

/-! ### Quotients and remainders -/

/-- The library's division and remainder truncate toward zero (R172). -/
theorem truncates_tdiv_tmod (a : Int) {b : Int} (hb : b ≠ 0) : Truncates a b (a.tdiv b) (a.tmod b) := by
  refine ⟨(Int.tdiv_mul_add_tmod a b).symm, ?bound, ?sign⟩
  case bound =>
    rw [Int.natAbs_tmod]
    exact Nat.mod_lt _ (Int.natAbs_pos.mpr hb)
  case sign =>
    rcases Int.le_total 0 a with ha | ha
    · exact Int.mul_nonneg (Int.tmod_nonneg b ha) ha
    · have hneg : 0 ≤ -a := Int.neg_nonneg_of_nonpos ha
      have hmod := Int.mul_nonneg (Int.tmod_nonneg b hneg) hneg
      rwa [Int.neg_tmod, Int.neg_mul_neg] at hmod

/-- The signed quotient of `a` by `b` has no defined result (R172). -/
def QuotientOpen (a b : Int) : Prop := b = 0 ∨ (a = -2147483648 ∧ b = -1)

theorem eq_zero_iff_toInt (b : Word) : b = 0 ↔ b.toInt = 0 := by
  exact (BitVec.toInt_inj (y := 0)).symm

theorem eq_intMin_and_allOnes_iff (a b : Word) :
    (a = intMin ∧ b = BitVec.allOnes 32) ↔ (a.toInt = -2147483648 ∧ b.toInt = -1) :=
  and_congr (BitVec.toInt_inj (y := intMin)).symm (BitVec.toInt_inj (y := BitVec.allOnes 32)).symm

theorem divSigned_of_defined {a b : Word} (h : ¬ QuotientOpen a.toInt b.toInt) (c : LenClass) (r : RegNum)
    (s : State) : divSigned c r a b s = divDefined c r (BitVec.ofInt 32 (a.toInt.tdiv b.toInt)) s := by
  obtain ⟨h0, hmin⟩ := not_or.mp h
  rw [← eq_zero_iff_toInt] at h0
  rw [← eq_intMin_and_allOnes_iff] at hmin
  rw [divSigned, if_neg h0, if_neg hmin]

theorem divSigned_of_open {a b : Word} (h : QuotientOpen a.toInt b.toInt) (c : LenClass) (r : RegNum) (s : State) :
    divSigned c r a b s = divUndefined c r (decide (b = 0)) s := by
  by_cases h0 : b = 0
  · rw [divSigned, if_pos h0, decide_eq_true h0]
  · have hmin := h.resolve_left (mt (eq_zero_iff_toInt b).mpr h0)
    rw [← eq_intMin_and_allOnes_iff] at hmin
    rw [divSigned, if_neg h0, if_pos hmin, decide_eq_false h0]

theorem divUnsigned_of_zero (a : Word) (c : LenClass) (r : RegNum) (s : State) :
    divUnsigned c r a 0 s = divUndefined c r true s := if_pos rfl

theorem divUnsigned_of_ne_zero {b : Word} (h : b ≠ 0) (a : Word) (c : LenClass) (r : RegNum) (s : State) :
    divUnsigned c r a b s = divDefined c r (BitVec.ofNat 32 (a.toNat / b.toNat)) s := if_neg h

theorem modSigned_of_defined {a b : Word} (h : ¬ QuotientOpen a.toInt b.toInt) (c : LenClass) (r : RegNum)
    (s : State) : modSigned c r a b s = writeBack c r (BitVec.ofInt 32 (a.toInt.tmod b.toInt)) s := by
  rw [QuotientOpen, ← eq_zero_iff_toInt, ← eq_intMin_and_allOnes_iff] at h
  rw [modSigned, if_neg h, Int.tmod_def, Int.mul_comm]

theorem modSigned_of_open {a b : Word} (h : QuotientOpen a.toInt b.toInt) (c : LenClass) (r : RegNum) (s : State) :
    modSigned c r a b s = modUndefined c r s := by
  rw [QuotientOpen, ← eq_zero_iff_toInt, ← eq_intMin_and_allOnes_iff] at h
  rw [modSigned, if_pos h]

theorem modUnsigned_of_zero (a : Word) (c : LenClass) (r : RegNum) (s : State) :
    modUnsigned c r a 0 s = modUndefined c r s := if_pos rfl

theorem modUnsigned_of_ne_zero {b : Word} (h : b ≠ 0) (a : Word) (c : LenClass) (r : RegNum) (s : State) :
    modUnsigned c r a b s = writeBack c r (BitVec.ofNat 32 (a.toNat % b.toNat)) s := if_neg h

/-- A divisor that is not 0 is a positive number. -/
theorem toNat_pos_of_ne_zero {b : Word} (h : b ≠ 0) : 0 < b.toNat :=
  Nat.pos_of_ne_zero fun e => h (BitVec.eq_of_toNat_eq e)

/-- A defined signed division: the truncated quotient, without overflow and carry. -/
theorem quotient_of_divSigned {i : Instr} {s : State} {r : RegNum} {a b : Word} (c : LenClass)
    (hw : ParamsWf s.params) (h : exec i s = divSigned c r a b s) (hd : ¬ QuotientOpen a.toInt b.toInt) :
    ∃ q m : Int, Truncates a.toInt b.toInt q m ∧
      SetsRegOvCy i s r (BitVec.ofInt 32 q) False False c.bytes :=
  ⟨_, _, truncates_tdiv_tmod _ (not_or.mp hd).1,
    setsRegOvCy_of_setOvCy c hw (h.trans (divSigned_of_defined hd c r s)) Bool.false_eq_true.to_iff
      Bool.false_eq_true.to_iff⟩

/-- A defined unsigned division: the floor of the quotient, without overflow and carry. -/
theorem quotient_of_divUnsigned {i : Instr} {s : State} {r : RegNum} {a b : Word} (c : LenClass)
    (hw : ParamsWf s.params) (h : exec i s = divUnsigned c r a b s) (hb : b ≠ 0) :
    ∃ q : Nat, q * b.toNat ≤ a.toNat ∧ a.toNat < (q + 1) * b.toNat ∧
      SetsRegOvCy i s r (BitVec.ofNat 32 q) False False c.bytes :=
  ⟨_, Nat.div_mul_le_self _ _, Nat.lt_mul_of_div_lt (Nat.lt_succ_self _) (toNat_pos_of_ne_zero hb),
    setsRegOvCy_of_setOvCy c hw (h.trans (divUnsigned_of_ne_zero hb a c r s)) Bool.false_eq_true.to_iff
      Bool.false_eq_true.to_iff⟩

/-- Settles O18: the divisor of the immediate forms is the immediate's own number. -/
theorem definedDivision : Obligations.DefinedDivision := by
  intro s rD rA rB p o hw
  refine ⟨fun h0 hmin => ?div, fun h0 hmin => ?divi, fun hb => ?divu, fun ho => ?divui⟩
  case div => exact quotient_of_divSigned .bn hw rfl (not_or.mpr ⟨h0, hmin⟩)
  case divi =>
    have h := quotient_of_divSigned (i := .bwDivi rD rA p) .bw hw rfl
    rw [toInt_immS (by decide)] at h
    exact h (not_or.mpr ⟨h0, hmin⟩)
  case divu => exact quotient_of_divUnsigned .bn hw rfl hb
  case divui => exact quotient_of_divUnsigned .bw hw (exec_bwDivui rD rA o s) ho

/-- An undefined division runs on: CY tells a zero divisor, the result and OV are free. -/
theorem completes_of_divUndefined {i : Instr} {s : State} {r : RegNum} {zero : Prop} {z : Bool} (c : LenClass)
    (hw : ParamsWf s.params) (h : exec i s = divUndefined c r z s) (hz : z = true ↔ zero) :
    Completes i s fun t =>
      (t.flagCy = true ↔ zero) ∧ t.reg 0 = 0 ∧ Advanced s t c.bytes ∧
        Keeps { regs := [r], sr := [s.params.srBit.ov, s.params.srBit.cy] } s t := by
  obtain ⟨t, ht, -, -, hcy, hpc, hk⟩ := completes_of_setOvCy_drawn c hw h
  exact ⟨t, ht, by rw [hcy, hz], rfl, hpc, hk⟩

/-- A sign-extended immediate is 0 where the immediate is. -/
theorem immS_eq_zero_iff {w : Nat} (hw : w ≤ 32) (p : BitVec w) : immS p = 0 ↔ p = 0 := by
  rw [eq_zero_iff_toInt, toInt_immS hw, ← BitVec.toInt_inj, BitVec.ofNat_eq_ofNat, BitVec.toInt_zero]

/-- Settles O19: every division and remainder without a defined result ends in free values. -/
theorem undefinedDivisionRunsOn : Obligations.UndefinedDivisionRunsOn := by
  intro s rD rA rB p o hw
  refine ⟨fun h => ⟨?div, ?mod⟩, fun h => ?divi, fun h => ⟨?divu, ?modu⟩, fun h => ?divui⟩
  case div => exact completes_of_divUndefined .bn hw (divSigned_of_open h .bn rD s) decide_eq_true_iff
  case mod => exact completes_of_modUndefined .bn (modSigned_of_open h .bn rD s)
  case divi =>
    have hopen : QuotientOpen (s.reg rA).toInt (immS p).toInt := by
      rw [toInt_immS (by decide)]; exact h
    exact completes_of_divUndefined .bw hw (divSigned_of_open hopen .bw rD s)
      (decide_eq_true_iff.trans (immS_eq_zero_iff (by decide) p))
  case divu =>
    have hexec : exec (.bnDivu rD rA rB) s = divUnsigned .bn rD (s.reg rA) (s.reg rB) s := rfl
    rw [h, divUnsigned_of_zero] at hexec
    exact completes_of_divUndefined .bn hw hexec (iff_of_true rfl trivial)
  case modu =>
    have hexec : exec (.bnModu rD rA rB) s = modUnsigned .bn rD (s.reg rA) (s.reg rB) s := rfl
    rw [h, modUnsigned_of_zero] at hexec
    exact completes_of_modUndefined .bn hexec
  case divui =>
    have hexec := exec_bwDivui rD rA o s
    rw [h, divUnsigned_of_zero] at hexec
    exact completes_of_divUndefined .bw hw (h ▸ hexec) (iff_of_true rfl trivial)

/-- Settles O20: the truncated remainder and the unsigned one. -/
theorem definedRemainder : Obligations.DefinedRemainder := by
  intro s rD rA rB
  refine ⟨fun h0 hmin => ?mod, fun h0 => ?modu⟩
  case mod =>
    rw [Ne, eq_zero_iff_toInt] at h0
    exact ⟨_, _, truncates_tdiv_tmod _ h0,
      setsReg_of_writeBack .bn (modSigned_of_defined (not_or.mpr ⟨h0, hmin⟩) .bn rD s)⟩
  case modu =>
    exact ⟨_, _, (Nat.div_add_mod' _ _).symm, Nat.mod_lt _ (toNat_pos_of_ne_zero h0),
      setsReg_of_writeBack .bn (modUnsigned_of_ne_zero h0 _ .bn rD s)⟩

/-! ### Accumulation -/

/-- The accumulator after it is written, its two halves put together (`spec/10_state.md` R32). -/
theorem setMac_halves (v : BitVec 64) : (v.extractLsb' 32 32 ++ v.extractLsb' 0 32 : BitVec 64) = v := by
  apply BitVec.eq_of_toNat_eq
  have := v.isLt
  rw [append_toNat, extract_toNat, extract_toNat]
  omega

/-- A bit that is set under a condition, and is otherwise as it was. -/
theorem bitAt_ite_withBit_true (c : Bool) (v : Word) (i j : BitPos) :
    bitAt (if c then withBit v i true else v) j = (bitAt v j || (decide (j = i) && c)) := by
  cases c with
  | false => rw [if_neg Bool.false_ne_true, Bool.and_false, Bool.or_false]
  | true =>
    rw [if_pos rfl, bitAt_withBit, Bool.and_true]
    by_cases h : j = i <;> simp [h]

/-- UR after the flags of an accumulation: two bits are only set, the third is assigned (R170, R171). -/
theorem setMacFlags_ur (s : State) (x : Int) (carry : Bool) :
    (s.setMacFlags x carry).ur =
      let high := if above64 x then withBit s.ur s.params.urBit.macovh true else s.ur
      let low := if below64 x then withBit high s.params.urBit.macovl true else high
      withBit low s.params.urBit.maccy carry := by
  unfold State.setMacFlags
  cases above64 x <;> cases below64 x <;> rfl

theorem bitAt_setMacFlags (s : State) (x : Int) (carry : Bool) (j : BitPos) :
    bitAt (s.setMacFlags x carry).ur j =
      if j = s.params.urBit.maccy then carry
      else (bitAt s.ur j || (decide (j = s.params.urBit.macovh) && above64 x)) ||
        (decide (j = s.params.urBit.macovl) && below64 x) := by
  rw [setMacFlags_ur, bitAt_withBit, bitAt_ite_withBit_true, bitAt_ite_withBit_true]

/-- The flags of an accumulation are bits of UR, nothing else. -/
theorem keeps_setMac_setMacFlags (s : State) (v : BitVec 64) (x : Int) (carry : Bool) (c : LenClass) :
    Keeps { ur := [s.params.urBit.macovh, s.params.urBit.macovl, s.params.urBit.maccy], mac := true } s
      (((s.setMac v).setMacFlags x carry).advance c) := by
  constructor
  case ur =>
    intro b hb
    simp only [List.mem_cons, List.not_mem_nil, or_false, not_or] at hb
    obtain ⟨hh, hl, hcy⟩ := hb
    rw [State.advance_ur, bitAt_setMacFlags]
    simp [hh, hl, hcy]
  all_goals rw [State.setMacFlags_frame]; intros; simp_all [State.reg, State.readByte]

/-- The three flags of an accumulation are three bits. -/
theorem ParamsWf.macFlags_ne {p : Params} (h : ParamsWf p) :
    p.urBit.macovh ≠ p.urBit.macovl ∧ p.urBit.macovh ≠ p.urBit.maccy ∧ p.urBit.macovl ≠ p.urBit.maccy := by
  have := h.ur
  simp only [urPositions, List.nodup_cons, List.mem_cons, not_or] at this
  obtain ⟨⟨hhl, hhc, -⟩, ⟨hlc, -⟩, -⟩ := this
  exact ⟨hhl, hhc, hlc⟩

/-- MACCY as the carry out of bit 63 (R170). -/
theorem carryMac_iff (t : Int) (acc : BitVec 64) :
    carryMac t acc = true ↔
      18446744073709551616 ≤ (t % 18446744073709551616).toNat + acc.toNat := by
  rw [carryMac, decide_eq_true_iff, BitVec.toNat_ofInt]; rfl

/-- The clamped word is the number clamped to the signed 64-bit range (R171). -/
theorem clamp64_eq (x : Int) :
    clamp64 x = BitVec.ofInt 64 (max (-9223372036854775808) (min 9223372036854775807 x)) := by
  unfold clamp64 above64 below64
  simp only [decide_eq_true_eq]
  split
  case isTrue h => rw [Int.min_eq_left (by omega)]; rfl
  case isFalse h =>
    split
    case isTrue h' => rw [Int.min_eq_right (by omega), Int.max_eq_left (by omega)]; rfl
    case isFalse h' => rw [Int.min_eq_right (by omega), Int.max_eq_right (by omega)]

/-- An accumulation: MAC, its three flags, and nothing else. -/
theorem accumulates_of_setMac {i : Instr} {s : State} {t x result : Int} {v : BitVec 64} (c : LenClass)
    (hw : ParamsWf s.params) (hv : v = BitVec.ofInt 64 result)
    (h : exec i s = .next (((s.setMac v).setMacFlags x (carryMac t s.mac)).advance c)) :
    Completes i s fun u =>
      (u.machi ++ u.maclo : BitVec 64) = BitVec.ofInt 64 result ∧
      (bitAt u.ur s.params.urBit.macovh = true ↔
        bitAt s.ur s.params.urBit.macovh = true ∨ 9223372036854775807 < x) ∧
      (bitAt u.ur s.params.urBit.macovl = true ↔
        bitAt s.ur s.params.urBit.macovl = true ∨ x < -9223372036854775808) ∧
      (bitAt u.ur s.params.urBit.maccy = true ↔
        18446744073709551616 ≤ (t % 18446744073709551616).toNat + s.mac.toNat) ∧
      Advanced s u c.bytes ∧
      Keeps { ur := [s.params.urBit.macovh, s.params.urBit.macovl, s.params.urBit.maccy], mac := true } s u := by
  obtain ⟨hhl, hhc, hlc⟩ := hw.macFlags_ne
  refine ⟨_, h, ?mac, ?macovh, ?macovl, ?maccy, ?pc, keeps_setMac_setMacFlags ..⟩
  case mac => rw [State.setMacFlags_frame, ← hv]; exact setMac_halves v
  case macovh => rw [State.advance_ur, bitAt_setMacFlags]; simp [hhl, hhc, above64]
  case macovl => rw [State.advance_ur, bitAt_setMacFlags]; simp [hhl.symm, hlc, below64]
  case maccy => rw [State.advance_ur, bitAt_setMacFlags, ← carryMac_iff]; simp
  case pc => rw [State.setMacFlags_frame]; rfl

/-- Settles O21: the wrapped sum and the clamped one. -/
theorem multiplyAccumulate : Obligations.MultiplyAccumulate := by
  intro s rA rB hw
  refine ⟨?mac, ?macs⟩
  case mac => exact accumulates_of_setMac s.params.lenOf.mac hw rfl rfl
  case macs => exact accumulates_of_setMac s.params.lenOf.macs hw (clamp64_eq _) rfl

end Sys2Proof.Machine
end

section
/-! PROOFS. Logic, shifts, bit manipulation and moves (`spec/41_logic_move.md`; `f.abs.s` of `spec/47_float.md` R429).
Every meaning is a `writeBack`, so the frame is that of `setsReg_of_writeBack`; what is left is the value written, as
bits or as a number. -/

namespace Sys2Proof.Machine

/-! ### Bitwise logic -/

/-- A zero-extended immediate has the immediate's bits and no other. -/
theorem getLsbD_immZ {w : Nat} (N : BitVec w) {k : Nat} (hk : k < 32) : (immZ N).getLsbD k = N.getLsbD k := by
  rw [immZ, BitVec.getLsbD_setWidth, decide_eq_true hk, Bool.true_and]

/-- A sign-extended 24-bit immediate repeats its top bit (R206). -/
theorem getLsbD_immS24 (p : BitVec 24) {k : Nat} (hk : k < 32) : (immS p).getLsbD k = p.getLsbD (min k 23) := by
  rw [immS, BitVec.getLsbD_signExtend, decide_eq_true hk, Bool.true_and]
  split
  case isTrue h => rw [Nat.min_eq_left (by omega)]
  case isFalse h => rw [Nat.min_eq_right (by omega)]; rfl

/-- The mask of `f.abs.s` is every bit but the sign (R429). -/
theorem getLsbD_absMask : ∀ k, k < 32 → (0x7FFFFFFF#32).getLsbD k = (k != 31) := by decide

/-- Settles O22: each bit of each bitwise operation, the immediates extended. -/
theorem bitwiseLogic : Obligations.BitwiseLogic := by
  intro s rD rA rB N h p
  refine ⟨?and_, ?bnAndi, ?bwAndi, ?or_, ?bnOri, ?bwOri, ?xor_, ?bwXori, ?nand_, ?not_, ?abs_⟩
  case and_ => exact setsBits_of_writeBack .bn rfl fun k _ => BitVec.getLsbD_and
  case bnAndi =>
    exact setsBits_of_writeBack .bn rfl fun k hk => by rw [BitVec.getLsbD_and, getLsbD_immZ N hk]
  case bwAndi =>
    exact setsBits_of_writeBack .bw rfl fun k hk => by rw [BitVec.getLsbD_and, getLsbD_immZ h hk]
  case or_ => exact setsBits_of_writeBack .bn rfl fun k _ => BitVec.getLsbD_or
  case bnOri =>
    exact setsBits_of_writeBack .bn rfl fun k hk => by rw [BitVec.getLsbD_or, getLsbD_immZ N hk]
  case bwOri =>
    exact setsBits_of_writeBack .bw rfl fun k hk => by rw [BitVec.getLsbD_or, getLsbD_immZ h hk]
  case xor_ => exact setsBits_of_writeBack .bn rfl fun k _ => BitVec.getLsbD_xor
  case bwXori =>
    exact setsBits_of_writeBack .bw rfl fun k hk => by rw [BitVec.getLsbD_xor, getLsbD_immS24 p hk]
  case nand_ =>
    exact setsBits_of_writeBack .bn rfl fun k hk => by
      rw [BitVec.getLsbD_not, decide_eq_true hk, Bool.true_and, BitVec.getLsbD_and]
  case not_ =>
    exact setsBits_of_writeBack .bn rfl fun k hk => by
      rw [BitVec.getLsbD_not, decide_eq_true hk, Bool.true_and, BitVec.and_self]
  case abs_ =>
    exact setsBits_of_writeBack .bw rfl fun k hk => by
      rw [BitVec.getLsbD_and, getLsbD_absMask k hk, Bool.and_comm]

/-! ### Shifts -/

/-- The amount of a shift by a register is the register modulo 32 (R209). -/
theorem shiftAmount_eq (v : Word) : shiftAmount v = v.toNat % 32 := by
  rw [shiftAmount, extract_toNat, Nat.pow_zero, Nat.div_one]; rfl

theorem shiftLeft_eq_mul (a : Word) (n : Nat) : a <<< n = BitVec.ofNat 32 (a.toNat * 2 ^ n) := by
  apply BitVec.eq_of_toNat_eq
  rw [BitVec.toNat_shiftLeft, BitVec.toNat_ofNat, Nat.shiftLeft_eq]

theorem shiftRight_eq_div (a : Word) (n : Nat) : a >>> n = BitVec.ofNat 32 (a.toNat / 2 ^ n) := by
  apply BitVec.eq_of_toNat_eq
  rw [BitVec.toNat_ushiftRight, BitVec.toNat_ofNat, Nat.shiftRight_eq_div_pow,
    Nat.mod_eq_of_lt (Nat.lt_of_le_of_lt (Nat.div_le_self _ _) a.isLt)]

theorem sshiftRight_eq_div (a : Word) (n : Nat) : a.sshiftRight n = BitVec.ofInt 32 (a.toInt / 2 ^ n) := by
  rw [BitVec.sshiftRight, Int.shiftRight_eq_div_pow]; norm_cast

/-- A `writeBack` of a value that is written differently in the statement. -/
theorem setsReg_of_writeBack_eq {i : Instr} {s : State} {r : RegNum} {v v' : Word} (c : LenClass)
    (h : exec i s = writeBack c r v s) (hv : v = v') : SetsReg i s r v' c.bytes :=
  setsReg_of_writeBack c (hv ▸ h)

/-- Settles O23: a shift is a product or a quotient by a power of two. -/
theorem shiftsAreArithmetic : Obligations.ShiftsAreArithmetic := by
  intro s rD rA rB H
  refine ⟨?sll, ?slli, ?srl, ?srli, ?sra, ?srai⟩
  case sll => exact setsReg_of_writeBack_eq .bn rfl (by rw [shiftLeft_eq_mul, shiftAmount_eq])
  case slli => exact setsReg_of_writeBack_eq .bn rfl (shiftLeft_eq_mul _ _)
  case srl => exact setsReg_of_writeBack_eq .bn rfl (by rw [shiftRight_eq_div, shiftAmount_eq])
  case srli => exact setsReg_of_writeBack_eq .bn rfl (shiftRight_eq_div _ _)
  case sra => exact setsReg_of_writeBack_eq .bn rfl (by rw [sshiftRight_eq_div, shiftAmount_eq])
  case srai => exact setsReg_of_writeBack_eq .bn rfl (sshiftRight_eq_div _ _)

/-! ### Rotations and byte swap -/

/-- Bit k of a rotated word is bit k + n of the word, counted around (R216). -/
theorem getLsbD_rotateRight (a : Word) {n k : Nat} (hn : n < 32) (hk : k < 32) :
    (rotateRight a n).getLsbD k = a.getLsbD ((k + n) % 32) := by
  unfold rotateRight
  by_cases h0 : n = 0
  · rw [if_pos h0, h0, Nat.add_zero, Nat.mod_eq_of_lt hk]
  · rw [if_neg h0, BitVec.getLsbD_or, BitVec.getLsbD_ushiftRight, BitVec.getLsbD_shiftLeft, decide_eq_true hk]
    by_cases hwrap : k + n < 32
    · rw [decide_eq_true (show k < 32 - n by omega), Nat.mod_eq_of_lt hwrap, Nat.add_comm n k]
      simp
    · rw [decide_eq_false (show ¬ k < 32 - n by omega), BitVec.getLsbD_of_ge a (n + k) (by omega),
        show (k + n) % 32 = k - (32 - n) by omega]
      simp

/-- Bit k of the byte-swapped word is the same bit of the mirrored byte (R222). -/
theorem getLsbD_swapBytes (a : Word) {k : Nat} (hk : k < 32) :
    (swapBytes a).getLsbD k = a.getLsbD (8 * (3 - k / 8) + k % 8) := by
  unfold swapBytes
  simp only [BitVec.getLsbD_append, BitVec.getLsbD_extractLsb']
  interval_cases k <;> simp

/-- Settles O24: two rotations, by five bits of a register or of the field, and the byte swap. -/
theorem bitPermutations : Obligations.BitPermutations := by
  intro s rD rA rB H
  refine ⟨?ror, ?rori, ?swab⟩
  case ror =>
    exact setsBits_of_writeBack .bn rfl fun k hk => by
      rw [shiftAmount_eq, getLsbD_rotateRight _ (Nat.mod_lt _ (by decide)) hk, Nat.add_mod_mod]
  case rori => exact setsBits_of_writeBack .bn rfl fun k hk => getLsbD_rotateRight _ H.isLt hk
  case swab => exact setsBits_of_writeBack .bn rfl fun k hk => getLsbD_swapBytes _ hk

/-! ### Searches -/

theorem countLeadingZeros_zero : countLeadingZeros 0 = 0xFFFFFFFF#32 := by decide

theorem findFirstOne_zero : findFirstOne 0 = 0 := by decide

/-- The first index of a range at which a test holds. -/
theorem find_range_eq_some {p : Nat → Bool} {n k : Nat} (hk : k < n) (hp : p k = true)
    (hbefore : ∀ j, j < k → p j = false) : (List.range n).find? p = some k :=
  List.find?_range_eq_some.mpr ⟨hp, List.mem_range.mpr hk, fun j hj => by rw [hbefore j hj]; rfl⟩

theorem countLeadingZeros_of_first {a : Word} {k : Nat} (hk : k < 32) (hbit : a.getLsbD (31 - k) = true)
    (hbefore : ∀ j, j < k → a.getLsbD (31 - j) = false) : countLeadingZeros a = BitVec.ofNat 32 k := by
  unfold countLeadingZeros
  rw [find_range_eq_some hk hbit hbefore]

theorem findFirstOne_of_first {a : Word} {k : Nat} (hk : k < 32) (hbit : a.getLsbD k = true)
    (hbefore : ∀ j, j < k → a.getLsbD j = false) : findFirstOne a = BitVec.ofNat 32 (k + 1) := by
  unfold findFirstOne
  rw [find_range_eq_some hk hbit hbefore]

/-- Two words agree in byte `k`. -/
def SameByte (a b : Word) (k : Nat) : Prop := a.toNat / 256 ^ k % 256 = b.toNat / 256 ^ k % 256

/-- Byte `k` as a field and as a digit base 256. -/
theorem extract_eq_iff_sameByte (a b : Word) (k : Nat) :
    a.extractLsb' (8 * k) 8 = b.extractLsb' (8 * k) 8 ↔ SameByte a b k := by
  rw [← BitVec.toNat_inj, extract_toNat, extract_toNat, Nat.pow_mul]; rfl

/-- R221 in terms of the bytes' numbers. -/
theorem findLeadingByte_cases (a b : Word) :
    (SameByte a b 3 → findLeadingByte a b = 3) ∧
    (¬ SameByte a b 3 → SameByte a b 2 → findLeadingByte a b = 2) ∧
    (¬ SameByte a b 3 → ¬ SameByte a b 2 → SameByte a b 1 → findLeadingByte a b = 1) ∧
    (¬ SameByte a b 3 → ¬ SameByte a b 2 → ¬ SameByte a b 1 → SameByte a b 0 → findLeadingByte a b = 0) ∧
    (¬ SameByte a b 3 → ¬ SameByte a b 2 → ¬ SameByte a b 1 → ¬ SameByte a b 0 →
      findLeadingByte a b = 0xFFFFFFFF#32) := by
  simp only [← extract_eq_iff_sameByte]
  unfold findLeadingByte
  refine ⟨fun h3 => if_pos h3, fun h3 h2 => ?_, fun h3 h2 h1 => ?_, fun h3 h2 h1 h0 => ?_,
    fun h3 h2 h1 h0 => ?_⟩
  · rw [if_neg h3, if_pos h2]
  · rw [if_neg h3, if_neg h2, if_pos h1]
  · rw [if_neg h3, if_neg h2, if_neg h1, if_pos h0]
  · rw [if_neg h3, if_neg h2, if_neg h1, if_neg h0]; rfl

/-- The highest equal byte. -/
theorem findLeadingByte_of_highest {a b : Word} {k : Nat} (hk : k < 4) (h : SameByte a b k)
    (habove : ∀ j, k < j → j < 4 → ¬ SameByte a b j) : findLeadingByte a b = BitVec.ofNat 32 k := by
  obtain ⟨at3, at2, at1, at0, -⟩ := findLeadingByte_cases a b
  match k, hk with
  | 3, _ => exact at3 h
  | 2, _ => exact at2 (habove 3 (by decide) (by decide)) h
  | 1, _ => exact at1 (habove 3 (by decide) (by decide)) (habove 2 (by decide) (by decide)) h
  | 0, _ =>
    exact at0 (habove 3 (by decide) (by decide)) (habove 2 (by decide) (by decide))
      (habove 1 (by decide) (by decide)) h

/-- Settles O26: each search finds the first of its list, or nothing. -/
theorem bitSearches : Obligations.BitSearches := by
  intro s rD rA rB
  refine ⟨fun h0 => ⟨?clzZero, ?ff1Zero⟩, fun k hk hbit hbefore => ?clz, fun k hk hbit hbefore => ?ff1,
    fun k hk hsame habove => ?flb, fun hnone => ?flbNone⟩
  case clzZero => exact setsReg_of_writeBack_eq .bn rfl (by rw [h0, countLeadingZeros_zero])
  case ff1Zero => exact setsReg_of_writeBack_eq .bn rfl (by rw [h0, findFirstOne_zero])
  case clz => exact setsReg_of_writeBack_eq .bn rfl (countLeadingZeros_of_first hk hbit hbefore)
  case ff1 => exact setsReg_of_writeBack_eq .bn rfl (findFirstOne_of_first hk hbit hbefore)
  case flb => exact setsReg_of_writeBack_eq .bn rfl (findLeadingByte_of_highest hk hsame habove)
  case flbNone =>
    obtain ⟨-, -, -, -, none⟩ := findLeadingByte_cases (s.reg rA) (s.reg rB)
    exact setsReg_of_writeBack_eq .bn rfl (none (hnone 3 (by decide)) (hnone 2 (by decide)) (hnone 1 (by decide))
      (hnone 0 (by decide)))

/-! ### Extensions -/

/-- The low bits of a word as a number. -/
theorem toNat_low (a : Word) (n : Nat) : (a.extractLsb' 0 n).toNat = a.toNat % 2 ^ n := by
  rw [extract_toNat, Nat.pow_zero, Nat.div_one]

theorem signExtend_low8 (a : Word) :
    (a.extractLsb' 0 8).signExtend 32 =
      BitVec.ofInt 32 (if a.toNat % 256 < 128 then (a.toNat % 256 : Nat) else (a.toNat % 256 : Nat) - 256) := by
  rw [BitVec.signExtend, BitVec.toInt_eq_toNat_cond, toNat_low]
  congr 1
  split <;> split <;> omega

theorem signExtend_low16 (a : Word) :
    (a.extractLsb' 0 16).signExtend 32 =
      BitVec.ofInt 32
        (if a.toNat % 65536 < 32768 then (a.toNat % 65536 : Nat) else (a.toNat % 65536 : Nat) - 65536) := by
  rw [BitVec.signExtend, BitVec.toInt_eq_toNat_cond, toNat_low]
  congr 1
  split <;> split <;> omega

theorem setWidth_low (a : Word) (n : Nat) : (a.extractLsb' 0 n).setWidth 32 = BitVec.ofNat 32 (a.toNat % 2 ^ n) := by
  apply BitVec.eq_of_toNat_eq
  rw [BitVec.toNat_setWidth, toNat_low, BitVec.toNat_ofNat]

/-- Settles O27: the low byte and half word as signed and as unsigned numbers. -/
theorem extensions : Obligations.Extensions := by
  intro s rD rA
  refine ⟨?extbs, ?extbz, ?exths, ?exthz⟩
  case extbs => exact setsReg_of_writeBack_eq .bn rfl (signExtend_low8 _)
  case extbz => exact setsReg_of_writeBack_eq .bn rfl (setWidth_low _ 8)
  case exths => exact setsReg_of_writeBack_eq .bn rfl (signExtend_low16 _)
  case exthz => exact setsReg_of_writeBack_eq .bn rfl (setWidth_low _ 16)

/-! ### Moves -/

/-- The no-operation is the jump to the next instruction (R231, D54). -/
theorem exec_btNop (G : BitVec 4) (s : State) : exec (.btNop G) s = jumpTo (s.pc + 2) s := rfl

/-- Settles O29: the conditional move by F, the copy, and the no-operation. -/
theorem moves : Obligations.Moves := by
  intro s rD rA rB G
  refine ⟨fun hf => ?taken, fun hf => ?notTaken, ?mov, goesTo_of_jumpTo (exec_btNop G s)⟩
  case taken => exact setsReg_of_writeBack_eq .bn rfl (if_pos hf)
  case notTaken => exact setsReg_of_writeBack_eq .bn rfl (if_neg (Bool.not_eq_true _ ▸ hf))
  case mov => exact setsReg_of_writeBack .bt rfl

end Sys2Proof.Machine
end

section
/-! PROOFS. The register compares (`spec/42_compare.md` R250 to R269) and the branches that compare registers, an
unsigned short value, OV, or floating-point numbers (`spec/43_branch.md` R280 to R304, `spec/47_float.md` R430 to
R436). Each compare is a `setFlag`, each branch a `branchIf`; what is left is to read the tested Bool as the
condition. -/

namespace Sys2Proof.Machine

/-! ### Register compares -/

/-- Settles O30: the Bool that each compare assigns decides its relation; the two aliases exchange the registers. -/
theorem registerCompares : Obligations.RegisterCompares := by
  intro s rA rB
  refine ⟨?eq, ?ne, ?ges, ?geu, ?gts, ?gtu, ?les, ?leu, ?lts, ?ltu⟩
  case eq => exact setsF_of_setFlag .bn rfl decide_eq_true_iff
  case ne => exact setsF_of_setFlag .bn rfl decide_eq_true_iff
  case ges => exact setsF_of_setFlag s.params.lenOf.sfges rfl decide_eq_true_iff
  case geu => exact setsF_of_setFlag s.params.lenOf.sfgeu rfl decide_eq_true_iff
  case gts => exact setsF_of_setFlag .bn rfl decide_eq_true_iff
  case gtu => exact setsF_of_setFlag .bn rfl decide_eq_true_iff
  case les => exact setsF_of_setFlag s.params.lenOf.sfles rfl decide_eq_true_iff
  case leu => exact setsF_of_setFlag s.params.lenOf.sfleu rfl decide_eq_true_iff
  case lts => exact setsF_of_setFlag .bn rfl decide_eq_true_iff
  case ltu => exact setsF_of_setFlag .bn rfl decide_eq_true_iff

/-! ### Branches in two offset widths -/

/-- The `bg.` and the `bw.` form of one branch: the same condition, each with its own offset and length. -/
theorem branches_bg_bw {near far : Instr} {s : State} {b : Bool} {cond : Prop} {U : BitVec 12} {u : BitVec 28}
    (hnear : exec near s = branchIf .bg b (immS U) s) (hfar : exec far s = branchIf .bw b (immS u) s)
    (hb : b = true ↔ cond) :
    Branches near s cond (BitVec.ofInt 32 U.toInt) 4 ∧ Branches far s cond (BitVec.ofInt 32 u.toInt) 6 :=
  ⟨branches_of_branchIf_immS .bg hnear hb, branches_of_branchIf_immS .bw hfar hb⟩

/-- Settles O34, relation by relation; the four aliases exchange the registers. -/
theorem registerCompareBranches : Obligations.RegisterCompareBranches := by
  intro s rA rB U u
  refine ⟨?eq, ?ne, ?ges, ?geu, ?gts, ?gtu, ?les, ?leu, ?lts, ?ltu⟩
  case eq => exact branches_bg_bw rfl rfl decide_eq_true_iff
  case ne => exact branches_bg_bw rfl rfl decide_eq_true_iff
  case ges => exact branches_bg_bw rfl rfl decide_eq_true_iff
  case geu => exact branches_bg_bw rfl rfl decide_eq_true_iff
  case gts => exact branches_bg_bw rfl rfl decide_eq_true_iff
  case gtu => exact branches_bg_bw rfl rfl decide_eq_true_iff
  case les => exact branches_bg_bw rfl rfl decide_eq_true_iff
  case leu => exact branches_bg_bw rfl rfl decide_eq_true_iff
  case lts => exact branches_bg_bw rfl rfl decide_eq_true_iff
  case ltu => exact branches_bg_bw rfl rfl decide_eq_true_iff

/-- Settles O58, predicate by predicate; the two aliases exchange the registers. -/
theorem floatBranches : Obligations.FloatBranches := by
  intro s rA rB U u
  refine ⟨?beq, ?bne, ?bge, ?bgt, ?ble, ?blt⟩
  case beq => exact branches_bg_bw rfl rfl Iff.rfl
  case bne => exact branches_bg_bw rfl rfl Iff.rfl
  case bge => exact branches_bg_bw rfl rfl Iff.rfl
  case bgt => exact branches_bg_bw rfl rfl Iff.rfl
  case ble => exact branches_bg_bw rfl rfl Iff.rfl
  case blt => exact branches_bg_bw rfl rfl Iff.rfl

/-! ### Branches on a zero-extended value -/

/-- A zero-extended 5-bit value is its unsigned number, as a signed number too (R281). -/
theorem toInt_immZ5 (E : BitVec 5) : (immZ E).toInt = E.toNat := by
  have hE := E.isLt
  rw [immZ, BitVec.toInt_setWidth, Int.bmod_eq_of_le (by omega) (by omega)]

/-- A signed compare with a zero-extended value is a compare of numbers. -/
theorem branches_of_compare_immZ5 {i : Instr} {s : State} {rB : RegNum} {E : BitVec 5} {P : BitVec 8} {cond : Prop}
    (r : Rel) (h : exec i s = branchIf .bn (r.holds (s.reg rB) (immZ E)) (immS P) s)
    (hr : ∀ m n, r.OnNumbers (s.reg rB).toInt E.toNat m n ↔ cond) :
    Branches i s cond (BitVec.ofInt 32 P.toInt) 3 := by
  have hcond := r.holds_iff_onNumbers (s.reg rB) (immZ E)
  rw [toInt_immZ5, hr] at hcond
  exact branches_of_branchIf_immS .bn h hcond

/-- Settles O35, relation by relation. -/
theorem shortImmediateBranches : Obligations.ShortImmediateBranches := by
  intro s rB E P
  refine ⟨?eq, ?ne, ?ges, ?gts, ?les, ?lts⟩
  case eq => exact branches_of_compare_immZ5 .eq rfl fun _ _ => Iff.rfl
  case ne => exact branches_of_compare_immZ5 .ne rfl fun _ _ => Iff.rfl
  case ges => exact branches_of_compare_immZ5 .ges rfl fun _ _ => Iff.rfl
  case gts => exact branches_of_compare_immZ5 .gts rfl fun _ _ => Iff.rfl
  case les => exact branches_of_compare_immZ5 .les rfl fun _ _ => Iff.rfl
  case lts => exact branches_of_compare_immZ5 .lts rfl fun _ _ => Iff.rfl

/-! ### The branch on OV that may clear it -/

/-- OV cleared under a condition is a change of that bit alone. -/
theorem keeps_clearOvIf (s : State) (b : Bool) (pc : Word) :
    Keeps { sr := [s.params.srBit.ov] } s ((if b then s.setOv false else s).setPc pc) := by
  cases b <;> constructor <;> intros <;> simp_all [bitAt_withBit]

theorem flagOv_clearOvIf (s : State) (b : Bool) (pc : Word) :
    ((if b then s.setOv false else s).setPc pc).flagOv = (s.flagOv && !b) := by
  cases b <;> simp [State.flagOv]

theorem pc_clearOvIf (s : State) (b : Bool) : (if b then s.setOv false else s).pc = s.pc := by cases b <;> rfl

/-- The branch template writes pc, whichever way it goes (R280). -/
theorem branchIf_eq (c : LenClass) (b : Bool) (off : Word) (s : State) :
    branchIf c b off s = .next (s.setPc (if b then s.pc + off else s.nextPc c)) := by
  cases b <;> rfl

/-- `branchNoOverflow`: the target by OV, and OV cleared where the parameter says so (R287). -/
theorem completes_of_branchNoOverflow {i : Instr} {s : State} {S : BitVec 12}
    (h : exec i s = branchNoOverflow S s) :
    Completes i s fun t =>
      t.pc = (if s.flagOv = false then s.pc + BitVec.ofInt 32 S.toInt else s.pc + 3) ∧
      t.flagOv = (s.flagOv && !bnoClears s.params S (!s.flagOv)) ∧ Keeps { sr := [s.params.srBit.ov] } s t := by
  rw [branchNoOverflow, branchIf_eq] at h
  refine ⟨_, h, ?pc, flagOv_clearOvIf .., keeps_clearOvIf ..⟩
  case pc =>
    rw [State.setPc_pc, State.nextPc, pc_clearOvIf]
    cases s.flagOv <;> rfl

/-- Settles O33: the three values of the parameter; `b.cov` is the case S = 3, whose target is the next instruction. -/
theorem branchIfNoOverflow : Obligations.BranchIfNoOverflow := by
  intro s S
  refine ⟨?bno, ?cov⟩
  case bno =>
    obtain ⟨t, ht, hpc, hov, hk⟩ := completes_of_branchNoOverflow (i := .bnBno S) rfl
    refine ⟨t, ht, hpc, ?_, hk⟩
    cases hp : s.params.bnoClearsOv <;> simp [hov, bnoClears, hp]
  case cov =>
    obtain ⟨t, ht, hpc, hov, hk⟩ := completes_of_branchNoOverflow (i := .bCov) rfl
    refine ⟨t, ht, hpc.trans (ite_self _), ?_, hk⟩
    cases hp : s.params.bnoClearsOv <;> simp [hov, bnoClears, hp]

end Sys2Proof.Machine
end

section
/-! PROOFS. Single loads and stores (`spec/45_load_store.md` R360 to R368) and how they stop (`spec/20_memory.md` R64,
R72). Each meaning is `loadInto` or `storeFrom` at the register plus the offset, as a number, of its form; from that
one equation follow the completion and the stops. -/

namespace Sys2Proof.Machine

/-! ### Offsets as numbers -/

/-- A zero-extended offset is the word of its unsigned number. -/
theorem immZ_eq_ofInt {w : Nat} (f : BitVec w) : immZ f = BitVec.ofInt 32 f.toNat := by
  rw [BitVec.ofInt_natCast, BitVec.ofNat_toNat, immZ]

/-- A 32-bit offset is the word of its signed number. -/
theorem immZ_word_eq_ofInt (h : Word) : immZ h = BitVec.ofInt 32 h.toInt := by
  rw [immZ_word, BitVec.ofInt_toInt]

/-- A field shifted to fill its word is the word of the scaled signed number. -/
theorem setWidth_shiftLeft_eq_ofInt {w k n : Nat} (hn : w + k = n) (f : BitVec w) :
    f.setWidth n <<< k = BitVec.ofInt n (f.toInt * 2 ^ k) := by
  have hnat : f.setWidth n <<< k = BitVec.ofInt n (f.toNat * 2 ^ k : Nat) := by
    apply BitVec.eq_of_toNat_eq
    rw [BitVec.ofInt_natCast, BitVec.toNat_shiftLeft, BitVec.toNat_setWidth, BitVec.toNat_ofNat,
      Nat.mod_eq_of_lt (Nat.lt_of_lt_of_le f.isLt (Nat.pow_le_pow_right Nat.two_pos (by omega))),
      Nat.shiftLeft_eq]
  rw [hnat, BitVec.toInt_eq_toNat_cond]
  split
  case isTrue => push_cast; rfl
  case isFalse =>
    apply BitVec.eq_of_toNat_eq
    rw [BitVec.toNat_ofInt, BitVec.toNat_ofInt]
    push_cast
    rw [Int.sub_mul, ← Int.pow_add, hn, Int.sub_emod_right]

/-- Letters M and K: zero-extended and scaled (R360). -/
theorem offZ_eq_ofInt {w k : Nat} (f : BitVec w) : offZ f k = BitVec.ofInt 32 (f.toNat * (2 ^ k : Nat)) := by
  rw [← Int.natCast_mul, BitVec.ofInt_natCast]
  apply BitVec.eq_of_toNat_eq
  rw [offZ, BitVec.toNat_shiftLeft, BitVec.toNat_setWidth, BitVec.toNat_ofNat, Nat.shiftLeft_eq, Nat.mod_mul_mod]

/-- Letters X and W: sign-extended from 16 bits after scaling (R360). -/
theorem offS16_eq_ofInt {w k : Nat} (hk : w + k = 16) (f : BitVec w) :
    offS16 f k = BitVec.ofInt 32 (f.toInt * (2 ^ k : Nat)) := by
  have hpow : (2 : Int) ^ w * 2 ^ k = 65536 := by rw [← Int.pow_add, hk]; rfl
  have hpos : (0 : Int) < 2 ^ k := Int.pow_pos (by decide)
  have hlo := Int.mul_le_mul_of_nonneg_right (BitVec.le_two_mul_toInt (x := f)) hpos.le
  have hhi := Int.mul_lt_mul_of_pos_right (BitVec.two_mul_toInt_lt (x := f)) hpos
  rw [Int.mul_assoc, Int.neg_mul, hpow] at hlo
  rw [Int.mul_assoc, hpow] at hhi
  rw [offS16, setWidth_shiftLeft_eq_ofInt hk, BitVec.signExtend,
    BitVec.toInt_ofInt_eq_self (by decide) (by omega) (by omega)]
  norm_cast

/-- Letters i and w: scaled to fill the word (R360). -/
theorem off32_eq_ofInt {w k : Nat} (hk : w + k = 32) (f : BitVec w) :
    off32 f k = BitVec.ofInt 32 (f.toInt * (2 ^ k : Nat)) := by
  rw [off32, setWidth_shiftLeft_eq_ofInt hk]
  norm_cast

/-! ### What the instructions mean -/

section
variable (s : State) (r rA : RegNum)

theorem exec_bnLbz (N : BitVec 8) :
    exec (.bnLbz r N rA) s = loadInto .bn r (s.reg rA + BitVec.ofInt 32 N.toNat) 1 s := by
  rw [← immZ_eq_ofInt]; rfl
theorem exec_bgLbz (Y : BitVec 16) :
    exec (.bgLbz r Y rA) s = loadInto .bg r (s.reg rA + BitVec.ofInt 32 Y.toInt) 1 s := rfl
theorem exec_bwLbz (h : BitVec 32) :
    exec (.bwLbz r h rA) s = loadInto .bw r (s.reg rA + BitVec.ofInt 32 h.toInt) 1 s := by
  rw [← immZ_word_eq_ofInt]; rfl
theorem exec_bnLhz (M : BitVec 7) :
    exec (.bnLhz r M rA) s = loadInto .bn r (s.reg rA + BitVec.ofInt 32 (M.toNat * 2)) 2 s :=
  congrArg (fun off => loadInto .bn r (s.reg rA + off) 2 s) (offZ_eq_ofInt (k := 1) M)
theorem exec_bgLhz (X : BitVec 15) :
    exec (.bgLhz r X rA) s = loadInto .bg r (s.reg rA + BitVec.ofInt 32 (X.toInt * 2)) 2 s :=
  congrArg (fun off => loadInto .bg r (s.reg rA + off) 2 s) (offS16_eq_ofInt (k := 1) rfl X)
theorem exec_bwLhz (i : BitVec 31) :
    exec (.bwLhz r i rA) s = loadInto .bw r (s.reg rA + BitVec.ofInt 32 (i.toInt * 2)) 2 s :=
  congrArg (fun off => loadInto .bw r (s.reg rA + off) 2 s) (off32_eq_ofInt (k := 1) rfl i)
theorem exec_bnLwz (K : BitVec 6) :
    exec (.bnLwz r K rA) s = loadInto .bn r (s.reg rA + BitVec.ofInt 32 (K.toNat * 4)) 4 s :=
  congrArg (fun off => loadInto .bn r (s.reg rA + off) 4 s) (offZ_eq_ofInt (k := 2) K)
theorem exec_bgLwz (W : BitVec 14) :
    exec (.bgLwz r W rA) s = loadInto .bg r (s.reg rA + BitVec.ofInt 32 (W.toInt * 4)) 4 s :=
  congrArg (fun off => loadInto .bg r (s.reg rA + off) 4 s) (offS16_eq_ofInt (k := 2) rfl W)
theorem exec_bwLwz (w : BitVec 30) :
    exec (.bwLwz r w rA) s = loadInto .bw r (s.reg rA + BitVec.ofInt 32 (w.toInt * 4)) 4 s :=
  congrArg (fun off => loadInto .bw r (s.reg rA + off) 4 s) (off32_eq_ofInt (k := 2) rfl w)

/-- On a 32-bit core the sign-extending load of a word is the other one (R364). -/
theorem exec_bnLws (K : BitVec 6) : exec (.bnLws r K rA) s = exec (.bnLwz r K rA) s := rfl
theorem exec_bgLws (W : BitVec 14) : exec (.bgLws r W rA) s = exec (.bgLwz r W rA) s := rfl
theorem exec_bwLws (w : BitVec 30) : exec (.bwLws r w rA) s = exec (.bwLwz r w rA) s := rfl

theorem exec_bnSb (N : BitVec 8) :
    exec (.bnSb N rA r) s = storeFrom .bn (s.reg rA + BitVec.ofInt 32 N.toNat) 1 (s.reg r) s := by
  rw [← immZ_eq_ofInt]; rfl
theorem exec_bgSb (Y : BitVec 16) :
    exec (.bgSb Y rA r) s = storeFrom .bg (s.reg rA + BitVec.ofInt 32 Y.toInt) 1 (s.reg r) s := rfl
theorem exec_bwSb (h : BitVec 32) :
    exec (.bwSb h rA r) s = storeFrom .bw (s.reg rA + BitVec.ofInt 32 h.toInt) 1 (s.reg r) s := by
  rw [← immZ_word_eq_ofInt]; rfl
theorem exec_bnSh (M : BitVec 7) :
    exec (.bnSh M rA r) s = storeFrom .bn (s.reg rA + BitVec.ofInt 32 (M.toNat * 2)) 2 (s.reg r) s :=
  congrArg (fun off => storeFrom .bn (s.reg rA + off) 2 (s.reg r) s) (offZ_eq_ofInt (k := 1) M)
theorem exec_bgSh (X : BitVec 15) :
    exec (.bgSh X rA r) s = storeFrom .bg (s.reg rA + BitVec.ofInt 32 (X.toInt * 2)) 2 (s.reg r) s :=
  congrArg (fun off => storeFrom .bg (s.reg rA + off) 2 (s.reg r) s) (offS16_eq_ofInt (k := 1) rfl X)
theorem exec_bwSh (i : BitVec 31) :
    exec (.bwSh i rA r) s = storeFrom .bw (s.reg rA + BitVec.ofInt 32 (i.toInt * 2)) 2 (s.reg r) s :=
  congrArg (fun off => storeFrom .bw (s.reg rA + off) 2 (s.reg r) s) (off32_eq_ofInt (k := 1) rfl i)
theorem exec_bnSw (K : BitVec 6) :
    exec (.bnSw K rA r) s = storeFrom .bn (s.reg rA + BitVec.ofInt 32 (K.toNat * 4)) 4 (s.reg r) s :=
  congrArg (fun off => storeFrom .bn (s.reg rA + off) 4 (s.reg r) s) (offZ_eq_ofInt (k := 2) K)
theorem exec_bgSw (W : BitVec 14) :
    exec (.bgSw W rA r) s = storeFrom .bg (s.reg rA + BitVec.ofInt 32 (W.toInt * 4)) 4 (s.reg r) s :=
  congrArg (fun off => storeFrom .bg (s.reg rA + off) 4 (s.reg r) s) (offS16_eq_ofInt (k := 2) rfl W)
theorem exec_bwSw (w : BitVec 30) :
    exec (.bwSw w rA r) s = storeFrom .bw (s.reg rA + BitVec.ofInt 32 (w.toInt * 4)) 4 (s.reg r) s :=
  congrArg (fun off => storeFrom .bw (s.reg rA + off) 4 (s.reg r) s) (off32_eq_ofInt (k := 2) rfl w)

end

/-! ### The statements -/

/-- Settles O43: a performed load reads the number in memory. -/
theorem loadsReadMemory : Obligations.LoadsReadMemory := by
  intro s rD rA N M K Y X W h i w
  refine ⟨⟨?bnLbz, ?bgLbz, ?bwLbz⟩, ⟨?bnLhz, ?bgLhz, ?bwLhz⟩, ⟨?bnLwz, ?bgLwz, ?bwLwz⟩, ?bnLws, ?bgLws, ?bwLws⟩
  case bnLbz => exact loads_of_loadInto .bn (by decide) (exec_bnLbz ..)
  case bgLbz => exact loads_of_loadInto .bg (by decide) (exec_bgLbz ..)
  case bwLbz => exact loads_of_loadInto .bw (by decide) (exec_bwLbz ..)
  case bnLhz => exact loads_of_loadInto .bn (by decide) (exec_bnLhz ..)
  case bgLhz => exact loads_of_loadInto .bg (by decide) (exec_bgLhz ..)
  case bwLhz => exact loads_of_loadInto .bw (by decide) (exec_bwLhz ..)
  case bnLwz => exact loads_of_loadInto .bn (by decide) (exec_bnLwz ..)
  case bgLwz => exact loads_of_loadInto .bg (by decide) (exec_bgLwz ..)
  case bwLwz => exact loads_of_loadInto .bw (by decide) (exec_bwLwz ..)
  case bnLws => exact loads_of_loadInto .bn (by decide) (exec_bnLws .. ▸ exec_bnLwz ..)
  case bgLws => exact loads_of_loadInto .bg (by decide) (exec_bgLws .. ▸ exec_bgLwz ..)
  case bwLws => exact loads_of_loadInto .bw (by decide) (exec_bwLws .. ▸ exec_bwLwz ..)

/-- Settles O44: a performed store writes the low bytes of the register. -/
theorem storesWriteMemory : Obligations.StoresWriteMemory := by
  intro s rA rB N M K Y X W h i w
  refine ⟨⟨?bnSb, ?bgSb, ?bwSb⟩, ⟨?bnSh, ?bgSh, ?bwSh⟩, ?bnSw, ?bgSw, ?bwSw⟩
  case bnSb => exact stores_of_storeFrom .bn (by decide) (exec_bnSb ..)
  case bgSb => exact stores_of_storeFrom .bg (by decide) (exec_bgSb ..)
  case bwSb => exact stores_of_storeFrom .bw (by decide) (exec_bwSb ..)
  case bnSh => exact stores_of_storeFrom .bn (by decide) (exec_bnSh ..)
  case bgSh => exact stores_of_storeFrom .bg (by decide) (exec_bgSh ..)
  case bwSh => exact stores_of_storeFrom .bw (by decide) (exec_bwSh ..)
  case bnSw => exact stores_of_storeFrom .bn (by decide) (exec_bnSw ..)
  case bgSw => exact stores_of_storeFrom .bg (by decide) (exec_bgSw ..)
  case bwSw => exact stores_of_storeFrom .bw (by decide) (exec_bwSw ..)

/-- A load has one access, and stops where that does. -/
theorem stopsAt_of_loadInto {i : Instr} {s : State} {r : RegNum} {a : Word} {n : Nat} (c : LenClass)
    (h : exec i s = loadInto c r a n s) : StopsAt .read i s a n c.bytes :=
  stopsAt_of_memRead c h

/-- A store has one access, and stops where that does. -/
theorem stopsAt_of_storeFrom {i : Instr} {s : State} {a v : Word} {n : Nat} (c : LenClass)
    (h : exec i s = storeFrom c a n v s) : StopsAt .write i s a n c.bytes :=
  stopsAt_of_memWrite c h

/-- Settles O50: each form stops where its one access does. -/
theorem accessesStopAsThePolicySays : Obligations.AccessesStopAsThePolicySays := by
  intro s r rA N M K Y X W h i w
  refine ⟨⟨?bnLbz, ?bgLbz, ?bwLbz⟩, ⟨?bnLhz, ?bgLhz, ?bwLhz⟩, ⟨?bnLwz, ?bgLwz, ?bwLwz⟩,
    ⟨?bnLws, ?bgLws, ?bwLws⟩, ⟨?bnSb, ?bgSb, ?bwSb⟩, ⟨?bnSh, ?bgSh, ?bwSh⟩, ?bnSw, ?bgSw, ?bwSw⟩
  case bnLbz => exact stopsAt_of_loadInto .bn (exec_bnLbz ..)
  case bgLbz => exact stopsAt_of_loadInto .bg (exec_bgLbz ..)
  case bwLbz => exact stopsAt_of_loadInto .bw (exec_bwLbz ..)
  case bnLhz => exact stopsAt_of_loadInto .bn (exec_bnLhz ..)
  case bgLhz => exact stopsAt_of_loadInto .bg (exec_bgLhz ..)
  case bwLhz => exact stopsAt_of_loadInto .bw (exec_bwLhz ..)
  case bnLwz => exact stopsAt_of_loadInto .bn (exec_bnLwz ..)
  case bgLwz => exact stopsAt_of_loadInto .bg (exec_bgLwz ..)
  case bwLwz => exact stopsAt_of_loadInto .bw (exec_bwLwz ..)
  case bnLws => exact stopsAt_of_loadInto .bn (exec_bnLws .. ▸ exec_bnLwz ..)
  case bgLws => exact stopsAt_of_loadInto .bg (exec_bgLws .. ▸ exec_bgLwz ..)
  case bwLws => exact stopsAt_of_loadInto .bw (exec_bwLws .. ▸ exec_bwLwz ..)
  case bnSb => exact stopsAt_of_storeFrom .bn (exec_bnSb ..)
  case bgSb => exact stopsAt_of_storeFrom .bg (exec_bgSb ..)
  case bwSb => exact stopsAt_of_storeFrom .bw (exec_bwSb ..)
  case bnSh => exact stopsAt_of_storeFrom .bn (exec_bnSh ..)
  case bgSh => exact stopsAt_of_storeFrom .bg (exec_bgSh ..)
  case bwSh => exact stopsAt_of_storeFrom .bw (exec_bwSh ..)
  case bnSw => exact stopsAt_of_storeFrom .bn (exec_bnSw ..)
  case bgSw => exact stopsAt_of_storeFrom .bg (exec_bgSw ..)
  case bwSw => exact stopsAt_of_storeFrom .bw (exec_bwSw ..)

/-- Settles O49: the doubleword forms are refused (D21). -/
theorem doublewordAccessesAreRefused : Obligations.DoublewordAccessesAreRefused :=
  fun _ _ _ _ _ _ => ⟨rfl, rfl, rfl, rfl, rfl, rfl⟩

end Sys2Proof.Machine
end

section
/-! PROOFS. Calls, jumps through memory, transfers through a pointer and atomics (`spec/44_jump_call.md` R330 to R338;
`spec/45_load_store.md` R372 to R377). An access that is performed is a read of `wordAt` or a `writeValue`; with the
accesses gone, each meaning is a few register writes, and its frame is that of those. -/

namespace Sys2Proof.Machine

/-! ### Performed accesses -/

/-- A word that can be read reads as the word in memory. -/
theorem Accessible.memRead_word {s : State} {a : Word} (h : Accessible s a 4) : memRead s a 4 = .ok (wordAt s a) := by
  rw [memRead_of_check h.check, readValue_eq_numberAt _ _ _ (by decide)]; rfl

theorem Writable.memWrite {s : State} {a : Word} {n : Nat} (h : Writable s a n) (v : Word) :
    memWrite s a n v = .ok (s.writeValue a n v) :=
  memWrite_of_check h.check

/-! ### Frames of register writes after a state with a frame -/

/-- The state itself. -/
theorem Keeps.refl (s : State) : Keeps {} s s := by constructor <;> intros <;> simp

/-- One more register. -/
theorem Keeps.setReg {f : Frame} {s t : State} (h : Keeps f s t) (r : RegNum) (v : Word) :
    Keeps { f with regs := r :: f.regs } s (t.setReg r v) := by
  constructor
  case regs =>
    intro q hq
    obtain ⟨hne, hq⟩ := not_or.mp (mt List.mem_cons.mpr hq)
    rw [State.reg_setReg_of_ne t v hne, h.regs q hq]
  case sr => intro b hb; rw [State.setReg_sr]; exact h.sr b hb
  case ur => intro b hb; rw [State.setReg_ur]; exact h.ur b hb
  case mem => intro a ha; rw [State.setReg_readByte]; exact h.mem a ha
  case stored => intro n; rw [State.setReg_stored]; exact h.stored n
  case mac => intro hm; rw [State.setReg_machi, State.setReg_maclo]; exact h.mac hm
  case exc => intro he; rw [State.setReg_esr, State.setReg_epcr]; exact h.exc he
  case extra => intro he; rw [State.setReg_extraSpr]; exact h.extra he
  case asm => rw [State.setReg_asm]; exact h.asm
  case params => rw [State.setReg_params]; exact h.params
  case irq => rw [State.setReg_irq]; exact h.irq

/-- SR.F besides. -/
theorem Keeps.setF {f : Frame} {s t : State} (h : Keeps f s t) (b : Bool) :
    Keeps { f with sr := s.params.srBit.f :: f.sr } s (t.setF b) where
  regs := h.regs
  sr c hc := by
    obtain ⟨hne, hc⟩ := not_or.mp (mt List.mem_cons.mpr hc)
    rw [State.setF_sr, h.params, bitAt_withBit_of_ne _ _ hne, h.sr c hc]
  ur := h.ur
  mem := h.mem
  stored := h.stored
  mac := h.mac
  exc := h.exc
  extra := h.extra
  asm := h.asm
  params := h.params
  irq := h.irq

/-- Any pc. -/
theorem Keeps.setPc {f : Frame} {s t : State} (h : Keeps f s t) (v : Word) : Keeps f s (t.setPc v) :=
  ⟨h.regs, h.sr, h.ur, h.mem, h.stored, h.mac, h.exc, h.extra, h.asm, h.params, h.irq⟩

theorem Keeps.advance {f : Frame} {s t : State} (h : Keeps f s t) (c : LenClass) : Keeps f s (t.advance c) :=
  h.setPc _

/-- The same registers in another order, or more of them. -/
theorem Keeps.regs_mono {f : Frame} {s t : State} (h : Keeps f s t) {l : List RegNum} (hl : f.regs ⊆ l) :
    Keeps { f with regs := l } s t :=
  ⟨fun r hr => h.regs r fun hm => hr (hl hm), h.sr, h.ur, h.mem, h.stored, h.mac, h.exc, h.extra, h.asm, h.params,
    h.irq⟩

/-- A register just written. -/
theorem holds_setReg (s : State) (r : RegNum) (v : Word) : Holds (s.setReg r v) r v := State.reg_setReg_self s r v

/-- A state still at the address of the instruction, advanced. -/
theorem advanced_advance {s t : State} (c : LenClass) (h : t.pc = s.pc) : Advanced s (t.advance c) c.bytes := by
  rw [Advanced, State.advance_pc, State.nextPc, h]

/-! ### Calls -/

/-- `jumpLink`: the link register and pc. -/
theorem completes_of_jumpLink {i : Instr} {s : State} {target : Word} (c : LenClass)
    (h : exec i s = jumpLink c target s) :
    Completes i s fun u =>
      u.pc = target ∧ Holds u 9 (s.pc + BitVec.ofNat 32 c.bytes) ∧ Keeps { regs := [9] } s u :=
  ⟨_, h, rfl, holds_setReg s 9 _, ((Keeps.refl s).setReg 9 _).setPc target⟩

/-- Settles O38: two sign-extended offsets, a 32-bit offset, a register. -/
theorem callsLinkR9 : Obligations.CallsLinkR9 := by
  intro s rA sOff t z
  refine ⟨?bnJal, ?bgJal, ?bwJal, ?bJalr⟩
  case bnJal => exact completes_of_jumpLink .bn rfl
  case bgJal => exact completes_of_jumpLink .bg rfl
  case bwJal => exact completes_of_jumpLink .bw (congrArg (fun off => jumpLink .bw (s.pc + off) s) (immZ_word z))
  case bJalr => exact completes_of_jumpLink s.params.lenOf.jalr rfl

/-! ### Jumps through memory -/

theorem exec_bwJma (rD : RegNum) (z : BitVec 32) (s : State) :
    exec (.bwJma rD z) s = jumpMemory rD (s.pc + z) s :=
  congrArg (fun off => jumpMemory rD (s.pc + off) s) (immZ_word z)

theorem exec_bwJmal (rD : RegNum) (z : BitVec 32) (s : State) :
    exec (.bwJmal rD z) s = jumpMemoryLink rD (s.pc + z) s :=
  congrArg (fun off => jumpMemoryLink rD (s.pc + off) s) (immZ_word z)

theorem jumpMemory_of_accessible {s : State} {p : Word} (h : Accessible s p 4) (rD : RegNum) :
    jumpMemory rD p s = .next ((s.setReg rD p).setPc (wordAt s p)) := by
  rw [jumpMemory, h.memRead_word]; rfl

theorem jumpMemoryLink_of_accessible {s : State} {p : Word} {rD : RegNum} (h : Accessible s p 4) (hD : rD ≠ 9) :
    jumpMemoryLink rD p s =
      .next (((s.setReg rD p).setReg 9 (s.nextPc .bw)).setPc (wordAt s p)) := by
  rw [jumpMemoryLink, if_neg (show ¬ rD = linkReg from hD), h.memRead_word]; rfl

/-- Settles O39: with the pointer's word read, rD, the link register and pc are written. -/
theorem jumpsThroughMemory : Obligations.JumpsThroughMemory := by
  intro s rD z
  refine ⟨rfl, fun ha => ⟨?jma, fun hD => ?jmal⟩⟩
  case jma =>
    exact ⟨_, (exec_bwJma rD z s).trans (jumpMemory_of_accessible ha rD), holds_setReg .., rfl,
      ((Keeps.refl s).setReg rD _).setPc _⟩
  case jmal =>
    refine ⟨_, (exec_bwJmal rD z s).trans (jumpMemoryLink_of_accessible ha hD), ?_, holds_setReg .., rfl, ?_⟩
    · exact (State.reg_setReg_of_ne _ _ hD).trans (holds_setReg ..)
    · exact ((((Keeps.refl s).setReg rD _).setReg 9 _).setPc _).regs_mono (by simp)

/-! ### Transfers through a pointer -/

theorem exec_bwLma (rD : RegNum) (z : BitVec 32) (s : State) :
    exec (.bwLma rD z) s = loadThrough rD (s.pc + z) s :=
  congrArg (fun off => loadThrough rD (s.pc + off) s) (immZ_word z)

theorem exec_bwSma (rB : RegNum) (z : BitVec 32) (s : State) :
    exec (.bwSma rB z) s = storeThrough rB (s.pc + z) s :=
  congrArg (fun off => storeThrough rB (s.pc + off) s) (immZ_word z)

/-- Once the pointer is read, the transfer is a load at the word read. -/
theorem loadThrough_of_accessible {s : State} {p : Word} (h : Accessible s p 4) (r : RegNum) :
    loadThrough r p s = loadInto .bw r (wordAt s p) 4 s := by
  rw [loadThrough, h.memRead_word]; rfl

/-- Once the pointer is read, the transfer is a store at the word read. -/
theorem storeThrough_of_accessible {s : State} {p : Word} (h : Accessible s p 4) (r : RegNum) :
    storeThrough r p s = storeFrom .bw (wordAt s p) 4 (s.reg r) s := by
  rw [storeThrough, h.memRead_word]; rfl

/-- Settles O47: the pointer being read, the rest is a load or a store. -/
theorem pointerTransfers : Obligations.PointerTransfers := by
  intro s r z _ hp
  refine ⟨loads_of_loadInto .bw (by decide) ?load, stores_of_storeFrom .bw (by decide) ?store⟩
  case load => exact (exec_bwLma r z s).trans (loadThrough_of_accessible hp r)
  case store => exact (exec_bwSma r z s).trans (storeThrough_of_accessible hp r)

/-! ### Atomics -/

/-- A place that can be written can be read. -/
theorem Writable.accessible {s : State} {a : Word} {n : Nat} (h : Writable s a n) : Accessible s a n := h.1

theorem atomicAdd_of_writable {s : State} {rB : RegNum} (h : Writable s (s.reg rB) 4) (rD rA : RegNum) :
    atomicAdd rD rA rB s =
      let new := wordAt s (s.reg rB) + s.reg rA
      .next (((s.writeValue (s.reg rB) 4 new).setReg rD new).advance .bn) := by
  rw [atomicAdd, h.accessible.memRead_word, Access.bind_ok, h.memWrite]; rfl

theorem compareExchange_of_writable {s : State} {rB : RegNum} (h : Writable s (s.reg rB) 4) (rD rA : RegNum) :
    compareExchange rD rA rB s =
      let same := decide (wordAt s (s.reg rB) = s.reg rD)
      let new := if wordAt s (s.reg rB) = s.reg rD then s.reg rA else wordAt s (s.reg rB)
      .next ((((s.writeValue (s.reg rB) 4 new).setF (!same)).setReg rD new).advance .bn) := by
  rw [compareExchange, h.accessible.memRead_word, Access.bind_ok]
  simp only [decide_eq_true_eq, h.memWrite]; rfl

/-- What a store leaves at its bytes does not depend on what else is written. -/
theorem StoredAt.congr {t u : State} {a v : Word} {n : Nat} (h : StoredAt t a n v) (hp : u.params = t.params)
    (hm : u.mem = t.mem) : StoredAt u a n v := by
  intro k hk
  rw [hp, ← h k hk, State.readByte, State.readByte, hm]

/-- The bytes of a stored word, whatever registers are written after it. -/
theorem keeps_store (s : State) (a v : Word) (n : Nat) : Keeps { mem := addrsFrom a n } s (s.writeValue a n v) := by
  have hpc : ((s.writeValue a n v).advance .bn).setPc s.pc = s.writeValue a n v := by
    rw [State.writeValue_frame]; rfl
  exact hpc ▸ (keeps_writeValue s a v n .bn).setPc s.pc

/-- Settles O48: both write memory and rD; the exchange writes F too. -/
theorem atomics : Obligations.Atomics := by
  intro s rD rA rB
  dsimp only
  intro ha
  refine ⟨?aadd, ?cmpxchg⟩
  case aadd =>
    refine ⟨_, atomicAdd_of_writable ha rD rA, ?stored, holds_setReg .., ?pc, ?keeps⟩
    case stored => exact (storedAt_writeValue s _ _ 4 (by decide)).congr (by simp) (by simp)
    case pc => exact advanced_advance .bn (by simp)
    case keeps => exact ((keeps_store s _ _ 4).setReg rD _).advance .bn
  case cmpxchg =>
    refine ⟨_, compareExchange_of_writable ha rD rA, ?stored, holds_setReg .., ?flag, ?pc, ?keeps⟩
    case stored => exact (storedAt_writeValue s _ _ 4 (by decide)).congr (by simp) (by simp)
    case flag => simp [State.flagF]
    case pc => exact advanced_advance .bn (by simp)
    case keeps => exact (((keeps_store s _ _ 4).setF _).setReg rD _).advance .bn

end Sys2Proof.Machine
end

section
/-! PROOFS. Transfers of several words: the register lists of `bn.mlwz` and `bn.msw` (`spec/45_load_store.md` R370,
R371, R374) and the frames of `bn.entri`, `bn.reti`, `bn.rtnei` (`spec/44_jump_call.md` R339 to R342); their
completion, their refusals, and the stop of any instruction with several accesses as a whole (`spec/20_memory.md`
R68). All of them read or store a list of words given by index. -/

namespace Sys2Proof.Machine

/-! ### Several words by index -/

/-- The words at the addresses `a i`, for i below `n`. -/
def wordsAt (s : State) (n : Nat) (a : Nat → Word) : List Word := (List.range n).map fun i => wordAt s (a i)

@[simp] theorem wordsAt_length (s : State) (n : Nat) (a : Nat → Word) : (wordsAt s n a).length = n := by
  simp [wordsAt]

theorem loadWords_of_accessible {s : State} {n : Nat} {a : Nat → Word} (h : ∀ i, i < n → Accessible s (a i) 4) :
    loadWords s ((List.range n).map a) = .ok (wordsAt s n a) := by
  rw [loadWords_of_check, List.map_map]
  · refine congrArg Access.ok (List.map_congr_left fun i _ => ?_)
    exact readValue_eq_numberAt s (a i) 4 (by decide)
  · intro b hb
    obtain ⟨i, hi, rfl⟩ := List.mem_map.mp hb
    exact (h i (List.mem_range.mp hi)).check

/-- The state after the words `v i` are stored at the addresses `a i`, for i below `n`. -/
def storeAll (s : State) (n : Nat) (a v : Nat → Word) : State :=
  ((List.range n).map fun i => (a i, v i)).foldl (fun u e => u.writeValue e.1 4 e.2) s

theorem storeWords_of_writable {s : State} {n : Nat} {a : Nat → Word} (v : Nat → Word)
    (h : ∀ i, i < n → Writable s (a i) 4) :
    storeWords ((List.range n).map fun i => (a i, v i)) s = .ok (storeAll s n a v) := by
  refine storeWords_of_check fun e he => ?_
  obtain ⟨i, hi, rfl⟩ := List.mem_map.mp he
  exact (h i (List.mem_range.mp hi)).check

/-- Several stores change memory and marks, nothing else. -/
theorem storeAll_frame (s : State) (n : Nat) (a v : Nat → Word) :
    storeAll s n a v = { s with mem := (storeAll s n a v).mem, stored := (storeAll s n a v).stored } :=
  foldl_writeValue_frame _ s

@[simp] theorem storeAll_pc (s : State) (n : Nat) (a v : Nat → Word) : (storeAll s n a v).pc = s.pc := by
  rw [storeAll_frame]

theorem storeAll_params (s : State) (n : Nat) (a v : Nat → Word) : (storeAll s n a v).params = s.params := by
  rw [storeAll_frame]

theorem mem_addrsFrom {a b : Word} {n : Nat} : b ∈ addrsFrom a n ↔ ∃ k, k < n ∧ addrAt a k = b := by
  simp [addrsFrom]

/-- Several stores change the bytes of the stored words and nothing else. -/
theorem keeps_storeAll (s : State) (n : Nat) (a v : Nat → Word) :
    Keeps { mem := (List.range n).flatMap fun i => addrsFrom (a i) 4 } s (storeAll s n a v) := by
  constructor
  case mem =>
    intro b hb
    refine readByte_foldl_writeValue_outside _ s b fun e he k hk hbk => hb ?_
    obtain ⟨i, hi, rfl⟩ := List.mem_map.mp he
    exact List.mem_flatMap.mpr ⟨i, hi, mem_addrsFrom.mpr ⟨k, hk, hbk.symm⟩⟩
  case stored =>
    intro m
    rw [storeAll, mem_foldl_writeValue_stored]
    simp only [List.mem_map, List.mem_flatMap, mem_addrsFrom, exists_exists_and_eq_and]
    refine or_congr Iff.rfl ⟨?_, ?_⟩
    · rintro ⟨i, hi, k, hk, rfl⟩
      exact ⟨_, ⟨i, hi, k, hk, rfl⟩, rfl⟩
    · rintro ⟨_, ⟨i, hi, k, hk, rfl⟩, rfl⟩
      exact ⟨i, hi, k, hk, rfl⟩
  case asm | params | irq => rw [storeAll_frame]
  all_goals rw [storeAll_frame]; intros; simp [State.reg]

/-- No two of the words overlap. -/
def Disjoint4 (n : Nat) (a : Nat → Word) : Prop :=
  ∀ i j, i < j → j < n → ∀ m k, m < 4 → k < 4 → addrAt (a i) k ≠ addrAt (a j) m

/-- Where no two words overlap, each is found at its place. -/
theorem storedAt_storeAll {s : State} {n : Nat} {a : Nat → Word} (v : Nat → Word) (hd : Disjoint4 n a) {i : Nat}
    (hi : i < n) : StoredAt (storeAll s n a v) (a i) 4 (v i) := by
  intro k hk
  have h := readByte_foldl_writeValue ((List.range n).map fun i => (a i, v i)) s i (by simpa using hi)
    (fun j hij hj m k hm hk => by simpa using hd i j hij (by simpa using hj) m k hm hk) k hk
  simp only [List.getElem_map, List.getElem_range] at h
  rw [storeAll_params, ← byteOf_eq]
  exact h

/-! ### Register lists -/

theorem pastLastReg_eq_false {r : RegNum} {n : Nat} (h : r.toNat + n ≤ 32) : pastLastReg r n = false :=
  decide_eq_false (by omega)

theorem pastLastReg_eq_true {r : RegNum} {n : Nat} (h : 32 < r.toNat + n) : pastLastReg r n = true :=
  decide_eq_true h

/-- The table of word counts (R374). -/
theorem wordCount_eq (C : BitVec 2) : wordCount C = [2, 3, 4, 8].getD C.toNat 0 :=
  (by decide : ∀ C : BitVec 2, wordCount C = [2, 3, 4, 8].getD C.toNat 0) C

/-- A list of words loaded into consecutive registers. -/
theorem holds_setRegs {s : State} {vs : List Word} {r : RegNum} (hl : vs.length ≤ 32) {i : Nat}
    (hi : i < vs.length) : Holds (setRegs vs r s) (r + BitVec.ofNat 5 i) vs[i] :=
  setRegs_reg vs r s hl i hi

theorem keeps_setRegs (s : State) (vs : List Word) (r : RegNum) :
    Keeps { regs := regsFrom r vs.length } s (setRegs vs r s) := by
  constructor
  case regs =>
    intro q hq
    refine setRegs_reg_outside vs r q s fun k hk e => hq ?_
    exact List.mem_map.mpr ⟨k, List.mem_range.mpr hk, e.symm⟩
  case asm | params | irq => rw [setRegs_frame]
  all_goals rw [setRegs_frame]; intros; simp [State.readByte]

@[simp] theorem setRegs_pc (vs : List Word) (r : RegNum) (s : State) : (setRegs vs r s).pc = s.pc := by
  rw [setRegs_frame]

/-! ### Multiple load and store -/

/-- The words of a list follow the base (R374). -/
theorem wordAddrs_effAddr (s : State) (rA : RegNum) (K : BitVec 6) (n : Nat) :
    wordAddrs (effAddr s rA (offZ K 2)) n =
      (List.range n).map fun i => s.reg rA + BitVec.ofNat 32 (4 * K.toNat + 4 * i) := by
  refine List.map_congr_left fun i _ => ?_
  have hK : offZ K 2 = BitVec.ofNat 32 (4 * K.toNat) := by
    apply BitVec.eq_of_toNat_eq
    rw [offZ, BitVec.toNat_shiftLeft, BitVec.toNat_setWidth, BitVec.toNat_ofNat, Nat.shiftLeft_eq]
    omega
  rw [effAddr, addrAt, hK, BitVec.add_assoc, BitVec.ofNat_add]

/-- Words that follow each other do not overlap. -/
theorem disjoint4_words (b : Word) (m : Nat) {n : Nat} (hn : n ≤ 32) :
    Disjoint4 n fun i => b + BitVec.ofNat 32 (m + 4 * i) := by
  intro i j hij hj k l hk hl h
  have := congrArg BitVec.toNat h
  simp only [addrAt, BitVec.toNat_add, BitVec.toNat_ofNat] at this
  omega

theorem exec_bnMlwz (s : State) (rD rA : RegNum) (K : BitVec 6) (C : BitVec 2) :
    exec (.bnMlwz rD K rA C) s = loadMultiple rD rA (offZ K 2) ([2, 3, 4, 8].getD C.toNat 0) s := by
  rw [← wordCount_eq]; rfl

theorem exec_bnMsw (s : State) (rA rB : RegNum) (K : BitVec 6) (C : BitVec 2) :
    exec (.bnMsw K rA rB C) s = storeMultiple rB rA (offZ K 2) ([2, 3, 4, 8].getD C.toNat 0) s := by
  rw [← wordCount_eq]; rfl

theorem inRegList_eq_true {a r : RegNum} {n : Nat} (h1 : r.toNat ≤ a.toNat) (h2 : a.toNat < r.toNat + n) :
    inRegList a r n = true := by
  rw [inRegList, decide_eq_true h1, decide_eq_true h2]; rfl

theorem inRegList_eq_false {a r : RegNum} {n : Nat} (h : a.toNat < r.toNat ∨ r.toNat + n ≤ a.toNat) :
    inRegList a r n = false := by
  rw [inRegList, ← Bool.decide_and]
  exact decide_eq_false (by omega)

/-- A list within r31 that does not hold the base is loaded (R374). -/
theorem loadMultiple_of_list {rD rA : RegNum} {n : Nat} (h : rD.toNat + n ≤ 32)
    (hA : rA.toNat < rD.toNat ∨ rD.toNat + n ≤ rA.toNat) (K : BitVec 6) (s : State) :
    loadMultiple rD rA (offZ K 2) n s =
      ((loadWords s ((List.range n).map fun i => s.reg rA + BitVec.ofNat 32 (4 * K.toNat + 4 * i))).bind fun vs =>
        .ok ((setRegs vs rD s).advance .bn)).finish .bn s := by
  rw [loadMultiple, pastLastReg_eq_false h, inRegList_eq_false hA, wordAddrs_effAddr]; rfl

/-- A list within r31 is stored (R374). -/
theorem storeMultiple_of_list {rB : RegNum} {n : Nat} (h : rB.toNat + n ≤ 32) (rA : RegNum) (K : BitVec 6)
    (s : State) :
    storeMultiple rB rA (offZ K 2) n s =
      ((storeWords ((List.range n).map fun i =>
          (s.reg rA + BitVec.ofNat 32 (4 * K.toNat + 4 * i), s.reg (rB + BitVec.ofNat 5 i))) s).bind fun t =>
        .ok (t.advance .bn)).finish .bn s := by
  rw [storeMultiple, pastLastReg_eq_false h, wordAddrs_effAddr, regValues, List.zip_map']; rfl

/-- Settles O45: with the words read, the registers of the list are written. -/
theorem multipleLoad : Obligations.MultipleLoad := by
  intro s rD rA K C
  dsimp only
  intro hlist hbase hacc
  have hexec := (exec_bnMlwz s rD rA K C).trans (loadMultiple_of_list hlist hbase K s)
  generalize [2, 3, 4, 8].getD C.toNat 0 = n at *
  rw [loadWords_of_accessible hacc] at hexec
  refine ⟨_, hexec, fun i hi => ?words, advanced_advance .bn (by simp), ?keeps⟩
  case words =>
    have h := holds_setRegs (s := s) (r := rD) (vs := wordsAt s n fun i => s.reg rA + BitVec.ofNat 32 (4 * K.toNat + 4 * i))
      (by rw [wordsAt_length]; omega) (by simpa using hi)
    simpa [wordsAt, Holds] using h
  case keeps => exact (wordsAt_length s n _ ▸ keeps_setRegs s _ rD).advance .bn

/-- Settles O46: the words are stored one after another; they do not overlap. -/
theorem multipleStore : Obligations.MultipleStore := by
  intro s rA rB K C
  dsimp only
  intro hlist hacc
  have hexec := (exec_bnMsw s rA rB K C).trans (storeMultiple_of_list hlist rA K s)
  generalize [2, 3, 4, 8].getD C.toNat 0 = n at *
  rw [storeWords_of_writable _ hacc] at hexec
  refine ⟨_, hexec, fun i hi => ?words, advanced_advance .bn (by simp), (keeps_storeAll ..).advance .bn⟩
  case words =>
    have hd : Disjoint4 n fun i => s.reg rA + BitVec.ofNat 32 (4 * K.toNat + 4 * i) :=
      disjoint4_words _ _ (by omega)
    exact (storedAt_storeAll _ hd hi).congr rfl rfl

/-! ### Prologue and epilogue -/

/-- The list of I registers from r9 is within r31 for I up to 23 (R342). -/
theorem linkReg_list {I : Nat} (h : I ≤ 23) : linkReg.toNat + I ≤ 32 := by
  rw [show linkReg.toNat = 9 from rfl]; omega

theorem prologue_of_list {I : Nat} (h : I ≤ 23) (J : Nat) (s : State) :
    prologue I J s =
      ((storeWords ((List.range I).map fun i => (s.reg 1 - BitVec.ofNat 32 (4 * (i + 1)),
          s.reg (9 + BitVec.ofNat 5 i))) s).bind fun t =>
        .ok ((t.setReg 1 (s.reg 1 - BitVec.ofNat 32 (4 * (I + J)))).advance .bn)).finish .bn s := by
  rw [prologue, pastLastReg_eq_false (linkReg_list h)]; rfl

theorem epilogue_of_list {I : Nat} (h : I ≤ 23) (J : Nat) (s : State) :
    epilogue I J s = ((restored I J s).bind fun t => .ok (t.advance .bn)).finish .bn s := by
  rw [epilogue, pastLastReg_eq_false (linkReg_list h)]; rfl

theorem epilogueReturn_of_list {I : Nat} (h : I ≤ 23) (J : Nat) (s : State) :
    epilogueReturn I J s = ((restored I J s).bind fun t => .ok (t.setPc (t.reg linkReg))).finish .bn s := by
  rw [epilogueReturn, pastLastReg_eq_false (linkReg_list h)]; rfl

/-- The slots of a frame do not overlap. -/
theorem disjoint4_slots (S : Word) {n : Nat} (hn : n ≤ 23) :
    Disjoint4 n fun i => S - BitVec.ofNat 32 (4 * (i + 1)) := by
  intro i j hij hj k l hk hl h
  have := congrArg BitVec.toNat h
  simp only [addrAt, BitVec.toNat_add, BitVec.toNat_sub, BitVec.toNat_ofNat] at this
  omega

/-- Settles O40: the saved registers are stored in slots that do not overlap, then x[1] is lowered. -/
theorem prologueBuildsFrame : Obligations.PrologueBuildsFrame := by
  intro s F N
  dsimp only
  intro hF hslots
  have hexec : exec (.bnEntri F N) s = _ := prologue_of_list hF N.toNat s
  rw [storeWords_of_writable _ hslots] at hexec
  refine ⟨_, hexec, holds_setReg .., fun i hi => ?slots, advanced_advance .bn (by simp), ?keeps⟩
  case slots => exact (storedAt_storeAll _ (disjoint4_slots (s.reg 1) hF) hi).congr (State.setReg_params ..) (State.setReg_mem ..)
  case keeps => exact ((keeps_storeAll ..).setReg 1 _).advance .bn

/-- The address of the slot that an epilogue reads for r(9+i) (R340). -/
def restoreSlot (s : State) (I J i : Nat) : Word := s.reg 1 + BitVec.ofNat 32 (4 * (I - i - 1 + J))

/-- The state after the loads of an epilogue and the release of the frame. -/
def unwound (s : State) (I J : Nat) : State :=
  (setRegs (wordsAt s I (restoreSlot s I J)) 9 s).setReg 1 (s.reg 1 + BitVec.ofNat 32 (4 * (I + J)))

theorem restored_of_accessible {s : State} {I J : Nat} (h : ∀ i, i < I → Accessible s (restoreSlot s I J i) 4) :
    restored I J s = .ok (unwound s I J) := by
  have hl := loadWords_of_accessible h
  unfold restored
  exact congrArg (Access.bind · _) hl

/-- The register 9 + i of a list of at most 23 is not the stack pointer. -/
theorem savedReg_ne_sp {i : Nat} (hi : i < 23) : (9 + BitVec.ofNat 5 i : RegNum) ≠ 1 := by
  intro h
  have h := congrArg BitVec.toNat h
  rw [BitVec.toNat_add, BitVec.toNat_ofNat, show (9 : RegNum).toNat = 9 from rfl,
    show (1 : RegNum).toNat = 1 from rfl] at h
  omega

/-- What an epilogue leaves, whatever pc it goes to. -/
theorem unwound_restores (s : State) {I : Nat} (hI : I ≤ 23) (J : Nat) (pc : Word) :
    Holds ((unwound s I J).setPc pc) 1 (s.reg 1 + BitVec.ofNat 32 (4 * (I + J))) ∧
      (∀ i, i < I → Holds ((unwound s I J).setPc pc) (9 + BitVec.ofNat 5 i) (wordAt s (restoreSlot s I J i))) ∧
      Keeps { regs := 1 :: regsFrom 9 I } s ((unwound s I J).setPc pc) := by
  refine ⟨holds_setReg .., fun i hi => ?regs, ?keeps⟩
  case regs =>
    have h := holds_setRegs (s := s) (r := 9) (vs := wordsAt s I (restoreSlot s I J))
      (by rw [wordsAt_length]; omega) (by simpa using hi)
    rw [Holds, State.setPc_reg, unwound, State.reg_setReg_of_ne _ _ (savedReg_ne_sp (by omega))]
    simpa [wordsAt, Holds] using h
  case keeps =>
    have h := keeps_setRegs s (wordsAt s I (restoreSlot s I J)) 9
    rw [wordsAt_length] at h
    exact (h.setReg 1 _).setPc pc

/-- Settles O41: both epilogues unwind the frame, and go to the restored r9 or to the next instruction. -/
theorem epilogueRestoresFrame : Obligations.EpilogueRestoresFrame := by
  intro s F N
  dsimp only
  intro hF hslots
  have hrestored := restored_of_accessible (s := s) (J := N.toNat) hslots
  have hreti : exec (.bnReti F N) s = _ := epilogueReturn_of_list hF N.toNat s
  have hrtnei : exec (.bnRtnei F N) s = _ := epilogue_of_list hF N.toNat s
  rw [hrestored] at hreti hrtnei
  exact ⟨⟨_, hreti, unwound_restores s hF _ _, rfl⟩,
    ⟨_, hrtnei, unwound_restores s hF _ _, advanced_advance .bn (by simp [unwound])⟩⟩

/-! ### The epilogue after the prologue -/

/-- The slots of an epilogue with the operands of the prologue are those the prologue stored to (R342). -/
theorem restoreSlot_of_prologue {s u : State} {I J : Nat}
    (hsp : u.reg 1 = s.reg 1 - BitVec.ofNat 32 (4 * (I + J))) {i : Nat} (hi : i < I) :
    restoreSlot u I J i = s.reg 1 - BitVec.ofNat 32 (4 * (i + 1)) := by
  rw [restoreSlot, hsp]
  apply BitVec.eq_of_toNat_eq
  simp only [BitVec.toNat_add, BitVec.toNat_sub, BitVec.toNat_ofNat]
  omega

/-- A place that can be written can be read in every state with the same parameters. -/
theorem Writable.accessible_of_params {s u : State} {a : Word} {n : Nat} (h : Writable s a n)
    (hp : u.params = s.params) : Accessible u a n := by
  rw [Accessible, AlignedOrSplit, hp]; exact h.1

/-- A stored word is the word in memory. -/
theorem StoredAt.wordAt_eq {t : State} {a v : Word} (h : StoredAt t a 4 v) : wordAt t a = v := by
  rw [wordAt, h.numberAt_eq]
  apply BitVec.eq_of_toNat_eq
  rw [BitVec.toNat_ofNat]
  exact (Nat.mod_mod _ _).trans (Nat.mod_eq_of_lt v.isLt)

/-- A register other than x[0] holds its value as it is. -/
theorem Holds.reg_eq {t : State} {r : RegNum} {v : Word} (h : Holds t r v) (hr : r ≠ 0) : t.reg r = v :=
  h.trans (if_neg hr)

/-- A register that holds the value of a register of another state reads the same. -/
theorem Holds.reg_eq_reg {s t : State} {r : RegNum} (h : Holds t r (s.reg r)) : t.reg r = s.reg r := by
  by_cases hr : r = 0
  · subst hr; rfl
  · exact h.reg_eq hr

/-- Settles O42: the epilogue reads, at the slots of the prologue, what the prologue stored there. -/
theorem epilogueUndoesPrologue : Obligations.EpilogueUndoesPrologue := by
  intro s t u F N hF hslots hentri hmem hparams hsp
  obtain ⟨t', ht', hsp', hstored, -, hkeeps⟩ := prologueBuildsFrame s F N hF hslots
  obtain rfl : t = t' := Host.Outcome.next.inj (hentri.symm.trans ht')
  have hspu : u.reg 1 = s.reg 1 - BitVec.ofNat 32 (4 * (F.toNat + N.toNat)) :=
    hsp.trans (hsp'.reg_eq (by decide))
  have hslot : ∀ i, i < F.toNat → restoreSlot u F.toNat N.toNat i = s.reg 1 - BitVec.ofNat 32 (4 * (i + 1)) :=
    fun i hi => restoreSlot_of_prologue hspu hi
  have hacc : ∀ i, i < F.toNat → Accessible u (restoreSlot u F.toNat N.toNat i) 4 := fun i hi =>
    hslot i hi ▸ (hslots i hi).accessible_of_params (hparams.trans hkeeps.params)
  have hword : ∀ i, i < F.toNat → wordAt u (restoreSlot u F.toNat N.toNat i) = s.reg (9 + BitVec.ofNat 5 i) :=
    fun i hi => hslot i hi ▸ ((hstored i hi).congr hparams hmem).wordAt_eq
  have hback : u.reg 1 + BitVec.ofNat 32 (4 * (F.toNat + N.toNat)) = s.reg 1 := by
    rw [hspu, BitVec.sub_add_cancel]
  obtain ⟨⟨v, hv, ⟨hv1, hvregs, -⟩, hvpc⟩, ⟨w, hw, ⟨hw1, hwregs, -⟩, -⟩⟩ := epilogueRestoresFrame u F N hF hacc
  have hregs : ∀ x : State, (∀ i, i < F.toNat → Holds x (9 + BitVec.ofNat 5 i)
      (wordAt u (restoreSlot u F.toNat N.toNat i))) →
      ∀ i, i < F.toNat → x.reg (9 + BitVec.ofNat 5 i) = s.reg (9 + BitVec.ofNat 5 i) :=
    fun x hx i hi => Holds.reg_eq_reg (hword i hi ▸ hx i hi)
  refine ⟨⟨w, hw, (hw1.reg_eq (by decide)).trans hback, hregs w hwregs⟩,
    ⟨v, hv, (hv1.reg_eq (by decide)).trans hback, hregs v hvregs, fun h1 => ?pc⟩⟩
  case pc => exact hvpc.trans (hregs v hvregs 0 h1)

/-! ### Refusals -/

/-- Settles O52: the list is checked before anything else, the base before any access (log 23). -/
theorem registerListRefusals : Obligations.RegisterListRefusals := by
  intro s rD rA rB K C F N
  have hrange : 31 < 9 + F.toNat - 1 → pastLastReg linkReg F.toNat = true := fun h =>
    pastLastReg_eq_true (by rw [show linkReg.toNat = 9 from rfl]; omega)
  refine ⟨fun h => ?mlwz, fun h h1 h2 => ?base, fun h => ?msw, fun h => ⟨?entri, ?reti, ?rtnei⟩⟩
  case mlwz => exact (exec_bnMlwz ..).trans (if_pos (pastLastReg_eq_true h))
  case base =>
    refine (exec_bnMlwz ..).trans ?_
    rw [loadMultiple, pastLastReg_eq_false h, inRegList_eq_true h1 h2]; rfl
  case msw => exact (exec_bnMsw ..).trans (if_pos (pastLastReg_eq_true h))
  case entri => exact if_pos (hrange h)
  case reti => exact if_pos (hrange h)
  case rtnei => exact if_pos (hrange h)

/-! ### Stops -/

/-- The word of index `k` of a list of words. -/
theorem getElem?_range_map {α : Type} {n k : Nat} (f : Nat → α) (h : k < n) :
    ((List.range n).map f)[k]? = some (f k) := by
  simp [h]

/-- An instruction that reads words by index stops at the first access that does. -/
theorem stopsAt_of_loadWords_range {i : Instr} {s : State} {n k : Nat} {a : Nat → Word} (c : LenClass)
    {g : List Word → Access State} (hk : k < n) (hpre : ∀ j, j < k → Accessible s (a j) 4)
    (h : exec i s = ((loadWords s ((List.range n).map a)).bind g).finish c s) :
    StopsAt .read i s (a k) 4 c.bytes := by
  refine stopsAt_of_loadWords c (getElem?_range_map a hk) (fun j b hj hb => ?_) h
  rw [getElem?_range_map a (Nat.lt_trans hj hk)] at hb
  exact Option.some.inj hb ▸ hpre j hj

/-- An instruction that stores words by index stops at the first access that does. -/
theorem stopsAt_of_storeWords_range {i : Instr} {s : State} {n k : Nat} {a v : Nat → Word} (c : LenClass)
    {g : State → Access State} (hk : k < n) (hpre : ∀ j, j < k → Writable s (a j) 4)
    (h : exec i s = ((storeWords ((List.range n).map fun i => (a i, v i)) s).bind g).finish c s) :
    StopsAt .write i s (a k) 4 c.bytes := by
  refine stopsAt_of_storeWords c (getElem?_range_map _ hk) (fun j e hj he => ?_) h
  rw [getElem?_range_map _ (Nat.lt_trans hj hk)] at he
  exact Option.some.inj he ▸ hpre j hj

/-- Settles O51: the first access that is not performed decides; what went before it is not kept. -/
theorem multiAccessStopsAsAWhole : Obligations.MultiAccessStopsAsAWhole := by
  intro s rD rA rB K C F N z k
  dsimp only
  refine ⟨stopsAt_of_readWrite .bn rfl, stopsAt_of_readWrite .bn rfl, ?jma, fun hD => ?jmal, ?lmaPointer, ?smaPointer,
    fun hp => ⟨?lma, ?sma⟩, fun hl hb hk hpre => ?mlwz, fun hl hk hpre => ?msw,
    fun hF hk => ⟨fun hpre => ?entri, fun hpre => ⟨?reti, ?rtnei⟩⟩⟩
  case jma => exact stopsAt_of_memRead .bw (exec_bwJma rD z s)
  case jmal => exact stopsAt_of_memRead .bw ((exec_bwJmal rD z s).trans (if_neg hD))
  case lmaPointer => exact stopsAt_of_memRead .bw (exec_bwLma rD z s)
  case smaPointer => exact stopsAt_of_memRead .bw (exec_bwSma rB z s)
  case lma => exact stopsAt_of_memRead .bw ((exec_bwLma rD z s).trans (loadThrough_of_accessible hp rD))
  case sma => exact stopsAt_of_memWrite .bw ((exec_bwSma rB z s).trans (storeThrough_of_accessible hp rB))
  case mlwz =>
    exact stopsAt_of_loadWords_range .bn hk hpre ((exec_bnMlwz ..).trans (loadMultiple_of_list hl hb K s))
  case msw =>
    exact stopsAt_of_storeWords_range .bn hk hpre ((exec_bnMsw ..).trans (storeMultiple_of_list hl rA K s))
  case entri => exact stopsAt_of_storeWords_range .bn hk hpre (prologue_of_list hF N.toNat s)
  case reti =>
    have h : exec (.bnReti F N) s = _ := epilogueReturn_of_list hF N.toNat s
    rw [restored, Access.bind_assoc] at h
    exact stopsAt_of_loadWords_range .bn hk hpre h
  case rtnei =>
    have h : exec (.bnRtnei F N) s = _ := epilogue_of_list hF N.toNat s
    rw [restored, Access.bind_assoc] at h
    exact stopsAt_of_loadWords_range .bn hk hpre h

end Sys2Proof.Machine
end

section
/-! PROOFS. System instructions (`spec/46_system.md` R400 to R408): exceptions raised and returned from, the interrupt
enables, the moves of special-purpose registers. For the last, the invariant makes the map from numbers to registers
a bijection on the mapped ones. -/

namespace Sys2Proof.Machine

/-! ### Exceptions -/

theorem mem_allBits : ∀ b : BitPos, b ∈ allBits := by decide

theorem entersException_of_raise {i : Instr} {s : State} {vec : Word} {e : EpcrRule} (c : LenClass)
    (h : exec i s = .next (enterException vec (epcrValue e s c) s)) :
    EntersException i s vec (savedPc e s c.bytes) :=
  ⟨_, h, epcrValue_eq_savedPc e s c ▸ entered_enterException vec (epcrValue e s c) s⟩

theorem exec_bSys (imm : Option Word) (s : State) :
    exec (.bSys imm) s = .next (raiseSystemCall s.params.lenOf.sys s) := rfl

theorem exec_btTrap_of_set {G : BitVec 4} {s : State} (h : s.sr.getLsbD G.toNat = true) :
    exec (.btTrap G) s = .next (raiseTrap .bt s) :=
  congrArg Host.Outcome.next (if_pos h)

theorem exec_btTrap_of_clear {G : BitVec 4} {s : State} (h : s.sr.getLsbD G.toNat = false) :
    exec (.btTrap G) s = jumpTo (s.pc + 2) s :=
  congrArg Host.Outcome.next (if_neg (by rw [h]; exact Bool.false_ne_true))

/-- Settles O53: the system call always, the trap where its bit is set; else the trap only advances. -/
theorem systemCallAndTrap : Obligations.SystemCallAndTrap := by
  intro s imm G
  refine ⟨?sys, fun h => ?trap, fun h => ?advance⟩
  case sys => exact entersException_of_raise s.params.lenOf.sys (exec_bSys imm s)
  case trap => exact entersException_of_raise .bt (exec_btTrap_of_set h)
  case advance => exact goesTo_of_jumpTo (exec_btTrap_of_clear h)

theorem exec_btRfe (s : State) : exec .btRfe s = .next { s with pc := s.epcr, sr := s.esr } := rfl

/-- A state that differs in pc and SR alone. -/
theorem keeps_of_pc_sr (s : State) (pc sr : Word) : Keeps { sr := allBits } s { s with pc := pc, sr := sr } := by
  constructor <;> intros <;> simp_all [State.reg, State.readByte, mem_allBits]

/-- A state that differs in pc, ESR and EPCR alone. -/
theorem keeps_of_pc_exc (s : State) (pc esr epcr : Word) :
    Keeps { exc := true } s { s with pc := pc, esr := esr, epcr := epcr } := by
  constructor <;> intros <;> simp_all [State.reg, State.readByte]

/-! ### Interrupt enables -/

/-- Both enables written. -/
def withInterrupts (s : State) (b : Bool) : State := (s.setSr (withEnables s.params s.sr b)).advance .bt

theorem exec_btEi (s : State) : exec .btEi s = .next (withInterrupts s true) := rfl

theorem exec_btDi (s : State) : exec .btDi s = .next (withInterrupts s false) := rfl

theorem flagIee_withInterrupts (s : State) (b : Bool) : (withInterrupts s b).flagIee = b := by
  simp [withInterrupts, State.flagIee, bitAt_withEnables]

theorem flagTee_withInterrupts (s : State) (b : Bool) : (withInterrupts s b).flagTee = b := by
  simp [withInterrupts, State.flagTee, bitAt_withEnables]

theorem keeps_withInterrupts (s : State) (b : Bool) :
    Keeps { sr := [s.params.srBit.iee, s.params.srBit.tee] } s (withInterrupts s b) := by
  constructor <;> intros <;> simp_all [withInterrupts, bitAt_withEnables]

/-- Settles O55: with both enables 0 no interrupt is taken. -/
theorem interruptEnables : Obligations.InterruptEnables := by
  intro s
  have hiee := flagIee_withInterrupts s false
  have htee := flagTee_withInterrupts s false
  refine ⟨⟨_, exec_btEi s, ?iee, ?tee, advanced_advance .bt rfl, keeps_withInterrupts s true⟩,
    ⟨_, exec_btDi s, hiee, htee, quiet_of_disabled hiee htee, advanced_advance .bt rfl,
      keeps_withInterrupts s false⟩⟩
  case iee => exact flagIee_withInterrupts s true
  case tee => exact flagTee_withInterrupts s true

/-! ### The map of the special-purpose registers -/

/-- The number of a named register, where the platform maps it (R40). -/
def SprName.number (a : SprAddr) : SprName → Option Word
  | .sr => a.sr
  | .esr => a.esr
  | .epcr => a.epcr
  | .machi => a.machi
  | .maclo => a.maclo
  | .ur => a.ur
  | .platform _ => none

/-- The six named registers, in the order of their lookup. -/
def namedSprs : List SprName := [.sr, .esr, .epcr, .machi, .maclo, .ur]

theorem sprNumbers_eq (a : SprAddr) (extra : List (Word × Word)) :
    sprNumbers a extra = namedSprs.filterMap (SprName.number a) ++ extra.map Prod.fst := by
  rw [← Function.id_comp (SprName.number a), ← List.filterMap_map]
  rfl

theorem mem_namedSprs_of_number {a : SprAddr} {r : SprName} {n : Word} (h : r.number a = some n) : r ∈ namedSprs := by
  cases r with
  | platform m => cases h
  | _ => decide

/-- No two named registers have one number. -/
theorem StateWf.number_inj {s : State} (hw : StateWf s) {r q : SprName} {n : Word}
    (hr : r.number s.params.sprAddr = some n) (hq : q.number s.params.sprAddr = some n) : r = q := by
  have hnodup := hw.spr
  rw [sprNumbers_eq, List.nodup_append] at hnodup
  obtain ⟨hnamed, -, -⟩ := hnodup
  rw [List.nodup_iff_pairwise_ne, List.pairwise_filterMap] at hnamed
  by_contra hne
  have hsymm : Std.Symm fun x y : SprName => ∀ m, x.number s.params.sprAddr = some m →
      ∀ m', y.number s.params.sprAddr = some m' → m ≠ m' :=
    ⟨fun x y hxy m hm m' hm' e => hxy m' hm' m hm e.symm⟩
  exact hnamed.forall (mem_namedSprs_of_number hr) (mem_namedSprs_of_number hq) hne n hr n hq rfl

/-- The lookup tries the named registers in their order, then the platform's own (R40, log 30). -/
theorem sprOf_eq_find (s : State) (n : Word) :
    sprOf s n = (namedSprs.find? fun r => decide (r.number s.params.sprAddr = some n)).or
      (if s.extraSpr.any (fun e => e.1 == n) then some (.platform n) else none) := by
  unfold sprOf namedSprs
  dsimp only
  repeat' split
  all_goals simp_all [List.find?, SprName.number]

/-- The named register at a number is the one the lookup finds. -/
theorem StateWf.sprOf_named {s : State} (hw : StateWf s) {r : SprName} {n : Word}
    (hr : r.number s.params.sprAddr = some n) : sprOf s n = some r := by
  rw [sprOf_eq_find]
  cases hfind : namedSprs.find? fun r => decide (r.number s.params.sprAddr = some n) with
  | none => exact absurd (decide_eq_true hr) (List.find?_eq_none.mp hfind r (mem_namedSprs_of_number hr))
  | some q =>
    have hq : q.number s.params.sprAddr = some n := by simpa using List.find?_some hfind
    rw [hw.number_inj hr hq]; rfl

/-- The lookup at a number that no named register has goes to the platform's own (R40, log 30). -/
theorem sprOf_of_unnamed {s : State} {n : Word} (h : n ∉ namedSprs.filterMap (SprName.number s.params.sprAddr)) :
    sprOf s n = if s.extraSpr.any (fun e => e.1 == n) then some (.platform n) else none := by
  have hfind : (namedSprs.find? fun r => decide (r.number s.params.sprAddr = some n)) = none :=
    List.find?_eq_none.mpr fun r hr hn => h (List.mem_filterMap.mpr ⟨r, hr, of_decide_eq_true hn⟩)
  rw [sprOf_eq_find, hfind, Option.none_or]

theorem any_key_iff (l : List (Word × Word)) (n : Word) :
    (l.any fun e => e.1 == n) = true ↔ n ∈ l.map Prod.fst := by
  simp

/-- The platform's register at a number is the one the lookup finds. -/
theorem StateWf.sprOf_platform {s : State} (hw : StateWf s) {n : Word} (hn : n ∈ s.extraSpr.map Prod.fst) :
    sprOf s n = some (.platform n) := by
  have hnodup := hw.spr
  rw [sprNumbers_eq, List.nodup_append] at hnodup
  obtain ⟨-, -, hdisjoint⟩ := hnodup
  rw [sprOf_of_unnamed fun hmem => hdisjoint n hmem n hn rfl, if_pos ((any_key_iff _ _).mpr hn)]

/-- A number of no register is found nowhere (R41). -/
theorem sprOf_eq_none {s : State} {n : Word} (hn : n ∉ sprNumbers s.params.sprAddr s.extraSpr) : sprOf s n = none := by
  rw [sprNumbers_eq, List.mem_append, not_or] at hn
  obtain ⟨hnamed, hextra⟩ := hn
  rw [sprOf_of_unnamed hnamed, if_neg (mt (any_key_iff _ _).mp hextra)]

/-! ### The registers the platform adds -/

theorem extraRead_of_mem {l : List (Word × Word)} {n v : Word} (hl : (l.map Prod.fst).Nodup) (h : (n, v) ∈ l) :
    extraRead l n = v := by
  induction l with
  | nil => cases h
  | cons e l ih =>
    obtain ⟨k, x⟩ := e
    obtain ⟨hk, hl⟩ := List.nodup_cons.mp hl
    unfold extraRead
    rcases List.mem_cons.mp h with he | hmem
    · cases he; exact if_pos rfl
    · have hne : k ≠ n := fun e => hk (List.mem_map.mpr ⟨_, hmem, e.symm⟩)
      rw [if_neg hne]
      exact ih hl hmem

theorem extraWrite_eq_map {l : List (Word × Word)} {n : Word} (hl : (l.map Prod.fst).Nodup) (v : Word) :
    extraWrite l n v = l.map fun e => if e.1 = n then (n, v) else e := by
  induction l with
  | nil => rfl
  | cons e l ih =>
    obtain ⟨k, x⟩ := e
    obtain ⟨hk, hl⟩ := List.nodup_cons.mp hl
    unfold extraWrite
    rw [List.map_cons]
    by_cases hkn : k = n
    · subst hkn
      have hrest : l.map (fun e => if e.1 = k then (k, v) else e) = l := by
        refine (List.map_congr_left fun e he => if_neg fun e1 => ?_).trans (List.map_id l)
        exact hk (List.mem_map.mpr ⟨e, he, e1⟩)
      rw [if_pos rfl, if_pos rfl, hrest]
    · rw [if_neg hkn, if_neg hkn, ih hl]

theorem StateWf.extra_nodup {s : State} (hw : StateWf s) : (s.extraSpr.map Prod.fst).Nodup := by
  have hnodup := hw.spr
  rw [sprNumbers_eq, List.nodup_append] at hnodup
  exact hnodup.2.1

/-! ### Moves from and to special-purpose registers -/

theorem exec_bwMfspr (rD rA : RegNum) (o : BitVec 32) (s : State) :
    exec (.bwMfspr rD rA o) s = moveFromSpr rD (s.reg rA ||| o) s :=
  congrArg (fun off => moveFromSpr rD (s.reg rA ||| off) s) (immZ_word o)

theorem exec_bwMtspr (rA rB : RegNum) (o : BitVec 32) (s : State) :
    exec (.bwMtspr rA rB o) s = moveToSpr (s.reg rA ||| o) (s.reg rB) s :=
  congrArg (fun off => moveToSpr (s.reg rA ||| off) (s.reg rB) s) (immZ_word o)

/-- A read of a mapped register (R405). -/
theorem setsReg_of_sprOf {s : State} {rA : RegNum} {o : BitVec 32} {r : SprName}
    (h : sprOf s (s.reg rA ||| o) = some r) (rD : RegNum) :
    SetsReg (.bwMfspr rD rA o) s rD (readSpr s r) 6 := by
  refine setsReg_of_writeBack .bw ((exec_bwMfspr rD rA o s).trans ?_)
  rw [moveFromSpr, h]

/-- A write of a mapped register (R406). -/
theorem exec_bwMtspr_of_sprOf {s : State} {rA : RegNum} {o : BitVec 32} {r : SprName}
    (h : sprOf s (s.reg rA ||| o) = some r) (rB : RegNum) :
    exec (.bwMtspr rA rB o) s = .next ((writeSpr s r (s.reg rB)).advance .bw) := by
  refine (exec_bwMtspr rA rB o s).trans ?_
  rw [moveToSpr, h]

/-- The frame of a register by its name. -/
def SprName.frame : SprName → Frame
  | .sr => { sr := allBits }
  | .esr | .epcr => { exc := true }
  | .machi | .maclo => { mac := true }
  | .ur => { ur := allBits }
  | .platform _ => { extra := true }

theorem keeps_writeSpr (s : State) (r : SprName) (v : Word) : Keeps r.frame s (writeSpr s r v) := by
  cases r <;> constructor <;> intros <;> simp_all [writeSpr, SprName.frame, mem_allBits]

theorem writeSpr_pc (s : State) (r : SprName) (v : Word) : (writeSpr s r v).pc = s.pc := by
  rw [writeSpr_frame]

/-- A write of a mapped register completes with that register written and its frame kept. -/
theorem completes_of_sprOf {s : State} {rA : RegNum} {o : BitVec 32} {r : SprName}
    (h : sprOf s (s.reg rA ||| o) = some r) (rB : RegNum) {P : State → Prop}
    (hP : P ((writeSpr s r (s.reg rB)).advance .bw)) :
    Completes (.bwMtspr rA rB o) s fun t => P t ∧ Advanced s t 6 ∧ Keeps r.frame s t :=
  ⟨_, exec_bwMtspr_of_sprOf h rB, hP, advanced_advance .bw (writeSpr_pc ..), (keeps_writeSpr ..).advance .bw⟩

/-- Settles O56: the lookup finds the register of the number; reads and writes are those of that register. -/
theorem specialRegisterMoves : Obligations.SpecialRegisterMoves := by
  intro s rD rA rB o hw
  dsimp only
  have hsr : s.params.sprAddr.sr = some (s.reg rA ||| o) → _ := fun h => hw.sprOf_named (r := .sr) h
  have hesr : s.params.sprAddr.esr = some (s.reg rA ||| o) → _ := fun h => hw.sprOf_named (r := .esr) h
  have hepcr : s.params.sprAddr.epcr = some (s.reg rA ||| o) → _ := fun h => hw.sprOf_named (r := .epcr) h
  have hmachi : s.params.sprAddr.machi = some (s.reg rA ||| o) → _ := fun h => hw.sprOf_named (r := .machi) h
  have hmaclo : s.params.sprAddr.maclo = some (s.reg rA ||| o) → _ := fun h => hw.sprOf_named (r := .maclo) h
  have hur : s.params.sprAddr.ur = some (s.reg rA ||| o) → _ := fun h => hw.sprOf_named (r := .ur) h
  refine ⟨fun h => ⟨setsReg_of_sprOf (hsr h) rD, completes_of_sprOf (hsr h) rB rfl⟩,
    fun h => ⟨setsReg_of_sprOf (hesr h) rD, completes_of_sprOf (hesr h) rB rfl⟩,
    fun h => ⟨_, exec_bwMtspr_of_sprOf (hesr h) rB, rfl⟩,
    fun h => ⟨setsReg_of_sprOf (hepcr h) rD, completes_of_sprOf (hepcr h) rB rfl⟩,
    fun h => ⟨_, exec_bwMtspr_of_sprOf (hepcr h) rB, rfl⟩,
    fun h => ⟨setsReg_of_sprOf (hmachi h) rD, completes_of_sprOf (hmachi h) rB rfl⟩,
    fun h => ⟨_, exec_bwMtspr_of_sprOf (hmachi h) rB, rfl⟩,
    fun h => ⟨setsReg_of_sprOf (hmaclo h) rD, completes_of_sprOf (hmaclo h) rB rfl⟩,
    fun h => ⟨_, exec_bwMtspr_of_sprOf (hmaclo h) rB, rfl⟩,
    fun h => ⟨setsReg_of_sprOf (hur h) rD, completes_of_sprOf (hur h) rB rfl⟩,
    fun v hv => ?platform, fun hn => ?unmapped⟩
  case platform =>
    have h := hw.sprOf_platform (List.mem_map_of_mem (f := Prod.fst) hv)
    refine ⟨?_, completes_of_sprOf h rB (extraWrite_eq_map hw.extra_nodup _)⟩
    exact extraRead_of_mem hw.extra_nodup hv ▸ setsReg_of_sprOf h rD
  case unmapped =>
    have h := sprOf_eq_none hn
    refine ⟨(exec_bwMfspr ..).trans ?_, (exec_bwMtspr ..).trans ?_⟩
    · rw [moveFromSpr, h]
    · rw [moveToSpr, h]

end Sys2Proof.Machine

namespace Sys2Proof

open Machine

/-- Settles O54: the return writes pc and SR; after a system call these are the saved ones. -/
theorem returnFromException : Obligations.ReturnFromException := by
  intro s
  refine ⟨⟨_, exec_btRfe s, rfl, rfl, keeps_of_pc_sr s _ _⟩, fun imm t ht => ?afterCall⟩
  case afterCall =>
    cases Host.Outcome.next.inj ((exec_bSys imm s).symm.trans ht)
    refine ⟨_, exec_btRfe _, rfl, ?_, keeps_of_pc_exc s _ _ _⟩
    exact epcrValue_eq_savedPc s.params.epcrOnSys s s.params.lenOf.sys

end Sys2Proof
end

section
/-! PROOFS. Floating-point arithmetic (`spec/47_float.md` R421 to R428): a register, and bits of UR written one after
another. At distinct positions each bit reads as it was written, in whatever order. -/

namespace Sys2Proof.Machine

/-! ### Several bits of a word -/

/-- A word after bits are written, one after another. -/
def writeBits (v : Word) (l : List (BitPos × Bool)) : Word := l.foldl (fun v e => withBit v e.1 e.2) v

theorem bitAt_writeBits_of_notMem {l : List (BitPos × Bool)} {j : BitPos} (v : Word) (h : j ∉ l.map Prod.fst) :
    bitAt (writeBits v l) j = bitAt v j := by
  induction l generalizing v with
  | nil => rfl
  | cons e l ih =>
    obtain ⟨hne, hl⟩ := not_or.mp (mt List.mem_cons.mpr h)
    exact (ih (withBit v e.1 e.2) hl).trans (bitAt_withBit_of_ne v e.2 hne)

theorem bitAt_writeBits_of_mem {l : List (BitPos × Bool)} {e : BitPos × Bool} (v : Word)
    (hl : (l.map Prod.fst).Nodup) (he : e ∈ l) : bitAt (writeBits v l) e.1 = e.2 := by
  induction l generalizing v with
  | nil => cases he
  | cons d l ih =>
    obtain ⟨hd, hl⟩ := List.nodup_cons.mp hl
    rcases List.mem_cons.mp he with rfl | he
    · exact (bitAt_writeBits_of_notMem _ hd).trans (bitAt_withBit_self v e.1 e.2)
    · exact ih (withBit v d.1 d.2) hl he

/-! ### The flags of UR -/

/-- The six assignments of R422. -/
def fpFlagWrites (b : UrBits) (f : FpFlags) : List (BitPos × Bool) :=
  [(b.fov, f.ov), (b.fun_, f.un), (b.fsn, f.sn), (b.fqn, f.qn), (b.fix, f.ix), (b.fiv, f.iv)]

theorem setUrBit_setUr_writeBits (s : State) (l : List (BitPos × Bool)) (j : BitPos) (b : Bool) :
    (s.setUr (writeBits s.ur l)).setUrBit j b = s.setUr (writeBits s.ur (l ++ [(j, b)])) := by
  rw [writeBits, writeBits, List.foldl_append]
  rfl

theorem setFpFlags_eq (s : State) (f : FpFlags) :
    s.setFpFlags f = s.setUr (writeBits s.ur (fpFlagWrites s.params.urBit f)) := by
  dsimp only [State.setFpFlags]
  rw [show s.setUrBit s.params.urBit.fov f.ov = s.setUr (writeBits s.ur [(s.params.urBit.fov, f.ov)]) from rfl]
  simp only [setUrBit_setUr_writeBits, List.cons_append, List.nil_append, fpFlagWrites]

theorem setFdz_setUr_writeBits (s : State) (l : List (BitPos × Bool)) (dz : Bool) :
    (s.setUr (writeBits s.ur l)).setFdz dz = s.setUr (writeBits s.ur (l ++ [(s.params.urBit.fdz, dz)])) :=
  setUrBit_setUr_writeBits s l s.params.urBit.fdz dz

theorem floatResult_eq (r : RegNum) (x : Word × FpFlags) (s : State) :
    floatResult r x s =
      .next (((s.setReg r x.1).setUr (writeBits s.ur (fpFlagWrites s.params.urBit x.2))).advance .bn) := by
  rw [floatResult, setFpFlags_eq, State.setReg_ur, State.setReg_params]

theorem floatQuotient_eq (r : RegNum) (x : Word × FpFlags × Bool) (s : State) :
    floatQuotient r x s =
      .next (((s.setReg r x.1).setUr (writeBits s.ur
        (fpFlagWrites s.params.urBit x.2.1 ++ [(s.params.urBit.fdz, x.2.2)]))).advance .bn) := by
  rw [floatQuotient, setFpFlags_eq, setFdz_setUr_writeBits, State.setReg_ur, State.setReg_params]

/-- A register and bits of UR at distinct positions. -/
theorem completes_of_writeBits {i : Instr} {s : State} {r : RegNum} {v : Word} {l : List (BitPos × Bool)}
    (c : LenClass) (hl : (l.map Prod.fst).Nodup)
    (h : exec i s = .next (((s.setReg r v).setUr (writeBits s.ur l)).advance c)) :
    Completes i s fun t =>
      Holds t r v ∧ (∀ e ∈ l, bitAt t.ur e.1 = e.2) ∧ Advanced s t c.bytes ∧ t.params = s.params ∧
        Keeps { regs := [r], ur := l.map Prod.fst } s t := by
  refine ⟨_, h, holds_setReg .., fun e he => bitAt_writeBits_of_mem s.ur hl he, advanced_advance c (by simp),
    by simp, ?keeps⟩
  have hk := (Keeps.refl s).setReg r v
  exact ⟨hk.regs, fun b hb => hk.sr b hb, fun b hb => bitAt_writeBits_of_notMem s.ur hb, hk.mem, hk.stored, hk.mac,
    hk.exc, hk.extra, hk.asm, hk.params, hk.irq⟩

/-- The positions of the seven floating-point flags are distinct. -/
theorem ParamsWf.fpFlags_nodup {p : Params} (h : ParamsWf p) : (fpFlagBits p.urBit ++ [p.urBit.fdz]).Nodup :=
  h.ur.sublist (List.sublist_append_right [p.urBit.macovh, p.urBit.macovl, p.urBit.maccy] _)

/-- `floatResult`: the register and the six flags. -/
theorem setsFloat_of_floatResult {i : Instr} {s : State} {r : RegNum} {x : Word × FpFlags} (hw : ParamsWf s.params)
    (h : exec i s = floatResult r x s) : SetsFloat i s r x := by
  rw [floatResult_eq] at h
  obtain ⟨t, ht, hr, hbits, hpc, hp, hk⟩ := completes_of_writeBits
    (l := fpFlagWrites s.params.urBit x.2) .bn (List.nodup_append.mp hw.fpFlags_nodup).1 h
  refine ⟨t, ht, hr, ?_, hpc, hk⟩
  simpa [HoldsFpFlags, hp, fpFlagWrites] using hbits

/-- Settles O57: five operations write six flags, the division a seventh. -/
theorem floatArithmetic : Obligations.FloatArithmetic := by
  intro s rD rA rB hw
  refine ⟨setsFloat_of_floatResult hw rfl, setsFloat_of_floatResult hw rfl, setsFloat_of_floatResult hw rfl,
    setsFloat_of_floatResult hw rfl, setsFloat_of_floatResult hw rfl, ?div⟩
  case div =>
    have h : exec (.fnDivS rD rA rB) s = _ := floatQuotient_eq rD (fpDiv s.params.fp (s.reg rA) (s.reg rB)) s
    obtain ⟨t, ht, hr, hbits, hpc, hp, hk⟩ := completes_of_writeBits .bn
      (by rw [List.map_append]; exact hw.fpFlags_nodup) h
    refine ⟨t, ht, hr, ?flags, hbits (_, _) (List.mem_append_right _ (List.mem_singleton_self _)), hpc, ?keeps⟩
    case flags =>
      have hsix := fun e he => hbits e (List.mem_append_left _ he)
      simpa [HoldsFpFlags, hp, fpFlagWrites] using hsix
    case keeps =>
      refine { hk with ur := fun b hb => hk.ur b fun hm => hb ?_ }
      simpa [fpFlagWrites, fpFlagBits, or_comm, or_assoc, or_left_comm] using hm

end Sys2Proof.Machine
end

section
/-! PROOFS. Who writes the special registers (`spec/10_state.md` R26, R30 to R33, `spec/60_exceptions.md` R461). One
theorem over every instruction says that a change of ESR, EPCR, MAC, UR or of a bit of SR is by one of its named
writers (`NamedWriters`); both statements are readings of it. -/

namespace Sys2Proof.Machine

/-! ### The named writers -/

/-- The instruction is one of the two that enter an exception of their own, or `b.mtspr`. -/
def WritesExc (i : Instr) : Prop :=
  (∃ imm, i = .bSys imm) ∨ (∃ G, i = .btTrap G) ∨ ∃ rA rB o, i = .bwMtspr rA rB o

/-- The instruction is a multiply-accumulate or `b.mtspr`. -/
def WritesMac (i : Instr) : Prop :=
  (∃ rA rB, i = .bMac rA rB) ∨ (∃ rA rB, i = .bMacs rA rB) ∨ ∃ rA rB o, i = .bwMtspr rA rB o

/-- The instruction is one of the six floating-point operations. -/
def WritesFpFlags (i : Instr) : Prop :=
  (∃ rD rA rB, i = .fnAddS rD rA rB) ∨ (∃ rD rA rB, i = .fnSubS rD rA rB) ∨
  (∃ rD rA rB, i = .fnMulS rD rA rB) ∨ (∃ rD rA rB, i = .fnDivS rD rA rB) ∨
  (∃ rD rA, i = .fnFtoiS rD rA) ∨ ∃ rD rA, i = .fnItofS rD rA

/-- The instruction is a named writer of the bit at `j`, and not of SR as a whole. -/
def WritesSrBit (b : SrBits) (i : Instr) (j : BitPos) : Prop :=
  (j = b.f ∧ WritesF i) ∨ ((j = b.iee ∨ j = b.tee) ∧ (i = .btEi ∨ i = .btDi)) ∨ (j = b.cy ∧ WritesOvCy i) ∨
  (j = b.ov ∧ (WritesOvCy i ∨ (∃ S, i = .bnBno S) ∨ i = .bCov))

/-- What differs in `t` is written by the instruction, or by the alignment exception. -/
structure NamedWriters (i : Instr) (s t : State) : Prop where
  exc : t.esr ≠ s.esr ∨ t.epcr ≠ s.epcr → WritesExc i ∨ RaisedAlignment i s t
  mac : t.machi ≠ s.machi ∨ t.maclo ≠ s.maclo → WritesMac i
  ur : t.ur ≠ s.ur → WritesMac i ∨ WritesFpFlags i
  sr : ∀ b, bitAt t.sr b ≠ bitAt s.sr b →
    WritesSrBit s.params.srBit i b ∨ WritesWholeSr i ∨ RaisedAlignment i s t

section
variable {i : Instr} {s t : State}

theorem forall_writesSrBit_f (h : WritesF i) : ∀ j ∈ [s.params.srBit.f], WritesSrBit s.params.srBit i j := by
  simp [WritesSrBit, h]

theorem forall_writesSrBit_ov_cy (h : WritesOvCy i) :
    ∀ j ∈ [s.params.srBit.ov, s.params.srBit.cy], WritesSrBit s.params.srBit i j := by
  simp [WritesSrBit, h]

theorem forall_writesSrBit_ov (h : (∃ S, i = .bnBno S) ∨ i = .bCov) :
    ∀ j ∈ [s.params.srBit.ov], WritesSrBit s.params.srBit i j := by
  simp [WritesSrBit, h]

theorem forall_writesSrBit_iee_tee (h : i = .btEi ∨ i = .btDi) :
    ∀ j ∈ [s.params.srBit.iee, s.params.srBit.tee], WritesSrBit s.params.srBit i j := by
  simp [WritesSrBit, h]

/-! ### The writers of an operation, by what it keeps -/

theorem NamedWriters.of_keepsSpecial {l : List BitPos} (h : KeepsSpecial l s t)
    (hl : ∀ j ∈ l, WritesSrBit s.params.srBit i j) : NamedWriters i s t where
  exc hne := absurd hne (by simp [h.exc])
  mac hne := absurd hne (by simp [h.mac])
  ur hne := absurd h.ur hne
  sr j hne := .inl (hl j (not_imp_comm.mp (h.sr j) hne))

theorem NamedWriters.of_keepsAll (h : KeepsSpecial [] s t) : NamedWriters i s t :=
  .of_keepsSpecial h fun _ hj => (List.not_mem_nil hj).elim

/-- Under the policy `fault` the exception of an access ends at its vector. -/
theorem EntersAlignment.raised (ha : MakesAlignedAccess i) : EntersAlignment s t → RaisedAlignment i s t
  | ⟨hfault, _, ht⟩ => ⟨ha, hfault, ht ▸ rfl⟩

theorem NamedWriters.of_raised (h : EntersAlignment s t) (ha : MakesAlignedAccess i) : NamedWriters i s t where
  exc _ := .inr (h.raised ha)
  mac hne := absurd hne (by obtain ⟨_, _, rfl⟩ := h; exact not_or.mpr ⟨not_not_intro rfl, not_not_intro rfl⟩)
  ur hne := absurd (by obtain ⟨_, _, rfl⟩ := h; rfl) hne
  sr _ _ := .inr (.inr (h.raised ha))

theorem NamedWriters.of_access {l : List BitPos} (ha : MakesAlignedAccess i) (h : KeepsOrEnters l s t)
    (hl : ∀ j ∈ l, WritesSrBit s.params.srBit i j) : NamedWriters i s t :=
  h.elim (.of_keepsSpecial · hl) (.of_raised · ha)

theorem NamedWriters.of_access_keepsAll (ha : MakesAlignedAccess i) (h : KeepsOrEnters [] s t) :
    NamedWriters i s t :=
  .of_access ha h fun _ hj => (List.not_mem_nil hj).elim

theorem NamedWriters.of_enterException {vec epc : Word} (hexc : WritesExc i) (hwhole : WritesWholeSr i) :
    NamedWriters i s (enterException vec epc s) where
  exc _ := .inl hexc
  mac hne := absurd hne (not_or.mpr ⟨not_not_intro rfl, not_not_intro rfl⟩)
  ur hne := absurd rfl hne
  sr _ _ := .inr (.inl hwhole)

/-- A state that differs in general registers, pc, MAC and UR alone. -/
theorem NamedWriters.of_mac (h : t = { s with pc := t.pc, machi := t.machi, maclo := t.maclo, ur := t.ur })
    (hi : WritesMac i) : NamedWriters i s t where
  exc hne := by rw [h] at hne; simp at hne
  mac _ := hi
  ur _ := .inl hi
  sr j hne := by rw [h] at hne; exact absurd rfl hne

/-- A state that differs in general registers, pc and UR alone. -/
theorem NamedWriters.of_float (h : t = { s with gpr := t.gpr, pc := t.pc, ur := t.ur }) (hi : WritesFpFlags i) :
    NamedWriters i s t where
  exc hne := by rw [h] at hne; simp at hne
  mac hne := by rw [h] at hne; simp at hne
  ur _ := .inr hi
  sr j hne := by rw [h] at hne; exact absurd rfl hne

/-! ### The operations that write special registers -/

theorem namedWriters_of_next_eq {u : State} (h : Host.Outcome.next u = (.next t : Result))
    (hu : NamedWriters i s u) : NamedWriters i s t :=
  Host.Outcome.next.inj h ▸ hu

theorem namedWriters_macWrap {c : LenClass} {a b : Word} (hi : WritesMac i) (h : macWrap c a b s = .next t) :
    NamedWriters i s t :=
  namedWriters_of_next_eq h (.of_mac (by rw [State.setMacFlags_frame]; rfl) hi)

theorem namedWriters_macClamp {c : LenClass} {a b : Word} (hi : WritesMac i) (h : macClamp c a b s = .next t) :
    NamedWriters i s t :=
  namedWriters_of_next_eq h (.of_mac (by rw [State.setMacFlags_frame]; rfl) hi)

theorem namedWriters_floatResult {r : RegNum} {x : Word × FpFlags} (hi : WritesFpFlags i)
    (h : floatResult r x s = .next t) : NamedWriters i s t :=
  namedWriters_of_next_eq h (.of_float (by rw [State.setReg_frame]; rfl) hi)

theorem namedWriters_floatQuotient {r : RegNum} {x : Word × FpFlags × Bool} (hi : WritesFpFlags i)
    (h : floatQuotient r x s = .next t) : NamedWriters i s t :=
  namedWriters_of_next_eq h (.of_float (by rw [State.setReg_frame]; rfl) hi)

/-- R401: a trap enters its exception or only advances. -/
theorem namedWriters_trapIf {G : BitVec 4} (h : trapIf G s = .next t) : NamedWriters (.btTrap G) s t := by
  refine namedWriters_of_next_eq h ?_
  split
  · exact .of_enterException (.inr (.inl ⟨G, rfl⟩)) .btTrap
  · exact .of_keepsAll (.of_regs rfl)

/-- R406: `b.mtspr` is a named writer of everything. -/
theorem namedWriters_bwMtspr (rA rB : RegNum) (o : BitVec 32) (s t : State) :
    NamedWriters (.bwMtspr rA rB o) s t where
  exc _ := .inl (.inr (.inr ⟨rA, rB, o, rfl⟩))
  mac _ := .inr (.inr ⟨rA, rB, o, rfl⟩)
  ur _ := .inl (.inr (.inr ⟨rA, rB, o, rfl⟩))
  sr _ _ := .inr (.inl .bwMtspr)

/-- R402: the return writes pc and SR. -/
theorem namedWriters_btRfe (h : exec .btRfe s = .next t) : NamedWriters .btRfe s t :=
  namedWriters_of_next_eq h
    { exc := fun hne => absurd hne (not_or.mpr ⟨not_not_intro rfl, not_not_intro rfl⟩)
      mac := fun hne => absurd hne (not_or.mpr ⟨not_not_intro rfl, not_not_intro rfl⟩)
      ur := fun hne => absurd rfl hne
      sr := fun _ _ => .inr (.inl .btRfe) }

/-- R403, R404: both enables become one value. -/
theorem keepsSpecial_setEnables (s : State) (v : Bool) :
    KeepsSpecial [s.params.srBit.iee, s.params.srBit.tee] s
      ((s.setSr (withEnables s.params s.sr v)).advance .bt) :=
  .of_eq rfl fun b hb => by simp_all [withEnables, bitAt_withBit]

end

/-! ### Every instruction -/

/-- Whatever an instruction changes in the special registers, it is a named writer of. -/
theorem exec_namedWriters {i : Instr} {s t : State} (h : exec i s = .next t) : NamedWriters i s t := by
  cases i with
  | bnOr | bnXor | bnNand | bnSll | bnSrl | bnSra | bnRor | bnCmov | bnFlb | bnMulh | bnSlli | bnSrli |
    bnSrai | bnRori | bnExtbz | bnExtbs | bnExthz | bnExths | bnFf1 | bnClz | bnSwab | btMov | btMovi |
    bnAnd | bnAndi | bnBitrev | bnOri | bwAndi | bwOri | bwXori | bNot | fAbsS =>
    exact .of_keepsAll (keepsSpecial_writeBack h)
  | bnSfeq | bnSfeqi | bnSfgesi | bnSfgeui | bnSfgts | bnSfgtsi | bnSfgtu | bnSfgtui | bnSflesi | bnSfleui |
    bnSfltsi | bnSfltui | bnSfne | bnSfnei | bwSfeqi | bwSfgesi | bwSfgeui | bwSfgtsi | bwSfgtui | bwSflesi |
    bwSfleui | bwSfltsi | bwSfltui | bwSfnei | bSfges | bSfgeu | bSfles | bSfleu | bSflts | bSfltu =>
    exact .of_keepsSpecial (keepsSpecial_setFlag h) (forall_writesSrBit_f (by constructor))
  | bnBeqi | bnBf | bnBgesi | bnBgtsi | bnBlesi | bnBltsi | bnBnei | bnBnf | bnBo | bgBeq | bgBeqi | bgBf |
    bgBges | bgBgesi | bgBgeu | bgBgeui | bgBgts | bgBgtsi | bgBgtu | bgBgtui | bgBlesi | bgBleui | bgBltsi |
    bgBltui | bgBne | bgBnei | bgBnf | fgBeqS | fgBgeS | fgBgtS | fgBneS | bwBeq | bwBeqi | bwBf | bwBges |
    bwBgesi | bwBgeu | bwBgeui | bwBgts | bwBgtsi | bwBgtu | bwBgtui | bwBlesi | bwBleui | bwBltsi |
    bwBltui | bwBne | bwBnei | bwBnf | fwBeqS | fwBgeS | fwBgtS | fwBneS | bBles | bBleu | bBlts | bBltu |
    fBleS | fBltS =>
    exact .of_keepsAll (keepsSpecial_branchIf h)
  | bnBno S => exact .of_keepsSpecial (keepsSpecial_branchNoOverflow h) (forall_writesSrBit_ov (.inl ⟨S, rfl⟩))
  | bCov => exact .of_keepsSpecial (keepsSpecial_branchNoOverflow h) (forall_writesSrBit_ov (.inr rfl))
  | btJ | bnJ | bnJr | bnReturn | bgJ | bwJ | bwJa => exact .of_keepsAll (keepsSpecial_jumpTo h)
  | bnJal | bgJal | bwJal | bJalr => exact .of_keepsAll (keepsSpecial_jumpLink h)
  | btAddi | btAdd | bnAdd | bnAddi | bgAddi | bwAddi | bMovhi =>
    exact .of_keepsSpecial (keepsSpecial_addFlags h) (forall_writesSrBit_ov_cy (by constructor))
  | bnSub => exact .of_keepsSpecial (keepsSpecial_subFlags h) (forall_writesSrBit_ov_cy (by constructor))
  | bnAdds => exact .of_keepsSpecial (keepsSpecial_addSat h) (forall_writesSrBit_ov_cy (by constructor))
  | bSubs => exact .of_keepsSpecial (keepsSpecial_subSat h) (forall_writesSrBit_ov_cy (by constructor))
  | bnMul | bwMuli => exact .of_keepsSpecial (keepsSpecial_mulFlags h) (forall_writesSrBit_ov_cy (by constructor))
  | bnDiv | bwDivi =>
    exact .of_keepsSpecial (keepsSpecial_divSigned h) (forall_writesSrBit_ov_cy (by constructor))
  | bnDivu | bwDivui =>
    exact .of_keepsSpecial (keepsSpecial_divUnsigned h) (forall_writesSrBit_ov_cy (by constructor))
  | bnMod => exact .of_keepsAll (keepsSpecial_modSigned h)
  | bnModu => exact .of_keepsAll (keepsSpecial_modUnsigned h)
  | bwMfspr => exact .of_keepsAll (keepsSpecial_moveFromSpr h)
  | bnAddc | bwAddci | bAddic =>
    exact .of_keepsSpecial (keepsSpecial_withCarry keepsSpecial_addFlags h)
      (forall_writesSrBit_ov_cy (by constructor))
  | bnSubb =>
    exact .of_keepsSpecial (keepsSpecial_withCarry keepsSpecial_subFlags h)
      (forall_writesSrBit_ov_cy (by constructor))
  | bnBc | bnBnc => exact .of_keepsAll (keepsSpecial_withCarry keepsSpecial_branchIf h)
  | bnLbz | bgLbz | bwLbz => exact .of_keepsAll (keepsSpecial_loadByte h)
  | bnSb | bgSb | bwSb => exact .of_keepsAll (keepsSpecial_storeByte h)
  | bnLhz | bnLws | bnLwz | bgLhz | bgLws | bgLwz | bwLhz | bwLws | bwLwz =>
    exact .of_access_keepsAll (by constructor) (keepsOrEnters_loadInto h)
  | bnSh | bnSw | bgSh | bgSw | bwSh | bwSw => exact .of_access_keepsAll (by constructor) (keepsOrEnters_storeFrom h)
  | bnMlwz => exact .of_access_keepsAll .bnMlwz (keepsOrEnters_loadMultiple h)
  | bnMsw => exact .of_access_keepsAll .bnMsw (keepsOrEnters_storeMultiple h)
  | bwLma => exact .of_access_keepsAll .bwLma (keepsOrEnters_loadThrough h)
  | bwSma => exact .of_access_keepsAll .bwSma (keepsOrEnters_storeThrough h)
  | bnAadd => exact .of_access_keepsAll .bnAadd (keepsOrEnters_atomicAdd h)
  | bnCmpxchg =>
    exact .of_access .bnCmpxchg (keepsOrEnters_compareExchange h) (forall_writesSrBit_f .bnCmpxchg)
  | bnEntri => exact .of_access_keepsAll .bnEntri (keepsOrEnters_prologue h)
  | bnRtnei => exact .of_access_keepsAll .bnRtnei (keepsOrEnters_epilogue h)
  | bnReti => exact .of_access_keepsAll .bnReti (keepsOrEnters_epilogueReturn h)
  | bwJma => exact .of_access_keepsAll .bwJma (keepsOrEnters_jumpMemory h)
  | bwJmal => exact .of_access_keepsAll .bwJmal (keepsOrEnters_jumpMemoryLink h)
  | bMac rA rB => exact namedWriters_macWrap (.inl ⟨rA, rB, rfl⟩) h
  | bMacs rA rB => exact namedWriters_macClamp (.inr (.inl ⟨rA, rB, rfl⟩)) h
  | fnAddS | fnSubS | fnMulS | fnFtoiS | fnItofS =>
    exact namedWriters_floatResult (by simp [WritesFpFlags]) h
  | fnDivS => exact namedWriters_floatQuotient (by simp [WritesFpFlags]) h
  | btTrap => exact namedWriters_trapIf h
  | bwMtspr rA rB o => exact namedWriters_bwMtspr rA rB o s t
  | bSys imm => exact namedWriters_of_next_eq h (.of_enterException (.inl ⟨imm, rfl⟩) .bSys)
  | btRfe => exact namedWriters_btRfe h
  | btEi =>
    exact namedWriters_of_next_eq h
      (.of_keepsSpecial (keepsSpecial_setEnables s true) (forall_writesSrBit_iee_tee (.inl rfl)))
  | btDi =>
    exact namedWriters_of_next_eq h
      (.of_keepsSpecial (keepsSpecial_setEnables s false) (forall_writesSrBit_iee_tee (.inr rfl)))
  | btNop => exact namedWriters_of_next_eq h (.of_keepsAll (.of_regs rfl))
  | bnLd | bnSd | bgLd | bgSd | bwLd | bwSd => cases h

/-! ### The statements -/

/-- Settles O59: the named writers of the registers. -/
theorem writersOfSpecialRegisters : Obligations.WritersOfSpecialRegisters := by
  intro i s t h
  have hw := exec_namedWriters h
  refine ⟨fun hne => ?exc, hw.mac, fun hne => ?ur⟩
  case exc => simpa only [WritesExc, or_assoc] using hw.exc hne
  case ur => simpa only [WritesMac, WritesFpFlags, or_assoc] using hw.ur hne

section
variable {p : Params} {i : Instr}

/-- At distinct positions a named writer of a bit is one of those of the flag at its position. -/
theorem ParamsWf.writesSrBit_iff (hp : ParamsWf p) :
    (WritesSrBit p.srBit i p.srBit.f ↔ WritesF i) ∧
    (WritesSrBit p.srBit i p.srBit.iee ↔ i = .btEi ∨ i = .btDi) ∧
    (WritesSrBit p.srBit i p.srBit.tee ↔ i = .btEi ∨ i = .btDi) ∧
    (WritesSrBit p.srBit i p.srBit.cy ↔ WritesOvCy i) ∧
    (WritesSrBit p.srBit i p.srBit.ov ↔ WritesOvCy i ∨ (∃ S, i = .bnBno S) ∨ i = .bCov) := by
  have hd := hp.sr
  simp only [srPositions, List.nodup_cons, List.mem_cons, not_or] at hd
  obtain ⟨⟨hfc, hfo, hfi, hft, -⟩, ⟨hco, hci, hct, -⟩, ⟨hoi, hot, -⟩, -⟩ := hd
  simp [WritesSrBit, hfc, hfo, hfi, hft, hco, hci, hct, hoi, hot, Ne.symm hfc, Ne.symm hfo, Ne.symm hfi,
    Ne.symm hft, Ne.symm hco, Ne.symm hci, Ne.symm hct, Ne.symm hoi, Ne.symm hot]

theorem not_writesSrBit_of_notMem {b : BitPos} (hb : b ∉ srPositions p.srBit) : ¬ WritesSrBit p.srBit i b := by
  simp only [srPositions, List.mem_cons, not_or] at hb
  simp [WritesSrBit, hb]

end

/-- Settles O60: the named writers of the bits, flag by flag at its position, which no instruction moves. -/
theorem writersOfStatusBits : Obligations.WritersOfStatusBits := by
  intro i s t hp h
  have hsr := (exec_namedWriters h).sr
  have hparams := (exec_keepsPlatform h).params
  obtain ⟨hf, hiee, htee, hcy, hov⟩ := hp.writesSrBit_iff (i := i)
  dsimp only [State.flagF, State.flagIee, State.flagTee, State.flagCy, State.flagOv]
  rw [hparams]
  refine ⟨fun hne => ?f, fun hne => ?enables, fun hne => ?cy, fun hne => ?ov, fun b hb hne => ?other⟩
  case f => exact (hsr _ hne).imp_left hf.mp
  case enables =>
    rw [← or_assoc]
    exact hne.elim (fun hne => (hsr _ hne).imp_left hiee.mp) fun hne => (hsr _ hne).imp_left htee.mp
  case cy => exact (hsr _ hne).imp_left hcy.mp
  case ov => simpa only [hov, or_assoc] using hsr _ hne
  case other => exact (hsr b hne).resolve_left (not_writesSrBit_of_notMem hb)

end Sys2Proof.Machine
end
